-- ==== Sys2Proof/Word.lean ====
section
/-! DEFINITION. The integers and byte sequences of `00_scope.md` rule R9. -/

namespace Sys2Proof

/-- A byte, the spec's u8 (R9). -/
abbrev Byte := BitVec 8

/-- The spec's u8 where it is a number and not a piece of a byte sequence (R9). -/
abbrev U8 := BitVec 8

/-- The spec's u16 (R9). -/
abbrev U16 := BitVec 16

/-- The spec's u32 (R9). -/
abbrev U32 := BitVec 32

/-- A finite sequence of bytes, indexed from 0 (R9). -/
abbrev Bytes := List Byte

end Sys2Proof
end

