-- ==== Sys2Proof/Syntax.lean ====
section
/-! DEFINITION. What requests, results and layouts are written with: the layout language (`30_encoding.md`
rules R54 to R61), the value shapes (R64), the entity records (`10_state.md` rules R29 to R32), the fourteen
operations (`30_encoding.md` rule R66) and the request record (`10_state.md` rule R21). -/

namespace Sys2Proof

/-! ## Names -/

/-- The name of a layout item or of a bit item (R54, R57). -/
abbrev FieldName := String

/-- The names of enumerations: the sixteen of `00_scope.md` rule R14, and any further ones a
configuration adds. -/
inductive EnumName
  | robotID
  | endpointId
  | gameType
  | gameProgress
  | gameResult
  | refereeWarningLevel
  | occupyType
  | dartTarget
  | dartSelectionTarget
  | hpDeductionReason
  | bulletType
  | shooterNumber
  | figureOperateType
  | figureType
  | figureColor
  | layerDeleteType
  | other (n : Nat)
  deriving DecidableEq, Repr

/-! ## The layout language -/

/-- One named member of a bit-field group (R57). -/
inductive BitItem
  /-- `ub(w)`: w unsigned bits. -/
  | ub (w : Nat)
  /-- `eb(E, w)`: an enumeration of w bits. -/
  | eb (e : EnumName) (w : Nat)
  /-- `rb(w)`: w reserved bits (R58). -/
  | rb (w : Nat)
  deriving DecidableEq, Repr

/-- The item kinds that have a value of their own and hold no other item: the elements an array may
have beside figure records (R55, R56, R57, R59). -/
inductive LeafItem
  /-- `u(k)`: unsigned integer of k bytes. -/
  | u (k : Nat)
  /-- `i(k)`: signed integer of k bytes. -/
  | i (k : Nat)
  /-- `enum(E, k)`: enumeration of k bytes. -/
  | enum (e : EnumName) (k : Nat)
  /-- `bits[...]`: a bit-field group. -/
  | bits (fields : List (FieldName × BitItem))
  deriving DecidableEq, Repr

/-- The item kinds `FIGURE_LAYOUT` and `LAYER_DELETE_LAYOUT` may have: neither `tail` nor `rec(FIGURE)`
(R63 item 6). An array has no reserved elements and no nested arrays (R59): its element is a `LeafItem`. -/
inductive PlainItem
  | leaf (item : LeafItem)
  /-- `rsv(k)`: k reserved bytes (R58). -/
  | rsv (k : Nat)
  /-- `arr(item, c)` with a leaf element (R59). -/
  | arr (elem : LeafItem) (count : Nat)
  deriving DecidableEq, Repr

/-- The item kinds of a command layout without `tail` (R54). -/
inductive Item
  | plain (item : PlainItem)
  /-- `rec(FIGURE)`: one figure record (R59). -/
  | figure
  /-- `arr(rec(FIGURE), c)` (R59). -/
  | figures (count : Nat)
  deriving DecidableEq, Repr

/-- A command layout. `tail` is allowed in the layout of `TAG_RID` only, and that layout is fixed
(R61): it is the constructor `rid`. Every other layout is a list of items without `tail` (R63 item 3). -/
inductive Layout
  | fixed (items : List (FieldName × Item))
  | rid
  deriving DecidableEq, Repr

/-! ## Values (R64) -/

/-- The value of a non-reserved bit item. -/
inductive BitValue
  | int (v : Int)
  | enum (e : EnumName) (raw : Nat)
  deriving DecidableEq, Repr

/-- The value of a `LeafItem`. -/
inductive LeafValue
  | int (v : Int)
  | enum (e : EnumName) (raw : Nat)
  | group (fields : List BitValue)
  deriving DecidableEq, Repr

/-- The value of a non-reserved `PlainItem`. -/
inductive PlainValue
  | leaf (v : LeafValue)
  | list (xs : List LeafValue)
  deriving DecidableEq, Repr

/-- The value of a non-reserved item of a command layout, or of its `tail`. -/
inductive Value
  | plain (v : PlainValue)
  /-- `Rec(vs)`. -/
  | record (fields : List PlainValue)
  /-- `List(xs)` whose elements are figure records. -/
  | records (figures : List (List PlainValue))
  /-- `Bytes(d)`, the value of `tail`. -/
  | bytes (d : Bytes)
  deriving DecidableEq, Repr

/-! ## Entity records -/

/-- `10_state.md` rule R29. The magic byte is no field: it is always `MAGIC`. -/
structure FrameHeader where
  payloadLength : U16
  sequence : U8
  crc8 : U8
  deriving DecidableEq, Repr

/-- `10_state.md` rule R30. Equality is structural: equal tags and equal value lists. -/
structure Variant where
  tag : U16
  values : List Value
  deriving DecidableEq, Repr

/-- `10_state.md` rule R31. -/
structure Frame where
  header : FrameHeader
  payload : Variant
  tail : U16
  deriving DecidableEq, Repr

/-- The interaction variants that a mapped sub-tag selects (`44_interaction.md` rule R124). -/
inductive IxVariant
  | layerDelete
  | figure1
  | figure2
  | figure5
  | figure7
  | customChar
  | sentryCmd
  | radarCmd
  deriving DecidableEq, Repr

/-- The value list of one `FIGURE_LAYOUT` record. -/
abbrev Fig := List PlainValue

/-- The result record of IX_DISPATCH (`10_state.md` rule R32). -/
inductive Interaction
  | layerDelete (values : List Value)
  | figure1 (f0 : Fig)
  | figure2 (f0 f1 : Fig)
  | figure5 (f0 f1 f2 f3 f4 : Fig)
  | figure7 (f0 f1 f2 f3 f4 f5 f6 : Fig)
  | customChar (fig : Fig) (chars : Bytes)
  | sentryCmd (flag0 flag1 : BitVec 1) (exchangeCount : BitVec 11) (requestCount0 requestCount1 : BitVec 4)
  | radarCmd (cmd : U8)
  | robotToRobot (data : Bytes)
  /-- `None`: no interpretation is available. It is an OK result (`44_interaction.md` rule R134). -/
  | none
  deriving DecidableEq, Repr

/-! ## Operations -/

/-- The fourteen operations, one constructor per row of the opcode table, each with the operands that
`30_encoding.md` rule R66 names, in its order and at its widths. -/
inductive Instr
  | crc8 (data : Bytes)
  | crc16 (data : Bytes)
  | hdrDecode (bytes : Bytes)
  | hdrEncode (hdr : FrameHeader)
  | hdrRecompute (payloadLength : U16) (sequence : U8)
  | payDecode (tag : U16) (bytes : Bytes) (declared : U16)
  | payEncode (v : Variant)
  | bitsUnpack (bytes : Bytes) (bitpos : U32) (width : U8)
  | bitsPack (fields : List (U8 × U32))
  | frameBuild (sequence : U8) (payload : Variant)
  | frameEncode (frame : Frame)
  | frameDecode (bytes : Bytes)
  | tailCheck (bytes : Bytes)
  | ixDispatch (rid : Variant)
  deriving DecidableEq, Repr

/-- One operand of a request: a byte sequence, an integer, an entity record (`10_state.md` rule R21),
or the field list of BITS_PACK (R66). -/
inductive Operand
  | bytes (b : Bytes)
  | u8 (n : U8)
  | u16 (n : U16)
  | u32 (n : U32)
  | header (h : FrameHeader)
  | variant (v : Variant)
  | frame (f : Frame)
  | fields (fs : List (U8 × U32))
  deriving DecidableEq, Repr

/-- The request record `op ‖ operands` (`10_state.md` rule R21, `30_encoding.md` rule R65): the 8-bit
selector and the operand record, in the order of R66. -/
structure Request where
  op : BitVec 8
  operands : List Operand
  deriving DecidableEq, Repr

end Sys2Proof
end

