-- ==== Sys2Proof/Config.lean ====
section
/-! DEFINITION. The hard-wired constants (`10_state.md` rules R17, R19, R20; `70_reset_and_hazards.md` rule
R152) and the configuration an implementation of the block is created with (`00_scope.md` rule R7). -/

namespace Sys2Proof

/-! ## Constant registers -/

/-- A checksum configuration register of CRC width `w`, with every field of R17 and R19. -/
structure CrcConfig (w : Nat) where
  width : BitVec 5
  poly : BitVec w
  init : BitVec w
  refin : Bool
  refout : Bool
  xorout : BitVec w
  check : BitVec w
  deriving DecidableEq, Repr

/-- `CRC8_CFG` (R17). -/
def crc8Cfg : CrcConfig 8 where
  width := 8
  poly := 0x31
  init := 0xFF
  refin := false
  refout := false
  xorout := 0x00
  check := 0xF7

/-- `CRC16_CFG` (R19), CRC-16/CCITT-FALSE. -/
def crc16Cfg : CrcConfig 16 where
  width := 16
  poly := 0x1021
  init := 0xFFFF
  refin := false
  refout := false
  xorout := 0x0000
  check := 0x29B1

/-- `MAGIC`, header byte 0 (R20). -/
def magic : Byte := 0xA5

/-- `HDR_LEN` (R20). -/
def hdrLen : Nat := 5

/-- `TAG_LEN` (R20). -/
def tagLen : Nat := 2

/-- `TAIL_LEN` (R20). -/
def tailLen : Nat := 2

/-- `FRAME_OVERHEAD` (R20). -/
def frameOverhead : Nat := 9

/-- `RID_PREFIX`: RID sub-tag, sender and receiver bytes (R20). -/
def ridPrefixLen : Nat := 6

/-- The size of one figure record (`30_encoding.md` rule R60). -/
def figureSize : Nat := 15

/-- The size of the layer-delete record (`44_interaction.md` rule R133). -/
def layerDeleteSize : Nat := 2

/-- The largest payload length, the range of its u16 (`00_scope.md` rule R8). -/
def maxPayloadLength : Nat := 0xFFFF

/-- `TAG_GAME_STATUS` (`00_scope.md` rule R7). -/
def tagGameStatus : U16 := 0x0001

/-- `SUBTAG_SENTRY` (R20). -/
def subtagSentry : U16 := 0x0120

/-- `SUBTAG_RADAR` (R20). -/
def subtagRadar : U16 := 0x0121

/-! ## The configuration (OPEN parameters of R7) -/

/-- One entry of `ENUMS`: the bit width and the legal raw values. -/
structure EnumDef where
  width : Nat
  legal : List Nat
  deriving DecidableEq, Repr

/-- `IX_SUBTAGS` (`92_eei_decisions.md` D7). -/
structure IxSubtags where
  layerDelete : U16
  figure1 : U16
  figure2 : U16
  figure5 : U16
  figure7 : U16
  customChar : U16
  deriving DecidableEq, Repr

/-- The OPEN parameters of `00_scope.md` rule R7. `layouts` gives one fixed-size layout for every member
of `TAGS` but `TAG_RID`, whose layout is fixed by `30_encoding.md` rule R61; `TAGS` is its domain with
`tagRid` (DEDUCED, safe: log 7). Finite sets and maps are lists (DEDUCED, safe: log 13). -/
structure Config where
  tagRid : U16
  layouts : List (U16 × List (FieldName × Item))
  enums : List (EnumName × EnumDef)
  ixSubtags : IxSubtags
  ixR2rLo : U16
  ixR2rHi : U16
  figureLayout : List (FieldName × PlainItem)
  layerDeleteLayout : List (FieldName × PlainItem)
  deriving DecidableEq, Repr

end Sys2Proof
end

