-- ==== Sys2Proof/Machine/Layout.lean ====
section
/-! DEFINITION. Sizes of layouts (`30_encoding.md` rule R60), look-ups in a configuration, the layouts the
spec fixes (R61, `44_interaction.md` rules R124, R129, R130), and the separate conditions a configuration
must meet (R54 to R59, R62, R63). -/

namespace Sys2Proof

/-! ## Sizes (R60) -/

/-- The bits a bit item takes in its group (R57). -/
def BitItem.width : BitItem → Nat
  | .ub w => w
  | .eb _ w => w
  | .rb w => w

/-- `T = w1 + ... + wm`, the total width of a group (R57). -/
def groupBits : List (FieldName × BitItem) → Nat
  | [] => 0
  | (_, g) :: gs => g.width + groupBits gs

/-- The bytes a leaf item takes (R60). -/
def LeafItem.size : LeafItem → Nat
  | .u k => k
  | .i k => k
  | .enum _ k => k
  | .bits gs => groupBits gs / 8

/-- The bytes a plain item takes (R60). -/
def PlainItem.size : PlainItem → Nat
  | .leaf it => it.size
  | .rsv k => k
  | .arr e c => c * e.size

/-- The bytes an item takes (R60): `rec(FIGURE)` has size 15. -/
def Item.size : Item → Nat
  | .plain it => it.size
  | .figure => figureSize
  | .figures c => c * figureSize

/-- The size of a list of named items, given the size of one (R60). -/
def sizeOfItems {ι : Type} (size : ι → Nat) : List (FieldName × ι) → Nat
  | [] => 0
  | (_, it) :: items => size it + sizeOfItems size items

/-! ## Fixed layouts -/

/-- The items of `LAYOUTS[TAG_RID]` before its `tail` (R61). -/
def ridItems : List (FieldName × Item) :=
  [("sub_tag", .plain (.leaf (.u 2))),
   ("sender", .plain (.leaf (.enum .endpointId 2))),
   ("receiver", .plain (.leaf (.enum .endpointId 2)))]

/-- The sentry autonomy command: one 32-bit group (`44_interaction.md` rule R129). -/
def sentryLayout : List (FieldName × Item) :=
  [("s", .plain (.leaf (.bits
    [("flag0", .ub 1), ("flag1", .ub 1), ("exchange_count", .ub 11),
     ("request_count0", .ub 4), ("request_count1", .ub 4), ("reserved", .rb 11)])))]

/-- The radar autonomy command: one raw byte (`44_interaction.md` rule R130). -/
def radarLayout : List (FieldName × Item) :=
  [("cmd", .plain (.leaf (.u 1)))]

/-! ## Look-ups -/

/-- `TAGS` (`00_scope.md` rule R7): the domain of `LAYOUTS`. -/
def Config.tags (c : Config) : List U16 :=
  c.tagRid :: c.layouts.map (·.1)

/-- `LAYOUTS[tag]`, or `none` when `tag` is not in `TAGS` (`42_payload.md` rule R92). -/
def Config.layoutOf (c : Config) (tag : U16) : Option Layout :=
  if tag = c.tagRid then some .rid else (c.layouts.lookup tag).map .fixed

/-- `ENUMS[E].width`, or `none` when `E` is no key of `ENUMS`. -/
def Config.enumWidth (c : Config) (e : EnumName) : Option Nat :=
  (c.enums.lookup e).map (·.width)

/-- `raw` is in `ENUMS[E].legal`. -/
def Config.enumLegal (c : Config) (e : EnumName) (raw : Nat) : Bool :=
  match c.enums.lookup e with
  | some d => d.legal.contains raw
  | none => false

/-- The eight interaction variants with a mapped sub-tag (`44_interaction.md` rule R124). -/
def IxVariant.all : List IxVariant :=
  [.layerDelete, .figure1, .figure2, .figure5, .figure7, .customChar, .sentryCmd, .radarCmd]

/-- The sub-tag of an interaction variant (`44_interaction.md` rule R124). -/
def Config.subtagOf (c : Config) : IxVariant → U16
  | .layerDelete => c.ixSubtags.layerDelete
  | .figure1 => c.ixSubtags.figure1
  | .figure2 => c.ixSubtags.figure2
  | .figure5 => c.ixSubtags.figure5
  | .figure7 => c.ixSubtags.figure7
  | .customChar => c.ixSubtags.customChar
  | .sentryCmd => subtagSentry
  | .radarCmd => subtagRadar

/-- The layout of `data` under an interaction variant (`44_interaction.md` rule R124). -/
def Config.ixLayout (c : Config) : IxVariant → List (FieldName × Item)
  | .layerDelete => c.layerDeleteLayout.map fun p => (p.1, .plain p.2)
  | .figure1 => [("f", .figures 1)]
  | .figure2 => [("f", .figures 2)]
  | .figure5 => [("f", .figures 5)]
  | .figure7 => [("f", .figures 7)]
  | .customChar => [("fig", .figure), ("chars", .plain (.arr (.u 1) 30))]
  | .sentryCmd => sentryLayout
  | .radarCmd => radarLayout

/-- The robot-to-robot range, both ends inclusive (`30_encoding.md` rule R69). -/
def Config.inR2r (c : Config) (subtag : U16) : Bool :=
  decide (c.ixR2rLo.toNat ≤ subtag.toNat) && decide (subtag.toNat ≤ c.ixR2rHi.toNat)

/-! ## Item and group constraints (R55 to R59) -/

/-- The constraints of R57 on one bit item. -/
def BitItem.ok (c : Config) : BitItem → Bool
  | .ub w => decide (1 ≤ w) && decide (w ≤ 32)
  | .eb e w => decide (1 ≤ w) && decide (w ≤ 16) && c.enumWidth e == some w
  | .rb w => decide (1 ≤ w)

/-- No name twice among the members of a group (R57; `namesOk` asks it of the whole layout). -/
def namesUnique {ι : Type} (items : List (FieldName × ι)) : Bool :=
  decide (items.map (·.1)).Nodup

/-- The constraints of R55, R56 and R57 on a leaf item. -/
def LeafItem.ok (c : Config) : LeafItem → Bool
  | .u k => [1, 2, 4, 8].contains k
  | .i k => [1, 2, 4, 8].contains k
  | .enum e k => [1, 2].contains k && c.enumWidth e == some (8 * k)
  | .bits gs =>
    gs.all (fun g => g.2.ok c) && namesUnique gs && groupBits gs % 8 == 0 && decide (8 ≤ groupBits gs)

/-- The constraints of R58 and R59 on a plain item. -/
def PlainItem.ok (c : Config) : PlainItem → Bool
  | .leaf it => it.ok c
  | .rsv k => decide (1 ≤ k)
  | .arr e n => e.ok c && decide (1 ≤ n)

/-- The constraints of R59 on an item. -/
def Item.ok (c : Config) : Item → Bool
  | .plain it => it.ok c
  | .figure => true
  | .figures n => decide (1 ≤ n)

/-- The names of the fields inside a leaf item: those of a group's bit items (R57). -/
def LeafItem.names : LeafItem → List FieldName
  | .bits gs => gs.map (·.1)
  | _ => []

/-- The names of the fields inside a plain item. -/
def PlainItem.names : PlainItem → List FieldName
  | .leaf it => it.names
  | .rsv _ => []
  | .arr e _ => e.names

/-- The names of the fields inside an item. Those of a figure record belong to `FIGURE_LAYOUT`, another
layout. -/
def Item.names : Item → List FieldName
  | .plain it => it.names
  | _ => []

/-- The names of one layout: of its items and of the bit items in its groups (R54, R57; DEDUCED, safe: log 8). -/
def layoutNames {ι : Type} (names : ι → List FieldName) (items : List (FieldName × ι)) : List FieldName :=
  items.flatMap fun it => it.1 :: names it.2

/-- A letter or an underscore, then letters, digits and underscores. R54 says "identifiers" and no more: the
characters are a DESIGN CHOICE (safe: log 20). -/
def isIdentifier (name : FieldName) : Bool :=
  match name.toList with
  | [] => false
  | ch :: rest => (ch.isAlpha || ch == '_') && rest.all fun x => x.isAlphanum || x == '_'

/-- "Names are identifiers that are unique within one layout" (R54). -/
def namesOk {ι : Type} (names : ι → List FieldName) (items : List (FieldName × ι)) : Bool :=
  (layoutNames names items).all isIdentifier && decide (layoutNames names items).Nodup

/-- A list of named items obeys R54 to R59, given the constraints on one and the names inside one. -/
def itemsOk {ι : Type} (ok : ι → Bool) (names : ι → List FieldName) (items : List (FieldName × ι)) : Bool :=
  items.all (fun it => ok it.2) && namesOk names items

/-! ## The conditions of R63, by item -/

/-- Item 1: exactly one layout per tag. -/
def Config.oneLayoutPerTag (c : Config) : Bool :=
  decide c.tags.Nodup

/-- Item 2, and R62's first point: `TAG_GAME_STATUS` is in `TAGS` with a fixed-size layout. (`TAG_RID` is
in `TAGS` by the form of `Config`.) -/
def Config.hasGameStatus (c : Config) : Bool :=
  (c.layouts.lookup tagGameStatus).isSome

/-- Item 4 for the command layouts. (Item 3 holds by the form of `Layout`.) -/
def Config.layoutsOk (c : Config) : Bool :=
  c.layouts.all fun p => itemsOk (Item.ok c) Item.names p.2

/-- Items 4 and 6 for `FIGURE_LAYOUT`. -/
def Config.figureOk (c : Config) : Bool :=
  itemsOk (PlainItem.ok c) PlainItem.names c.figureLayout && sizeOfItems PlainItem.size c.figureLayout == figureSize

/-- Items 4 and 6 for `LAYER_DELETE_LAYOUT`. -/
def Config.layerDeleteOk (c : Config) : Bool :=
  itemsOk (PlainItem.ok c) PlainItem.names c.layerDeleteLayout
    && sizeOfItems PlainItem.size c.layerDeleteLayout == layerDeleteSize

/-- Item 5 for the table itself: one entry per name, EndpointId of width 16, every legal set a non-empty
subset of `[0, 2^width)`. -/
def Config.enumsOk (c : Config) : Bool :=
  decide (c.enums.map (·.1)).Nodup && c.enumWidth .endpointId == some 16
    && c.enums.all fun e => !e.2.legal.isEmpty && e.2.legal.all fun r => decide (r < 2 ^ e.2.width)

/-- Item 7: eight distinct sub-tags, none in the robot-to-robot range. -/
def Config.subtagsOk (c : Config) : Bool :=
  decide (IxVariant.all.map c.subtagOf).Nodup && IxVariant.all.all fun v => !c.inR2r (c.subtagOf v)

/-- `IX_R2R_LO <= IX_R2R_HI` (`00_scope.md` rule R7). -/
def Config.r2rOrdered (c : Config) : Bool :=
  decide (c.ixR2rLo.toNat ≤ c.ixR2rHi.toNat)

/-! ## The facts of R14 and R62 that bind every configuration -/

/-- The sixteen names of `00_scope.md` rule R14. -/
def EnumName.named : List EnumName :=
  [.robotID, .endpointId, .gameType, .gameProgress, .gameResult, .refereeWarningLevel, .occupyType,
   .dartTarget, .dartSelectionTarget, .hpDeductionReason, .bulletType, .shooterNumber,
   .figureOperateType, .figureType, .figureColor, .layerDeleteType]

/-- The domain of `ENUMS` contains the sixteen names of R14. -/
def Config.namesEnums (c : Config) : Bool :=
  EnumName.named.all fun e => (c.enumWidth e).isSome

/-- The shape of MapPathData: three items of 5 bytes together, two arrays of 49 signed bytes, a 2-byte
sender id (R62). -/
def isMapPath : List (FieldName × Item) → Bool
  | [(_, a), (_, b), (_, d), (_, .plain (.arr (.i 1) 49)), (_, .plain (.arr (.i 1) 49)),
      (_, .plain (.leaf (.u 2)))] => a.size + b.size + d.size == 5
  | [(_, a), (_, b), (_, d), (_, .plain (.arr (.i 1) 49)), (_, .plain (.arr (.i 1) 49)),
      (_, .plain (.leaf (.enum .endpointId 2)))] => a.size + b.size + d.size == 5
  | _ => false

/-- From bit position `s` of a group on: a `ub(12)` field and a `ub(4)` field, one directly after the other in
either order, with the last bit of the first and the first bit of the second in one byte. R62 says "share a
byte"; that the two are adjacent is DEDUCED from `91_not_in_source.md` N12 (safe: log 9). -/
def sharesByte : List (FieldName × BitItem) → Nat → Bool
  | (_, .ub v) :: (n, .ub w) :: gs, s =>
    ((v == 12 && w == 4 || v == 4 && w == 12) && (s + v - 1) / 8 == (s + v) / 8)
      || sharesByte ((n, .ub w) :: gs) (s + v)
  | (_, g) :: gs, s => sharesByte gs (s + g.width)
  | [], _ => false

/-- The groups of a leaf item. -/
def LeafItem.groups : LeafItem → List (List (FieldName × BitItem))
  | .bits gs => [gs]
  | _ => []

/-- The groups of a plain item, the one of an array's elements included. -/
def PlainItem.groups : PlainItem → List (List (FieldName × BitItem))
  | .leaf it => it.groups
  | .rsv _ => []
  | .arr e _ => e.groups

/-- The groups of an item, those of a figure record included. -/
def Item.groups (c : Config) : Item → List (List (FieldName × BitItem))
  | .plain it => it.groups
  | .figure => c.figureLayout.flatMap fun it => it.2.groups
  | .figures _ => c.figureLayout.flatMap fun it => it.2.groups

/-- The groups of a layout, wherever they stand in it. -/
def layoutGroups (c : Config) (items : List (FieldName × Item)) : List (List (FieldName × BitItem)) :=
  items.flatMap fun it => it.2.groups c

/-- The shape of SimulateControl: some group as in `sharesByte` (R62). R62 does not say where in the layout the
group stands: an item of its own, the element of an array and a member of a figure record all count (DESIGN
CHOICE, safe: log 21). -/
def isSimulateControl (c : Config) (items : List (FieldName × Item)) : Bool :=
  (layoutGroups c items).any fun gs => sharesByte gs 0

/-- The tag of "robot-custom-data" (R62). -/
def tagRobotCustomData : U16 := 0x0309

/-- R62's four variants are four members of `TAGS` beside `TAG_RID`: GameStatus (`hasGameStatus`), the variant
with tag 0x0309, a MapPathData and a SimulateControl of two further tags (DEDUCED, safe: log 22). -/
def Config.hasKnownVariants (c : Config) : Bool :=
  (c.layouts.lookup tagRobotCustomData).isSome
    && c.layouts.any fun m => isMapPath m.2 && c.layouts.any fun sc => isSimulateControl c sc.2
      && decide [tagGameStatus, tagRobotCustomData, m.1, sc.1].Nodup

end Sys2Proof
end

