-- ==== Sys2Proof/Decode.lean ====
section
/-! DEFINITION. From a request record to an operation and back (`30_encoding.md` rules R65 to R67). The
selector is the whole 8-bit `op` field (R74); the operands are typed values, so the encoder writes the `op`
byte and the operand record. -/

namespace Sys2Proof

/-- Why a request is no operation. -/
inductive DecodeError
  /-- The `op` is one of the 242 unassigned codes; the operands are not examined (R67). -/
  | unassignedOp
  /-- The `op` is assigned and the operand record is not of the type R66 names: no request of the
  interface, since the record is "typed by the operation" (R65; DESIGN CHOICE, safe: log 5). -/
  | illTypedOperands
  deriving DecidableEq, Repr

/-- The operation a request names (R66), or why it names none. -/
def decode (r : Request) : Except DecodeError Instr :=
  match r.op.toNat with
  | 0x01 => match r.operands with
    | [.bytes data] => .ok (.crc8 data)
    | _ => .error .illTypedOperands
  | 0x02 => match r.operands with
    | [.bytes data] => .ok (.crc16 data)
    | _ => .error .illTypedOperands
  | 0x10 => match r.operands with
    | [.bytes bytes] => .ok (.hdrDecode bytes)
    | _ => .error .illTypedOperands
  | 0x11 => match r.operands with
    | [.header hdr] => .ok (.hdrEncode hdr)
    | _ => .error .illTypedOperands
  | 0x12 => match r.operands with
    | [.u16 len, .u8 sequence] => .ok (.hdrRecompute len sequence)
    | _ => .error .illTypedOperands
  | 0x20 => match r.operands with
    | [.u16 tag, .bytes bytes, .u16 declared] => .ok (.payDecode tag bytes declared)
    | _ => .error .illTypedOperands
  | 0x21 => match r.operands with
    | [.variant v] => .ok (.payEncode v)
    | _ => .error .illTypedOperands
  | 0x22 => match r.operands with
    | [.bytes bytes, .u32 bitpos, .u8 width] => .ok (.bitsUnpack bytes bitpos width)
    | _ => .error .illTypedOperands
  | 0x23 => match r.operands with
    | [.fields fields] => .ok (.bitsPack fields)
    | _ => .error .illTypedOperands
  | 0x30 => match r.operands with
    | [.u8 sequence, .variant payload] => .ok (.frameBuild sequence payload)
    | _ => .error .illTypedOperands
  | 0x31 => match r.operands with
    | [.frame frame] => .ok (.frameEncode frame)
    | _ => .error .illTypedOperands
  | 0x32 => match r.operands with
    | [.bytes bytes] => .ok (.frameDecode bytes)
    | _ => .error .illTypedOperands
  | 0x33 => match r.operands with
    | [.bytes bytes] => .ok (.tailCheck bytes)
    | _ => .error .illTypedOperands
  | 0x40 => match r.operands with
    | [.variant rid] => .ok (.ixDispatch rid)
    | _ => .error .illTypedOperands
  | _ => .error .unassignedOp

/-- The request record of an operation (R66): its `op` byte and its operands in order. -/
def encode : Instr → Request
  | .crc8 data => ⟨0x01, [.bytes data]⟩
  | .crc16 data => ⟨0x02, [.bytes data]⟩
  | .hdrDecode bytes => ⟨0x10, [.bytes bytes]⟩
  | .hdrEncode hdr => ⟨0x11, [.header hdr]⟩
  | .hdrRecompute len sequence => ⟨0x12, [.u16 len, .u8 sequence]⟩
  | .payDecode tag bytes declared => ⟨0x20, [.u16 tag, .bytes bytes, .u16 declared]⟩
  | .payEncode v => ⟨0x21, [.variant v]⟩
  | .bitsUnpack bytes bitpos width => ⟨0x22, [.bytes bytes, .u32 bitpos, .u8 width]⟩
  | .bitsPack fields => ⟨0x23, [.fields fields]⟩
  | .frameBuild sequence payload => ⟨0x30, [.u8 sequence, .variant payload]⟩
  | .frameEncode frame => ⟨0x31, [.frame frame]⟩
  | .frameDecode bytes => ⟨0x32, [.bytes bytes]⟩
  | .tailCheck bytes => ⟨0x33, [.bytes bytes]⟩
  | .ixDispatch rid => ⟨0x40, [.variant rid]⟩

/-- The fourteen assigned codes (R66). -/
def assignedOps : List (BitVec 8) :=
  [0x01, 0x02, 0x10, 0x11, 0x12, 0x20, 0x21, 0x22, 0x23, 0x30, 0x31, 0x32, 0x33, 0x40]

/-- The request whose bits are `w`, the operation's own bits numbered from the least significant bit of
the selector byte, and whose operands are all zero or empty: the operand record has no bits in the opcode
table (DESIGN CHOICE, safe: log 6). -/
def requestOfWord (nbits w : Nat) : Request :=
  let op := BitVec.ofNat 8 (w % 2 ^ nbits)
  let noVariant : Variant := ⟨0, []⟩
  let header : FrameHeader := ⟨0, 0, 0⟩
  ⟨op, match op.toNat with
    | 0x01 => [.bytes []]
    | 0x02 => [.bytes []]
    | 0x10 => [.bytes []]
    | 0x11 => [.header header]
    | 0x12 => [.u16 0, .u8 0]
    | 0x20 => [.u16 0, .bytes [], .u16 0]
    | 0x21 => [.variant noVariant]
    | 0x22 => [.bytes [], .u32 0, .u8 0]
    | 0x23 => [.fields []]
    | 0x30 => [.u8 0, .variant noVariant]
    | 0x31 => [.frame ⟨header, noVariant, 0⟩]
    | 0x32 => [.bytes []]
    | 0x33 => [.bytes []]
    | 0x40 => [.variant noVariant]
    | _ => []⟩

/-- The operation the decoder reads from a selector whose bits are `w`, with zero operands. -/
def decodeTableWord (nbits w : Nat) : Option Instr :=
  match decode (requestOfWord nbits w) with
  | .ok i => some i
  | .error _ => none

end Sys2Proof
end

