-- ==== Sys2Proof/WellFormed.lean ====
section
/-! DEFINITION. When a configuration is legal, and the checked configuration that an instance of the block
is created with (`30_encoding.md` rules R57, R62, R63; `70_reset_and_hazards.md` rule R153). Every term of
`Instr` is well-formed: its operands carry their widths in their types. -/

namespace Sys2Proof

/-- The seven conditions of `30_encoding.md` rule R63. Items 3 and the second half of 6 hold by the form of
`Config` (DEDUCED, safe: log 7). -/
def Config.wellFormed (c : Config) : Bool :=
  c.oneLayoutPerTag && c.hasGameStatus && c.layoutsOk && c.figureOk && c.layerDeleteOk && c.enumsOk
    && c.subtagsOk

/-- The configuration is one the spec allows: R63, and the facts of `00_scope.md` rules R7 and R14 and of
R62 that bind every configuration. -/
def Config.legal (c : Config) : Bool :=
  c.wellFormed && c.r2rOrdered && c.namesEnums && c.hasKnownVariants

/-- A configuration with the proof that it is legal (R153: "a parameter together with a proof of those
conditions"). No machine is built for any other (R63). -/
structure CheckedConfig where
  config : Config
  legal : config.legal = true
  deriving DecidableEq, Repr

end Sys2Proof
end

