-- ==== Sys2Proof/Machine/SampleConfig.lean ====
section
/-! DEFINITION. The spec's one well-formed sample configuration, TC1 (`95_test_vectors.md` section 2). It is
"the spec's own choice for testing and is not a claim about the protocol" (`92_eei_decisions.md`). The model
takes it as the configuration of its reset state (DESIGN CHOICE, unsafe: log 1). -/

namespace Sys2Proof.Machine

/-- `GameStatus`, tag 0x0001, 11 bytes (section 2.1). -/
def tc1GameStatus : List (FieldName × Item) :=
  [("gs", .plain (.leaf (.bits [("game_type", .eb .gameType 4), ("game_progress", .eb .gameProgress 4)]))),
   ("stage_remain_time", .plain (.leaf (.u 2))),
   ("sync_time", .plain (.leaf (.u 8)))]

/-- `SimulateControl`, tag 0x0306, 8 bytes (section 2.1). -/
def tc1SimulateControl : List (FieldName × Item) :=
  [("key_value", .plain (.leaf (.u 2))),
   ("m", .plain (.leaf (.bits
     [("x_position", .ub 12), ("mouse_left", .ub 4), ("y_position", .ub 12), ("mouse_right", .ub 4)]))),
   ("reserved", .plain (.rsv 2))]

/-- `MapPathData`, tag 0x0307, 105 bytes (section 2.1). -/
def tc1MapPathData : List (FieldName × Item) :=
  [("intention", .plain (.leaf (.u 1))),
   ("start_x", .plain (.leaf (.u 2))),
   ("start_y", .plain (.leaf (.u 2))),
   ("delta_x", .plain (.arr (.i 1) 49)),
   ("delta_y", .plain (.arr (.i 1) 49)),
   ("sender_id", .plain (.leaf (.u 2)))]

/-- `robot-custom-data`, tag 0x0309, 30 bytes (section 2.1). -/
def tc1CustomData : List (FieldName × Item) :=
  [("data", .plain (.arr (.u 1) 30))]

/-- The enumerations of section 2.2. -/
def tc1Enums : List (EnumName × EnumDef) :=
  [(.gameType, ⟨4, [1, 2, 3, 4, 5]⟩),
   (.gameProgress, ⟨4, [0, 1, 2, 3, 4, 5]⟩),
   (.endpointId, ⟨16, [0x0001, 0x0007, 0x0101, 0x0107]⟩),
   (.layerDeleteType, ⟨8, [0, 1, 2]⟩),
   (.figureOperateType, ⟨3, [0, 1, 2, 3]⟩),
   (.figureType, ⟨3, [0, 1, 2, 3, 4, 5, 6, 7]⟩),
   (.figureColor, ⟨4, [0, 1, 2, 3, 4, 5, 6, 7, 8]⟩),
   (.robotID, ⟨8, [0]⟩),
   (.gameResult, ⟨8, [0]⟩),
   (.refereeWarningLevel, ⟨8, [0]⟩),
   (.occupyType, ⟨8, [0]⟩),
   (.dartTarget, ⟨8, [0]⟩),
   (.dartSelectionTarget, ⟨8, [0]⟩),
   (.hpDeductionReason, ⟨8, [0]⟩),
   (.bulletType, ⟨8, [0]⟩),
   (.shooterNumber, ⟨8, [0]⟩)]

/-- `FIGURE_LAYOUT` of section 2.3, 15 bytes. -/
def tc1Figure : List (FieldName × PlainItem) :=
  [("figure_name", .arr (.u 1) 3),
   ("c1", .leaf (.bits
     [("operate_type", .eb .figureOperateType 3), ("figure_type", .eb .figureType 3), ("layer", .ub 4),
      ("color", .eb .figureColor 4), ("details_a", .ub 9), ("details_b", .ub 9)])),
   ("c2", .leaf (.bits [("width", .ub 10), ("start_x", .ub 11), ("start_y", .ub 11)])),
   ("c3", .leaf (.bits [("details_c", .ub 10), ("details_d", .ub 11), ("details_e", .ub 11)]))]

/-- `LAYER_DELETE_LAYOUT` of section 2.3, 2 bytes. -/
def tc1LayerDelete : List (FieldName × PlainItem) :=
  [("delete_type", .leaf (.enum .layerDeleteType 1)), ("layer", .leaf (.u 1))]

/-- The test configuration TC1. -/
def tc1 : Config where
  tagRid := 0x0301
  layouts :=
    [(0x0001, tc1GameStatus), (0x0306, tc1SimulateControl), (0x0307, tc1MapPathData), (0x0309, tc1CustomData)]
  enums := tc1Enums
  ixSubtags :=
    { layerDelete := 0x0100, figure1 := 0x0101, figure2 := 0x0102, figure5 := 0x0103, figure7 := 0x0104,
      customChar := 0x0110 }
  ixR2rLo := 0x0200
  ixR2rHi := 0x02FF
  figureLayout := tc1Figure
  layerDeleteLayout := tc1LayerDelete

/-- TC1 meets every condition on a configuration. -/
theorem tc1_legal : tc1.legal = true := by decide +kernel

/-- TC1 as a checked configuration. -/
def sampleConfig : CheckedConfig := ⟨tc1, tc1_legal⟩

end Sys2Proof.Machine
end

