-- ==== Sys2Proof/Machine/State.lean ====
section
/-! DEFINITION. The state of the block: its configuration, its request register and its response register
(`10_state.md` sections 3 and 5, `70_reset_and_hazards.md` rule R151). The hard-wired registers are constants
of Config.lean (R152); accumulators and cursors exist only inside a request (R26, R27, R151; DEDUCED, safe:
log 15). -/

namespace Sys2Proof.Machine

/-! ## Responses -/

/-- The eleven assigned status values (`60_exceptions.md` rule R136; `10_state.md` rule R23: "a closed
enumeration of 11 constructors"). Their codes are `Status.code`. -/
inductive Status
  | ok
  | badMagic
  | badChecksum
  | badFrameChecksum
  | unknownCommand
  | truncatedPayload
  | trailingBytes
  | lengthUnderflow
  | invalidEnumValue
  | contractViolation
  | illegalOperation
  deriving DecidableEq, Repr

/-- One step of a field path (`42_payload.md` rule R112). -/
inductive PathStep
  | name (n : FieldName)
  | index (j : Nat)
  deriving DecidableEq, Repr

/-- A field path, from the layout to the failing item (R112). -/
abbrev FieldPath := List PathStep

/-- The `info` of a response (`10_state.md` rule R24). -/
inductive Info
  /-- `{tag}`, of `UnknownCommand`. -/
  | tag (tag : U16)
  /-- `{field, raw}`, of `InvalidEnumValue`. -/
  | enumValue (field : FieldPath) (raw : U32)
  deriving DecidableEq, Repr

/-- The result record of an operation (`30_encoding.md` rule R66, column "result on OK"). -/
inductive Result
  /-- `crc: u8`, of CRC8. -/
  | crc8 (crc : U8)
  /-- `crc: u16`, of CRC16. -/
  | crc16 (crc : U16)
  /-- `FrameHeader`, of HDR_DECODE and HDR_RECOMPUTE. -/
  | header (h : FrameHeader)
  /-- `Bytes`, of HDR_ENCODE, PAY_ENCODE, BITS_PACK and FRAME_ENCODE. -/
  | bytes (b : Bytes)
  /-- `Variant`, of PAY_DECODE. -/
  | variant (v : Variant)
  /-- `value: u32`, of BITS_UNPACK. -/
  | value (v : U32)
  /-- `Frame`, of FRAME_BUILD. -/
  | frame (f : Frame)
  /-- `Frame, consumed: u32`, of FRAME_DECODE. -/
  | decoded (f : Frame) (consumed : U32)
  /-- `tail: u16`, of TAIL_CHECK. -/
  | tail (t : U16)
  /-- `Interaction`, of IX_DISPATCH. -/
  | interaction (x : Interaction)
  deriving DecidableEq, Repr

/-- The response record (`10_state.md` rule R22). A missing `info` or `result` is absent (R24, R25). -/
structure Response where
  status : Status
  info : Option Info
  result : Option Result
  deriving DecidableEq, Repr

/-- `E(info)` of `raise E(info)`: the ten errors with what each carries (`60_exceptions.md` rules R136,
R137). -/
inductive Error
  | badMagic
  | badChecksum
  | badFrameChecksum
  | unknownCommand (tag : U16)
  | truncatedPayload
  | trailingBytes
  | lengthUnderflow
  | invalidEnumValue (field : FieldPath) (raw : U32)
  | contractViolation
  | illegalOperation
  deriving DecidableEq, Repr

/-! ## Stops -/

/-- Faults: reads of a value that does not exist. The host's reads raise them; no step of the block does. -/
inductive Fault
  /-- The response register is read before the first response (`70_reset_and_hazards.md` rule R151,
  `93_implementation_defined.md` I11: "a fault, never a value"). Raised by `State.readResponse`. Safe (log 10). -/
  | noResponse
  /-- The result of an error response is read (`10_state.md` rule R25, `93_implementation_defined.md`
  I10). Raised by `Response.readResult`. Safe (log 10). -/
  | noResult
  deriving DecidableEq, Repr

/-- Refusals. -/
inductive Refusal
  /-- An operation whose meaning is not written. No arm of `exec` raises it. Safe. -/
  | notModelled (mnemonic : String)
  /-- The request register holds an assigned `op` with an operand record that is not of the type
  `30_encoding.md` rule R66 names; the interface has no such request (R65). Raised by `step`. Safe (log 5). -/
  | illTypedOperands (op : BitVec 8)
  deriving DecidableEq, Repr

/-! ## The state -/

/-- Everything the block holds (`70_reset_and_hazards.md` rule R151). -/
structure State where
  /-- The configuration the instance was created with, with the proof of R153. No request writes it (R18). -/
  config : CheckedConfig
  /-- The request register; `none` is empty: no request pending. -/
  request : Option Request
  /-- The response register; `none` is empty: no response yet. -/
  response : Option Response
  deriving DecidableEq, Repr

/-- An instance of the block right after creation or reset (R151): its registers empty, its configuration
as given. -/
def State.resetWith (c : CheckedConfig) : State where
  config := c
  request := none
  response := none

/-- The block right after reset (R151). The configuration is "the values given to the instance", an OPEN
parameter: here the spec's sample TC1 (DESIGN CHOICE, unsafe: log 1). -/
def State.reset : State := .resetWith sampleConfig

end Sys2Proof.Machine
end

