-- ==== Sys2Proof/Machine/Flags.lean ====
section
/-! DEFINITION. The block has no flags and no condition codes: "Only the response `status` reports an
operation's outcome" (`10_state.md` rule R33). This file holds all of that status: its codes and names, and which
`info` and `result` go with it (`60_exceptions.md` rule R136; `10_state.md` rules R22 to R25). -/

namespace Sys2Proof.Machine

/-- The source's error taxonomy in the order of the codes, each with its name (`60_exceptions.md` rule R136,
rows 1 to 8). -/
def sourceErrors : List (Status × String) :=
  [(.badMagic, "BadMagic"), (.badChecksum, "BadChecksum"), (.badFrameChecksum, "BadFrameChecksum"),
   (.unknownCommand, "UnknownCommand"), (.truncatedPayload, "TruncatedPayload"),
   (.trailingBytes, "TrailingBytes"), (.lengthUnderflow, "LengthUnderflow"),
   (.invalidEnumValue, "InvalidEnumValue")]

/-- The table of `60_exceptions.md` rule R136: its rows stand in the order of their codes, from 0. The last two
are "the spec's own". -/
def statusTable : List (Status × String) :=
  (.ok, "OK") :: sourceErrors
    ++ [(.contractViolation, "ContractViolation"), (.illegalOperation, "IllegalOperation")]

/-- The numeric status code: the number of the status's row (R136). -/
def Status.code (s : Status) : BitVec 8 :=
  BitVec.ofNat 8 (statusTable.findIdx fun row => row.1 == s)

/-- The name of the status in its row (R136). Every status has one. -/
def Status.text (s : Status) : String := (statusTable.lookup s).getD ""

/-- The status an error reports (R136). -/
def Error.status : Error → Status
  | .badMagic => .badMagic
  | .badChecksum => .badChecksum
  | .badFrameChecksum => .badFrameChecksum
  | .unknownCommand _ => .unknownCommand
  | .truncatedPayload => .truncatedPayload
  | .trailingBytes => .trailingBytes
  | .lengthUnderflow => .lengthUnderflow
  | .invalidEnumValue _ _ => .invalidEnumValue
  | .contractViolation => .contractViolation
  | .illegalOperation => .illegalOperation

/-- The info an error carries (`10_state.md` rule R24). -/
def Error.info : Error → Option Info
  | .unknownCommand tag => some (.tag tag)
  | .invalidEnumValue field raw => some (.enumValue field raw)
  | _ => none

/-- `return r`: status OK and the result (`00_scope.md` rule R10). -/
def Response.ok (r : Result) : Response where
  status := .ok
  info := none
  result := some r

/-- The response of `raise E(info)`: the error's status and info, the result absent
(`60_exceptions.md` rule R137). -/
def Response.error (e : Error) : Response where
  status := e.status
  info := e.info
  result := none

/-- Which info goes with a status (`10_state.md` rule R24). -/
def infoFits : Status → Option Info → Bool
  | .unknownCommand, some (.tag _) => true
  | .invalidEnumValue, some (.enumValue _ _) => true
  | .unknownCommand, _ => false
  | .invalidEnumValue, _ => false
  | _, none => true
  | _, some _ => false

/-- A response as R22 to R25 allow it: a result exactly when the status is OK, and the info of R24. -/
def Response.wellFormed (r : Response) : Bool :=
  (r.result.isSome == decide (r.status = .ok)) && infoFits r.status r.info

end Sys2Proof.Machine
end

