-- ==== Sys2Proof/Machine/Ops.lean ====
section
/-! DEFINITION. The named operations every meaning is written over: ending a request with a result or with
an error, the host's acts on the two registers, the byte primitives (`00_scope.md` rule R10) and the bit
cursor (`42_payload.md` rules R91, R96, R97). -/

namespace Sys2Proof.Machine

/-! ## Ending a request -/

/-- A request ends when its response is produced: the response register holds it, and the block is ready
for the next request (`70_reset_and_hazards.md` rule R162). Nothing else changes (`20_memory.md` R43). What the
response register shows until the next response is DEDUCED (log 4). -/
def State.respond (s : State) (r : Response) : State :=
  { s with request := none, response := some r }

/-- Taking an exception: `raise E(info)` (`60_exceptions.md` rule R137). The request ends with the error's
status and info and no result. Nothing is saved, so there is no return from it (R149). -/
def State.raise (s : State) (e : Error) : Host.Outcome State Fault Refusal :=
  .next (s.respond (Response.error e))

/-- The end of an operation's pseudocode: `return r`, or `raise E(info)`. -/
def State.complete (s : State) : Except Error Result → Host.Outcome State Fault Refusal
  | .ok r => .next (s.respond (Response.ok r))
  | .error e => s.raise e

/-! ## What the host does between steps -/

/-- The host issues a request. The block accepts one at a time and none is cancelled (`10_state.md` rule
R21): `none` while another is pending (DEDUCED, safe: log 18). -/
def State.submit (s : State) (r : Request) : Option State :=
  match s.request with
  | none => some { s with request := some r }
  | some _ => none

/-- Reading the response register: a fault before the first response (`70_reset_and_hazards.md` R151). -/
def State.readResponse (s : State) : Except Fault Response :=
  match s.response with
  | some r => .ok r
  | none => .error .noResponse

/-- Reading the result of a response: a fault when it is absent (`10_state.md` rule R25). -/
def Response.readResult (r : Response) : Except Fault Result :=
  match r.result with
  | some x => .ok x
  | none => .error .noResult

/-- A later reset: the same values as at power-on, the configuration unchanged; a pending request is
discarded and gets no response (`70_reset_and_hazards.md` rules R151, R155; DEDUCED, safe: log 11). -/
def State.afterReset (s : State) : State :=
  .resetWith s.config

/-- The constant registers of `10_state.md` section 2, with the sizes of R20. -/
structure ConstantRegisters where
  crc8Cfg : CrcConfig 8
  crc16Cfg : CrcConfig 16
  magic : Byte
  hdrLen : Nat
  tagLen : Nat
  tailLen : Nat
  frameOverhead : Nat
  ridPrefixLen : Nat
  subtagSentry : U16
  subtagRadar : U16
  deriving DecidableEq, Repr

/-- Reading the constant registers in a state: hard-wired, so the same in every state, and without a write
port (`10_state.md` section 2, `70_reset_and_hazards.md` rule R152). -/
def State.constants (_ : State) : ConstantRegisters where
  crc8Cfg := crc8Cfg
  crc16Cfg := crc16Cfg
  magic := magic
  hdrLen := hdrLen
  tagLen := tagLen
  tailLen := tailLen
  frameOverhead := frameOverhead
  ridPrefixLen := ridPrefixLen
  subtagSentry := subtagSentry
  subtagRadar := subtagRadar

/-! ## Byte primitives (`00_scope.md` rules R9, R10) -/

/-- `lo8(v)`. -/
def lo8 (v : U16) : Byte := v.setWidth 8

/-- `hi8(v)`. -/
def hi8 (v : U16) : Byte := (v >>> 8).setWidth 8

/-- `b[off..off+n)`. -/
def slice (b : Bytes) (off n : Nat) : Bytes := (b.drop off).take n

/-- The unsigned little-endian value of a byte sequence (`20_memory.md` rule R35). -/
def littleEndian : Bytes → Nat
  | [] => 0
  | x :: xs => x.toNat + 256 * littleEndian xs

/-- `MemRead(b, off, n)`. Used only where `off + n <= len(b)`. -/
def memRead (b : Bytes) (off n : Nat) : Nat := littleEndian (slice b off n)

/-- The bytes `MemWrite(out, n, v)` appends: n bytes, least significant first. -/
def memWrite : Nat → Nat → Bytes
  | 0, _ => []
  | n + 1, v => BitVec.ofNat 8 v :: memWrite n (v / 256)

/-- The two's-complement reading of the n-byte raw value r (`30_encoding.md` rule R55). -/
def signedOf (n r : Nat) : Int :=
  if r < 2 ^ (8 * n - 1) then r else (r : Int) - 2 ^ (8 * n)

/-- The n-byte two's-complement raw value of v: `v mod 2^(8n)` (`42_payload.md` rule R108). -/
def rawOfSigned (n : Nat) (v : Int) : Nat := (v % 2 ^ (8 * n)).toNat

/-- `need(b, pos, n)` (`42_payload.md` rule R93). -/
def need (b : Bytes) (pos n : Nat) : Except Error Unit :=
  if b.length < pos + n then .error .truncatedPayload else .ok ()

/-! ## The bit cursor (`42_payload.md` section 1) -/

/-- Bit q of a byte sequence: bit `7 - (q mod 8)` of byte `q div 8`, so that bit 0 is the MSB of the first
byte (R91). Used only where `q < 8 * len(g)`. -/
def bitAt (g : Bytes) (q : Nat) : Bool := (g.getD (q / 8) 0).getMsbD (q % 8)

/-- `GetBits(g, p, w)`: the w-bit field at bit p, its MSB first (R96). -/
def getBits (g : Bytes) (p : Nat) : Nat → Nat
  | 0 => 0
  | w + 1 => 2 * getBits g p w + (bitAt g (p + w)).toNat

/-- The bits `PutBits(bs, w, v)` appends: the w bits of v, MSB first (R97). -/
def putBits (w v : Nat) : List Bool := (List.range w).map fun i => v.testBit (w - 1 - i)

/-- One byte of `BitsToBytes`: the first of its eight bits is the MSB; bits past the end are the zero
padding (R97). -/
def byteOfBits (bs : List Bool) (n : Nat) : Byte :=
  BitVec.ofNat 8 ((List.range 8).foldl (fun v j => 2 * v + (bs.getD (8 * n + j) false).toNat) 0)

/-- `BitsToBytes(bs)` (R97). -/
def bitsToBytes (bs : List Bool) : Bytes :=
  (List.range ((bs.length + 7) / 8)).map (byteOfBits bs)

end Sys2Proof.Machine
end

