-- ==== Sys2Proof/Machine/Operands.lean ====
section
/-! DEFINITION. The operand forms that need a check: the value shapes of `30_encoding.md` rule R64, the
well-formed variants of `42_payload.md` rule R107, and the input of IX_DISPATCH (`44_interaction.md` rule
R123). Every other operand has its range in its type (R66). -/

namespace Sys2Proof.Machine

/-- `0 <= v < 2^n`. -/
def inUnsigned (n : Nat) (v : Int) : Bool := decide (0 ≤ v) && decide (v < 2 ^ n)

/-- `-2^(n-1) <= v < 2^(n-1)`. -/
def inSigned (n : Nat) (v : Int) : Bool := decide (-(2 ^ (n - 1)) ≤ v) && decide (v < 2 ^ (n - 1))

/-- The values of a group have the shape of its non-reserved bit items, in order (R64). -/
def fitsBits (c : Config) : List (FieldName × BitItem) → List BitValue → Bool
  | [], [] => true
  | (_, .rb _) :: gs, vs => fitsBits c gs vs
  | (_, .ub w) :: gs, .int v :: vs => inUnsigned w v && fitsBits c gs vs
  | (_, .eb e _) :: gs, .enum e' raw :: vs => e' == e && c.enumLegal e raw && fitsBits c gs vs
  | _, _ => false

/-- The value has the shape of a leaf item (R64). -/
def fitsLeaf (c : Config) : LeafItem → LeafValue → Bool
  | .u k, .int v => inUnsigned (8 * k) v
  | .i k, .int v => inSigned (8 * k) v
  | .enum e _, .enum e' raw => e' == e && c.enumLegal e raw
  | .bits gs, .group vs => fitsBits c gs vs
  | _, _ => false

/-- The value, absent for a reserved item, has the shape of a plain item (R64). -/
def fitsPlain (c : Config) : PlainItem → Option PlainValue → Bool
  | .leaf it, some (.leaf v) => fitsLeaf c it v
  | .rsv _, none => true
  | .arr e n, some (.list xs) => decide (xs.length = n) && xs.all (fitsLeaf c e)
  | _, _ => false

/-- A plain item has no value (R64). -/
def plainReserved : PlainItem → Bool
  | .rsv _ => true
  | _ => false

/-- An item has no value (R64). -/
def itemReserved : Item → Bool
  | .plain it => plainReserved it
  | _ => false

/-- One value for each non-reserved item, in order, and none left over (R64). -/
def fitsItems {ι α : Type} (reserved : ι → Bool) (fits : ι → Option α → Bool) :
    List (FieldName × ι) → List α → Bool
  | [], [] => true
  | [], _ :: _ => false
  | (_, it) :: items, vs =>
    if reserved it then fits it none && fitsItems reserved fits items vs
    else match vs with
      | [] => false
      | v :: vs => fits it (some v) && fitsItems reserved fits items vs

/-- The values of one figure record (R64). -/
def fitsFigure (c : Config) (vs : Fig) : Bool :=
  fitsItems plainReserved (fitsPlain c) c.figureLayout vs

/-- The value, absent for a reserved item, has the shape of an item (R64). -/
def fitsItem (c : Config) : Item → Option Value → Bool
  | .plain it, none => fitsPlain c it none
  | .plain it, some (.plain v) => fitsPlain c it (some v)
  | .figure, some (.record vs) => fitsFigure c vs
  | .figures n, some (.records xs) => decide (xs.length = n) && xs.all (fitsFigure c)
  | _, _ => false

/-- `v.values` has the shape of `LAYOUTS[v.tag]`; for RID the payload length also fits the header's u16
(`42_payload.md` rule R107). -/
def fitsLayout (c : Config) : Layout → List Value → Bool
  | .fixed items, vs => fitsItems itemReserved (fitsItem c) items vs
  | .rid, [subtag, sender, receiver, .bytes data] =>
    fitsItems itemReserved (fitsItem c) ridItems [subtag, sender, receiver]
      && decide (ridPrefixLen + data.length ≤ maxPayloadLength)
  | .rid, _ => false

/-- `WellFormed(v)` (`42_payload.md` rule R107). -/
def variantOk (c : Config) (v : Variant) : Bool :=
  match c.layoutOf v.tag with
  | some layout => fitsLayout c layout v.values
  | none => false

/-- What IX_DISPATCH reads of a well-formed RID variant: its sub-tag and its data
(`44_interaction.md` rule R123). `none` for any other input. -/
def ridOperands (c : Config) (v : Variant) : Option (U16 × Bytes) :=
  if v.tag = c.tagRid ∧ variantOk c v = true then
    match v.values with
    | [.plain (.leaf (.int subtag)), _, _, .bytes data] => some (BitVec.ofInt 16 subtag, data)
    | _ => none
  else none

end Sys2Proof.Machine
end

