-- ==== Sys2Proof/Machine/Crc.lean ====
section
/-! DEFINITION. The checksum engines and the operations CRC8 and CRC16 (`40_crc.md`). One engine, a routine
over a configuration record (`10_state.md` rule R18), serves both; the accumulator is its fold's value,
loaded with INIT at the start of every computation (R26). -/

namespace Sys2Proof.Machine

/-- One turn of the inner loop of R75 and R77: shift towards the MSB, and XOR the polynomial when a 1 leaves. -/
def crcBit {w : Nat} (cfg : CrcConfig w) (acc : BitVec w) : BitVec w :=
  if acc.msb then (acc <<< 1) ^^^ cfg.poly else acc <<< 1

/-- The eight turns for one byte. -/
def crcShift8 {w : Nat} (cfg : CrcConfig w) (acc : BitVec w) : BitVec w :=
  Nat.repeat (crcBit cfg) 8 acc

/-- A byte as it enters the engine: reflected when REFIN is 1 (it is 0 in both configurations, R17, R19),
in the top 8 bits (`20_memory.md` rule R38). The reflection is PRESUMED and never reached (safe: log 12). -/
def crcInput {w : Nat} (cfg : CrcConfig w) (b : Byte) : BitVec w :=
  (if cfg.refin then b.reverse else b).setWidth w <<< (w - 8)

/-- The accumulator after one byte. -/
def crcByte {w : Nat} (cfg : CrcConfig w) (acc : BitVec w) (b : Byte) : BitVec w :=
  crcShift8 cfg (acc ^^^ crcInput cfg b)

/-- The final register: reflected when REFOUT is 1 (it is 0 in both configurations), then XORed with
XOROUT. -/
def crcFinish {w : Nat} (cfg : CrcConfig w) (acc : BitVec w) : BitVec w :=
  (if cfg.refout then acc.reverse else acc) ^^^ cfg.xorout

/-- The CRC of a byte sequence, bytes in index order. -/
def crcOf {w : Nat} (cfg : CrcConfig w) (d : Bytes) : BitVec w :=
  crcFinish cfg (d.foldl (crcByte cfg) cfg.init)

/-- `CRC8(d)` (R75). -/
def crc8 (d : Bytes) : U8 := crcOf crc8Cfg d

/-- `CRC16(d)` (R77). -/
def crc16 (d : Bytes) : U16 := crcOf crc16Cfg d

/-- `T8[x]`: the inner loop's result for `c8 = x` (R75). -/
def crc8Table (x : Byte) : U8 := crcShift8 crc8Cfg x

/-- `T16[x]`: the inner loop's result for `c16 = x << 8` (R77). -/
def crc16Table (x : Byte) : U16 := crcShift8 crc16Cfg (x.setWidth 16 <<< 8)

/-- The table-driven CRC-8 an implementation may use (R75). -/
def crc8ByTable (d : Bytes) : U8 :=
  d.foldl (fun c8 b => crc8Table (c8 ^^^ b)) 0xFF

/-- The table-driven CRC-16 an implementation may use (R77). -/
def crc16ByTable (d : Bytes) : U16 :=
  d.foldl (fun c16 b => (c16 <<< 8) ^^^ crc16Table (hi8 c16 ^^^ b)) 0xFFFF

/-- `CRC8`, op 0x01 (R76). -/
def execCrc8 (data : Bytes) (s : State) : Host.Outcome State Fault Refusal :=
  s.complete (.ok (.crc8 (crc8 data)))

/-- `CRC16`, op 0x02 (R78). -/
def execCrc16 (data : Bytes) (s : State) : Host.Outcome State Fault Refusal :=
  s.complete (.ok (.crc16 (crc16 data)))

end Sys2Proof.Machine
end

