-- ==== Sys2Proof/Machine/Header.lean ====
section
/-! DEFINITION. The frame-header codec and validator, and the operations HDR_DECODE, HDR_ENCODE and
HDR_RECOMPUTE (`41_header.md`). -/

namespace Sys2Proof.Machine

/-- The header CRC: over magic, length low byte, length high byte and sequence, in that order
(`30_encoding.md` rule R49). -/
def headerCrc (payloadLength : U16) (sequence : U8) : U8 :=
  crc8 [magic, lo8 payloadLength, hi8 payloadLength, sequence]

/-- `HDR_DECODE(bytes)` (R83): the gates of R86 in order, then the three fields. -/
def headerDecode (bytes : Bytes) : Except Error FrameHeader :=
  if bytes.length < hdrLen then .error .truncatedPayload
  else if bytes.getD 0 0 ≠ magic then .error .badMagic
  else if bytes.getD 4 0 ≠ crc8 (slice bytes 0 4) then .error .badChecksum
  else .ok
    { payloadLength := BitVec.ofNat 16 (memRead bytes 1 2)
      sequence := bytes.getD 3 0
      crc8 := bytes.getD 4 0 }

/-- `HdrBytes(h)` (R87): the record's `crc8` is written as held. -/
def headerBytes (h : FrameHeader) : Bytes :=
  memWrite 1 magic.toNat ++ memWrite 2 h.payloadLength.toNat ++ memWrite 1 h.sequence.toNat
    ++ memWrite 1 h.crc8.toNat

/-- `HDR_RECOMPUTE(payload_length, sequence)` (R88). -/
def headerRecompute (payloadLength : U16) (sequence : U8) : FrameHeader where
  payloadLength := payloadLength
  sequence := sequence
  crc8 := headerCrc payloadLength sequence

/-- `HDR_DECODE`, op 0x10 (R83). -/
def execHdrDecode (bytes : Bytes) (s : State) : Host.Outcome State Fault Refusal :=
  s.complete ((headerDecode bytes).map .header)

/-- `HDR_ENCODE`, op 0x11 (R87). -/
def execHdrEncode (hdr : FrameHeader) (s : State) : Host.Outcome State Fault Refusal :=
  s.complete (.ok (.bytes (headerBytes hdr)))

/-- `HDR_RECOMPUTE`, op 0x12 (R88). -/
def execHdrRecompute (payloadLength : U16) (sequence : U8) (s : State) : Host.Outcome State Fault Refusal :=
  s.complete (.ok (.header (headerRecompute payloadLength sequence)))

end Sys2Proof.Machine
end

