-- ==== Sys2Proof/Machine/Payload.lean ====
section
/-! DEFINITION. The command payload codec: decoding by items (`42_payload.md` section 2), encoding by items
(section 4), reserved-field normalisation (R111), and the operations PAY_DECODE, PAY_ENCODE, BITS_UNPACK and
BITS_PACK. A decoder takes the byte cursor `pos` and gives the value with the cursor after it (R93). -/

namespace Sys2Proof.Machine

/-! ## Decoding -/

/-- The fields of a group, from bit position `s` of its bytes on (R98). Reserved bits are skipped (R99). -/
def decodeBits (c : Config) (grp : Bytes) (path : FieldPath) :
    List (FieldName × BitItem) → Nat → Except Error (List BitValue)
  | [], _ => .ok []
  | (_, .ub w) :: gs, s =>
    (decodeBits c grp path gs (s + w)).map fun vs => .int (getBits grp s w) :: vs
  | (n, .eb e w) :: gs, s =>
    if c.enumLegal e (getBits grp s w) then
      (decodeBits c grp path gs (s + w)).map fun vs => .enum e (getBits grp s w) :: vs
    else .error (.invalidEnumValue (path ++ [.name n]) (BitVec.ofNat 32 (getBits grp s w)))
  | (_, .rb w) :: gs, s => decodeBits c grp path gs (s + w)

/-- `DecItem` of a leaf item (R94, R95, R98). -/
def decodeLeaf (c : Config) (b : Bytes) : LeafItem → Nat → FieldPath → Except Error (LeafValue × Nat)
  | .u k, pos, _ => do
    need b pos k
    .ok (.int (memRead b pos k), pos + k)
  | .i k, pos, _ => do
    need b pos k
    .ok (.int (signedOf k (memRead b pos k)), pos + k)
  | .enum e k, pos, path => do
    need b pos k
    if c.enumLegal e (memRead b pos k) then .ok (.enum e (memRead b pos k), pos + k)
    else .error (.invalidEnumValue path (BitVec.ofNat 32 (memRead b pos k)))
  | .bits gs, pos, path => do
    need b pos (groupBits gs / 8)
    let vs ← decodeBits c (slice b pos (groupBits gs / 8)) path gs 0
    .ok (.group vs, pos + groupBits gs / 8)

/-- `n` elements from index `j` on, in index order (R100). -/
def decodeArray {α : Type} (dec : Nat → FieldPath → Except Error (α × Nat)) (path : FieldPath) :
    Nat → Nat → Nat → Except Error (List α × Nat)
  | 0, _, pos => .ok ([], pos)
  | n + 1, j, pos => do
    let (x, pos) ← dec pos (path ++ [.index j])
    let (xs, pos) ← decodeArray dec path n (j + 1) pos
    .ok (x :: xs, pos)

/-- `DecItems`: the items in layout order; the first that fails ends the decode; an absent value is not
listed (R93). -/
def decodeItems {ι α : Type} (dec : ι → Nat → FieldPath → Except Error (Option α × Nat)) (path : FieldPath) :
    List (FieldName × ι) → Nat → Except Error (List α × Nat)
  | [], pos => .ok ([], pos)
  | (n, it) :: items, pos => do
    let (v, pos) ← dec it pos (path ++ [.name n])
    let (vs, pos) ← decodeItems dec path items pos
    .ok (v.toList ++ vs, pos)

/-- `DecItem` of a plain item (R94, R95, R98, R99, R100). -/
def decodePlain (c : Config) (b : Bytes) : PlainItem → Nat → FieldPath → Except Error (Option PlainValue × Nat)
  | .leaf it, pos, path => (decodeLeaf c b it pos path).map fun r => (some (.leaf r.1), r.2)
  | .rsv k, pos, _ => (need b pos k).map fun _ => (none, pos + k)
  | .arr e n, pos, path => (decodeArray (decodeLeaf c b e) path n 0 pos).map fun r => (some (.list r.1), r.2)

/-- `DecItem(rec(FIGURE), ...)`: a figure record adds no name of its own to the path (R100, R112). -/
def decodeFigure (c : Config) (b : Bytes) (pos : Nat) (path : FieldPath) : Except Error (Fig × Nat) :=
  decodeItems (decodePlain c b) path c.figureLayout pos

/-- `DecItem` of an item. -/
def decodeItem (c : Config) (b : Bytes) : Item → Nat → FieldPath → Except Error (Option Value × Nat)
  | .plain it, pos, path => (decodePlain c b it pos path).map fun r => (r.1.map .plain, r.2)
  | .figure, pos, path => (decodeFigure c b pos path).map fun r => (some (.record r.1), r.2)
  | .figures n, pos, path =>
    (decodeArray (decodeFigure c b) path n 0 pos).map fun r => (some (.records r.1), r.2)

/-- `DecItems(items, b, 0, [])`. -/
def decodeBody (c : Config) (items : List (FieldName × Item)) (b : Bytes) : Except Error (List Value × Nat) :=
  decodeItems (decodeItem c b) [] items 0

/-- A fixed-size variant: its items, then the length gate (R101). `declared` is not consulted. -/
def decodeFixed (c : Config) (items : List (FieldName × Item)) (tag : U16) (bytes : Bytes) :
    Except Error Variant := do
  let (vals, pos) ← decodeBody c items bytes
  if pos < bytes.length then .error .trailingBytes
  else .ok { tag := tag, values := vals }

/-- `DecRID(bytes, declared)` (R102). -/
def decodeRid (c : Config) (bytes : Bytes) (declared : U16) : Except Error Variant :=
  if declared.toNat < ridPrefixLen then .error .lengthUnderflow
  else do
    let (vals, _) ← decodeBody c ridItems bytes
    let k := declared.toNat - ridPrefixLen
    if bytes.length < ridPrefixLen + k then .error .truncatedPayload
    else if ridPrefixLen + k < bytes.length then .error .trailingBytes
    else .ok { tag := c.tagRid, values := vals ++ [.bytes (slice bytes ridPrefixLen k)] }

/-- `PAY_DECODE(tag, bytes, declared)` (R103). -/
def payloadDecode (c : Config) (tag : U16) (bytes : Bytes) (declared : U16) : Except Error Variant :=
  match c.layoutOf tag with
  | none => .error (.unknownCommand tag)
  | some .rid => decodeRid c bytes declared
  | some (.fixed items) => decodeFixed c items tag bytes

/-! ## Encoding

Each encoder answers `none` where a value has not the shape of its item. `payloadBytes` asks for the shape
first (R107), so a request never sees that `none` (Laws/Payload.lean). -/

/-- The bits of a group (R108). Reserved bits are 0 (R109). -/
def encodeBits : List (FieldName × BitItem) → List BitValue → Option (List Bool)
  | [], [] => some []
  | (_, .rb w) :: gs, vs => (encodeBits gs vs).map (putBits w 0 ++ ·)
  | (_, .ub w) :: gs, .int v :: vs => (encodeBits gs vs).map (putBits w v.toNat ++ ·)
  | (_, .eb _ w) :: gs, .enum _ raw :: vs => (encodeBits gs vs).map (putBits w raw ++ ·)
  | _, _ => none

/-- `EncItem` of a leaf item (R108). -/
def encodeLeaf : LeafItem → LeafValue → Option Bytes
  | .u k, .int v => some (memWrite k v.toNat)
  | .i k, .int v => some (memWrite k (rawOfSigned k v))
  | .enum _ k, .enum _ raw => some (memWrite k raw)
  | .bits gs, .group vs => (encodeBits gs vs).map bitsToBytes
  | _, _ => none

/-- Elements in index order (R108). -/
def encodeArray {α : Type} (enc : α → Option Bytes) : List α → Option Bytes
  | [] => some []
  | x :: xs => do
    let b ← enc x
    let bs ← encodeArray enc xs
    some (b ++ bs)

/-- `EncItems`: a reserved item takes no value (R108). -/
def encodeItems {ι α : Type} (reserved : ι → Bool) (enc : ι → Option α → Option Bytes) :
    List (FieldName × ι) → List α → Option Bytes
  | [], [] => some []
  | [], _ :: _ => none
  | (_, it) :: items, vs =>
    if reserved it then do
      let b ← enc it none
      let bs ← encodeItems reserved enc items vs
      some (b ++ bs)
    else match vs with
      | [] => none
      | v :: vs => do
        let b ← enc it (some v)
        let bs ← encodeItems reserved enc items vs
        some (b ++ bs)

/-- `EncItem` of a plain item; reserved bytes are 0 (R108, R109). -/
def encodePlain : PlainItem → Option PlainValue → Option Bytes
  | .leaf it, some (.leaf v) => encodeLeaf it v
  | .rsv k, none => some (memWrite k 0)
  | .arr e _, some (.list xs) => encodeArray (encodeLeaf e) xs
  | _, _ => none

/-- `EncItem(rec(FIGURE), Rec(vs), out)`. -/
def encodeFigure (c : Config) (vs : Fig) : Option Bytes :=
  encodeItems plainReserved encodePlain c.figureLayout vs

/-- `EncItem` of an item. -/
def encodeItem (c : Config) : Item → Option Value → Option Bytes
  | .plain it, none => encodePlain it none
  | .plain it, some (.plain v) => encodePlain it (some v)
  | .figure, some (.record vs) => encodeFigure c vs
  | .figures _, some (.records xs) => encodeArray (encodeFigure c) xs
  | _, _ => none

/-- The body a layout gives: `EncItems(LAYOUTS[v.tag], v.values, out)`. The `tail` of RID is appended as it
is (R108). -/
def encodeBody (c : Config) : Layout → List Value → Option Bytes
  | .fixed items, vs => encodeItems itemReserved (encodeItem c) items vs
  | .rid, [subtag, sender, receiver, .bytes data] =>
    (encodeItems itemReserved (encodeItem c) ridItems [subtag, sender, receiver]).map (· ++ data)
  | .rid, _ => none

/-- `PayBytes(v)`, or the error of PAY_ENCODE (R106). -/
def payloadBytes (c : Config) (v : Variant) : Except Error Bytes :=
  if variantOk c v then
    match (c.layoutOf v.tag).bind fun layout => encodeBody c layout v.values with
    | some body => .ok (memWrite 2 v.tag.toNat ++ body)
    | none => .error .contractViolation
  else .error .contractViolation

/-! ## Reserved-field normalisation (R111) -/

/-- For each bit of a group: is it kept (not reserved)? -/
def keptBits : List (FieldName × BitItem) → List Bool
  | [] => []
  | (_, .rb w) :: gs => List.replicate w false ++ keptBits gs
  | (_, .ub w) :: gs => List.replicate w true ++ keptBits gs
  | (_, .eb _ w) :: gs => List.replicate w true ++ keptBits gs

/-- For each byte of a leaf item: a mask of its non-reserved bits. -/
def leafMask : LeafItem → Bytes
  | .u k => List.replicate k 0xFF
  | .i k => List.replicate k 0xFF
  | .enum _ k => List.replicate k 0xFF
  | .bits gs => bitsToBytes (keptBits gs)

/-- The mask of a plain item. -/
def plainMask : PlainItem → Bytes
  | .leaf it => leafMask it
  | .rsv k => List.replicate k 0
  | .arr e n => (List.replicate n (leafMask e)).flatten

/-- The mask of one figure record. -/
def figureMask (c : Config) : Bytes := c.figureLayout.flatMap fun it => plainMask it.2

/-- The mask of an item. -/
def itemMask (c : Config) : Item → Bytes
  | .plain it => plainMask it
  | .figure => figureMask c
  | .figures n => (List.replicate n (figureMask c)).flatten

/-- A body with every reserved bit and byte of its layout set to 0 (R111). RID has no reserved field. -/
def clearReserved (c : Config) : Layout → Bytes → Bytes
  | .fixed items, b => List.zipWith (· &&& ·) (items.flatMap fun it => itemMask c it.2) b
  | .rid, b => b

/-! ## The bit-cursor operations -/

/-- `BITS_UNPACK(bytes, bitpos, width)` (R104). -/
def bitsUnpack (bytes : Bytes) (bitpos : U32) (width : U8) : Except Error U32 :=
  if width.toNat < 1 ∨ 32 < width.toNat then .error .contractViolation
  else if 8 * bytes.length < bitpos.toNat + width.toNat then .error .truncatedPayload
  else .ok (BitVec.ofNat 32 (getBits bytes bitpos.toNat width.toNat))

/-- A `(width, value)` pair BITS_PACK takes (R105): the width is 1 to 32 and the value fits it. -/
def packable (f : U8 × U32) : Bool :=
  decide (1 ≤ f.1.toNat) && decide (f.1.toNat ≤ 32) && decide (f.2.toNat < 2 ^ f.1.toNat)

/-- `BITS_PACK(fields)` (R105): the check runs before any output. -/
def bitsPack (fields : List (U8 × U32)) : Except Error Bytes :=
  if fields.all packable then
    .ok (bitsToBytes (fields.flatMap fun f => putBits f.1.toNat f.2.toNat))
  else .error .contractViolation

/-! ## The operations -/

/-- `PAY_DECODE`, op 0x20 (R103). -/
def execPayDecode (tag : U16) (bytes : Bytes) (declared : U16) (s : State) : Host.Outcome State Fault Refusal :=
  s.complete ((payloadDecode s.config.config tag bytes declared).map .variant)

/-- `PAY_ENCODE`, op 0x21 (R106). -/
def execPayEncode (v : Variant) (s : State) : Host.Outcome State Fault Refusal :=
  s.complete ((payloadBytes s.config.config v).map .bytes)

/-- `BITS_UNPACK`, op 0x22 (R104). -/
def execBitsUnpack (bytes : Bytes) (bitpos : U32) (width : U8) (s : State) : Host.Outcome State Fault Refusal :=
  s.complete ((bitsUnpack bytes bitpos width).map .value)

/-- `BITS_PACK`, op 0x23 (R105). -/
def execBitsPack (fields : List (U8 × U32)) (s : State) : Host.Outcome State Fault Refusal :=
  s.complete ((bitsPack fields).map .bytes)

end Sys2Proof.Machine
end

