-- ==== Sys2Proof/Machine/Frame.lean ====
section
/-! DEFINITION. The frame assembler and the CRC-16 frame-tail validator, and the operations FRAME_BUILD,
FRAME_ENCODE, FRAME_DECODE and TAIL_CHECK (`43_frame.md`). -/

namespace Sys2Proof.Machine

/-- The tail of a header and an encoded payload: it covers the header, the tag and the body
(`30_encoding.md` rule R52). -/
def frameCrc (h : FrameHeader) (p : Bytes) : U16 := crc16 (headerBytes h ++ p)

/-- `FRAME_BUILD(sequence, payload)` (R113). The payload length excludes the tag (`30_encoding.md` R51). -/
def frameBuild (c : Config) (sequence : U8) (payload : Variant) : Except Error Frame := do
  let p ← payloadBytes c payload
  let len := p.length - tagLen
  if maxPayloadLength < len then .error .contractViolation
  else
    let h := headerRecompute (BitVec.ofNat 16 len) sequence
    .ok { header := h, payload := payload, tail := frameCrc h p }

/-- `FRAME_ENCODE(frame)`: the three invariants of `10_state.md` rule R31 are checked first (R114). -/
def frameEncode (c : Config) (frame : Frame) : Except Error Bytes := do
  let p ← payloadBytes c frame.payload
  if frame.header.payloadLength.toNat ≠ p.length - tagLen then .error .contractViolation
  else if frame.header.crc8 ≠ headerCrc frame.header.payloadLength frame.header.sequence then
    .error .contractViolation
  else if frame.tail ≠ frameCrc frame.header p then .error .contractViolation
  else .ok (headerBytes frame.header ++ p ++ memWrite tailLen frame.tail.toNat)

/-- `TAIL_CHECK(bytes)`: the CRC-16 gate alone (R115). -/
def tailCheck (bytes : Bytes) : Except Error U16 :=
  if bytes.length < tailLen then .error .truncatedPayload
  else
    let t := BitVec.ofNat 16 (memRead bytes (bytes.length - tailLen) tailLen)
    if crc16 (slice bytes 0 (bytes.length - tailLen)) ≠ t then .error .badFrameChecksum
    else .ok t

/-- `FRAME_DECODE(bytes)`: the four gates in source order (R116, R117); the body is sliced by the `L` of
the validated header, and bytes from `L + 9` on are not read (R118). -/
def frameDecode (c : Config) (bytes : Bytes) : Except Error (Frame × U32) := do
  let h ← headerDecode bytes
  let len := h.payloadLength.toNat
  if bytes.length < len + frameOverhead then .error .truncatedPayload
  else
    let tag := BitVec.ofNat 16 (memRead bytes hdrLen tagLen)
    let v ← payloadDecode c tag (slice bytes (hdrLen + tagLen) len) h.payloadLength
    let t := BitVec.ofNat 16 (memRead bytes (hdrLen + tagLen + len) tailLen)
    if crc16 (slice bytes 0 (hdrLen + tagLen + len)) ≠ t then .error .badFrameChecksum
    else .ok ({ header := h, payload := v, tail := t }, BitVec.ofNat 32 (len + frameOverhead))

/-- `FRAME_BUILD`, op 0x30 (R113). -/
def execFrameBuild (sequence : U8) (payload : Variant) (s : State) : Host.Outcome State Fault Refusal :=
  s.complete ((frameBuild s.config.config sequence payload).map .frame)

/-- `FRAME_ENCODE`, op 0x31 (R114). -/
def execFrameEncode (frame : Frame) (s : State) : Host.Outcome State Fault Refusal :=
  s.complete ((frameEncode s.config.config frame).map .bytes)

/-- `FRAME_DECODE`, op 0x32 (R116). -/
def execFrameDecode (bytes : Bytes) (s : State) : Host.Outcome State Fault Refusal :=
  s.complete ((frameDecode s.config.config bytes).map fun r => .decoded r.1 r.2)

/-- `TAIL_CHECK`, op 0x33 (R115). -/
def execTailCheck (bytes : Bytes) (s : State) : Host.Outcome State Fault Refusal :=
  s.complete ((tailCheck bytes).map .tail)

end Sys2Proof.Machine
end

