-- ==== Sys2Proof/Machine/Interaction.lean ====
section
/-! DEFINITION. The nested interaction dispatcher and the operation IX_DISPATCH (`44_interaction.md`). It is
advisory: what it cannot interpret is the OK result `None`, never an error. -/

namespace Sys2Proof.Machine

/-- The variant a sub-tag outside the robot-to-robot range selects, at most one (R126). -/
def ixVariantOf (c : Config) (subtag : U16) : Option IxVariant :=
  IxVariant.all.find? fun v => c.subtagOf v == subtag

/-- The bytes a list of `u(1)` values stands for. -/
def bytesOfLeaves : List LeafValue → Option Bytes
  | [] => some []
  | .int v :: vs => (bytesOfLeaves vs).map (BitVec.ofInt 8 v :: ·)
  | _ :: _ => none

/-- `V(vals)` as the record of `10_state.md` rule R32. The last line is reached by no value list that the
layout of V decodes to (Laws/Interaction.lean); it would be "no interpretation available" (DEDUCED, safe:
log 14). -/
def interactionOf : IxVariant → List Value → Interaction
  | .layerDelete, vals => .layerDelete vals
  | .figure1, [.records [f0]] => .figure1 f0
  | .figure2, [.records [f0, f1]] => .figure2 f0 f1
  | .figure5, [.records [f0, f1, f2, f3, f4]] => .figure5 f0 f1 f2 f3 f4
  | .figure7, [.records [f0, f1, f2, f3, f4, f5, f6]] => .figure7 f0 f1 f2 f3 f4 f5 f6
  | .customChar, [.record fig, .plain (.list chars)] =>
    match bytesOfLeaves chars with
    | some b => .customChar fig b
    | none => .none
  | .sentryCmd, [.plain (.leaf (.group [.int f0, .int f1, .int ex, .int r0, .int r1]))] =>
    .sentryCmd (BitVec.ofInt 1 f0) (BitVec.ofInt 1 f1) (BitVec.ofInt 11 ex) (BitVec.ofInt 4 r0)
      (BitVec.ofInt 4 r1)
  | .radarCmd, [.plain (.leaf (.int cmd))] => .radarCmd (BitVec.ofInt 8 cmd)
  | _, _ => .none

/-- Decoding `data` under V: `None` unless the size is exact (R127) and every enumeration is legal
(R128). -/
def interpret (c : Config) (v : IxVariant) (data : Bytes) : Interaction :=
  if data.length ≠ sizeOfItems Item.size (c.ixLayout v) then .none
  else match decodeBody c (c.ixLayout v) data with
    | .ok (vals, _) => interactionOf v vals
    | .error _ => .none

/-- `IX_DISPATCH(rid)` (R134): the robot-to-robot test comes before the lookup (R125). -/
def ixDispatch (c : Config) (rid : Variant) : Except Error Interaction :=
  match ridOperands c rid with
  | none => .error .contractViolation
  | some (subtag, data) =>
    if c.inR2r subtag then .ok (.robotToRobot data)
    else match ixVariantOf c subtag with
      | none => .ok .none
      | some v => .ok (interpret c v data)

/-- `IX_DISPATCH`, op 0x40 (R134). -/
def execIxDispatch (rid : Variant) (s : State) : Host.Outcome State Fault Refusal :=
  s.complete ((ixDispatch s.config.config rid).map .interaction)

end Sys2Proof.Machine
end

