-- ==== Sys2Proof/Machine/Dispatch.lean ====
section
/-! DEFINITION. The meaning of each operation, one arm per constructor of `Instr`. -/

namespace Sys2Proof.Machine

def exec (i : Instr) (s : State) : Host.Outcome State Fault Refusal :=
  match i with
  -- checksum engines
  | .crc8 data => Sys2Proof.Machine.execCrc8 data s
  | .crc16 data => Sys2Proof.Machine.execCrc16 data s
  -- header codec
  | .hdrDecode bytes => Sys2Proof.Machine.execHdrDecode bytes s
  | .hdrEncode hdr => Sys2Proof.Machine.execHdrEncode hdr s
  | .hdrRecompute payloadLength sequence => Sys2Proof.Machine.execHdrRecompute payloadLength sequence s
  -- payload codec and bit cursor
  | .payDecode tag bytes declared => Sys2Proof.Machine.execPayDecode tag bytes declared s
  | .payEncode v => Sys2Proof.Machine.execPayEncode v s
  | .bitsUnpack bytes bitpos width => Sys2Proof.Machine.execBitsUnpack bytes bitpos width s
  | .bitsPack fields => Sys2Proof.Machine.execBitsPack fields s
  -- frame assembler and tail validator
  | .frameBuild sequence payload => Sys2Proof.Machine.execFrameBuild sequence payload s
  | .frameEncode frame => Sys2Proof.Machine.execFrameEncode frame s
  | .frameDecode bytes => Sys2Proof.Machine.execFrameDecode bytes s
  | .tailCheck bytes => Sys2Proof.Machine.execTailCheck bytes s
  -- nested dispatcher
  | .ixDispatch rid => Sys2Proof.Machine.execIxDispatch rid s

end Sys2Proof.Machine
end

