-- ==== Sys2Proof/Machine/Step.lean ====
section
/-! DEFINITION. One step of the block: it takes the request in the request register and produces its
response (`10_state.md` rules R16, R21, R22; one request is one step, `70_reset_and_hazards.md` rule R159). -/

namespace Sys2Proof.Machine

/-- One step. With no request pending nothing happens (DEDUCED, safe: log 3). An unassigned `op` raises
`IllegalOperation` before any operand is examined (`60_exceptions.md` rule R147). An operand record that is
not of its operation's type is no request of the interface and is refused (log 5). -/
def step (s : State) : Host.Outcome State Fault Refusal :=
  match s.request with
  | none => .next s
  | some r =>
    match decode r with
    | .ok i => exec i s
    | .error .unassignedOp => s.raise .illegalOperation
    | .error .illTypedOperands => .refused (.illTypedOperands r.op)

/-- The state with the request of the table word `w` (its operands zero or empty) in the request register,
where `step` takes its next operation: what the host does when it issues that request (log 6). -/
def State.withFetchWord (s : State) (nbits w : Nat) : State :=
  { s with request := some (requestOfWord nbits w) }

end Sys2Proof.Machine
end

