-- ==== Sys2Proof/Safety.lean ====
section
/-! DEFINITION. What statements about runs are written with: the response a request gets, a program of
requests (`10_state.md` rule R16), and the invariant of the response register (R22 to R25, R29 to R31). -/

namespace Sys2Proof.Machine

/-- The operation ends with `return x` in this state: status OK, no info, the result `x`; the request is
done, and nothing else changes. -/
def State.answers (s : State) (i : Instr) (x : Result) : Prop :=
  exec i s = .next
    { config := s.config, request := none, response := some { status := .ok, info := none, result := some x } }

/-- The operation ends with `raise e` in this state: the error's status and info, no result; the request
is done, and nothing else changes (`60_exceptions.md` rule R137). -/
def State.raises (s : State) (i : Instr) (e : Error) : Prop :=
  exec i s = .next
    { config := s.config, request := none,
      response := some { status := e.status, info := e.info, result := none } }

/-- A RID variant with the four values of `44_interaction.md` rule R123. -/
def ridVariant (c : Config) (subtag : U16) (sender receiver : Nat) (data : Bytes) : Variant where
  tag := c.tagRid
  values :=
    [.plain (.leaf (.int subtag.toNat)), .plain (.leaf (.enum .endpointId sender)),
     .plain (.leaf (.enum .endpointId receiver)), .bytes data]

/-- A byte sequence with bit `j` (0 the least significant) of its byte `k` inverted. -/
def flipBit (b : Bytes) (k j : Nat) : Bytes :=
  b.set k (b.getD k 0 ^^^ BitVec.twoPow 8 j)

/-- The value of the item `it` that stands after the items `pre`: none where the item is reserved, else the one with
as many values before it as `pre` has items that are not (`30_encoding.md` rule R64, `42_payload.md` rule R93). -/
def valueAfter {ι α : Type} (reserved : ι → Bool) (pre : List (FieldName × ι)) (it : ι) (vals : List α) : Option α :=
  if reserved it then none else vals[(pre.filter fun x => !reserved x.2).length]?

/-- The sizes of `44_interaction.md` rule R124: figures by their reuse counts, the custom character as "one
figure record + 30 raw bytes". -/
def ixSize : IxVariant → Nat
  | .layerDelete => 2
  | .figure1 => 15
  | .figure2 => 2 * 15
  | .figure5 => 5 * 15
  | .figure7 => 7 * 15
  | .customChar => 15 + 30
  | .sentryCmd => 4
  | .radarCmd => 1

/-- The statuses each operation writes (`60_exceptions.md` rule R136, column "raised by"). -/
def statusesOf : Instr → List Status
  | .crc8 _ => [.ok]
  | .crc16 _ => [.ok]
  | .hdrDecode _ => [.ok, .badMagic, .badChecksum, .truncatedPayload]
  | .hdrEncode _ => [.ok]
  | .hdrRecompute _ _ => [.ok]
  | .payDecode _ _ _ =>
    [.ok, .unknownCommand, .truncatedPayload, .trailingBytes, .lengthUnderflow, .invalidEnumValue]
  | .payEncode _ => [.ok, .contractViolation]
  | .bitsUnpack _ _ _ => [.ok, .truncatedPayload, .contractViolation]
  | .bitsPack _ => [.ok, .contractViolation]
  | .frameBuild _ _ => [.ok, .contractViolation]
  | .frameEncode _ => [.ok, .contractViolation]
  | .frameDecode _ =>
    [.ok, .badMagic, .badChecksum, .badFrameChecksum, .unknownCommand, .truncatedPayload, .trailingBytes,
     .lengthUnderflow, .invalidEnumValue]
  | .tailCheck _ => [.ok, .badFrameChecksum, .truncatedPayload]
  | .ixDispatch _ => [.ok, .contractViolation]

/-- The inner step of `40_crc.md` rule R75 on naturals, masked as the pseudocode writes it. -/
def crc8Turn (c8 : Nat) : Nat :=
  if c8.testBit 7 then ((c8 <<< 1) ^^^ 0x31) &&& 0xFF else (c8 <<< 1) &&& 0xFF

/-- The pseudocode of `40_crc.md` rule R75 on naturals. -/
def crc8Pseudocode (d : Bytes) : Nat :=
  d.foldl (fun c8 b => Nat.repeat crc8Turn 8 (c8 ^^^ b.toNat)) 0xFF ^^^ 0x00

/-- The inner step of `40_crc.md` rule R77 on naturals. -/
def crc16Turn (c16 : Nat) : Nat :=
  if c16.testBit 15 then ((c16 <<< 1) ^^^ 0x1021) &&& 0xFFFF else (c16 <<< 1) &&& 0xFFFF

/-- The pseudocode of `40_crc.md` rule R77 on naturals. -/
def crc16Pseudocode (d : Bytes) : Nat :=
  d.foldl (fun c16 b => Nat.repeat crc16Turn 8 (c16 ^^^ (b.toNat <<< 8))) 0xFFFF ^^^ 0x0000

/-- The total width of a field list of BITS_PACK. -/
def fieldBits (fields : List (U8 × U32)) : Nat := (fields.map fun f => f.1.toNat).sum

/-- A bit item has a value (`30_encoding.md` rule R64). -/
def bitItemValued : BitItem → Bool
  | .rb _ => false
  | _ => true

/-- The response a request gets as the first one after reset, or `none` when the step refuses it
(`70_reset_and_hazards.md` rule R154). -/
def responseTo (c : CheckedConfig) (r : Request) : Option Response :=
  match step { State.resetWith c with request := some r } with
  | .next s => s.response
  | _ => none

/-- The host issues the requests one at a time, each after the response to the one before
(`95_test_vectors.md` section 5): the responses in order and the last state, or `none` when a request
cannot be issued or is refused. -/
def State.runProgram (s : State) : List Request → Option (List Response × State)
  | [] => some ([], s)
  | r :: rs => do
    let issued ← s.submit r
    match step issued with
    | .next s' =>
      let response ← s'.response
      let (responses, last) ← s'.runProgram rs
      some (response :: responses, last)
    | _ => none

/-- The rules on an entity the block produces: headers R29, variants `30_encoding.md` rule R64, frames R31
(of a decoded frame the tail invariant is over the received bytes, so it is not said here). -/
def Result.entityOk (c : Config) : Result → Prop
  | .header h => h.crc8 = headerCrc h.payloadLength h.sequence
  | .variant v => variantOk c v = true
  | .frame f => ∃ p, payloadBytes c f.payload = .ok p ∧ f.header.payloadLength.toNat = p.length - tagLen
      ∧ f.header.crc8 = headerCrc f.header.payloadLength f.header.sequence ∧ f.tail = frameCrc f.header p
  | .decoded f consumed => ∃ p, payloadBytes c f.payload = .ok p
      ∧ f.header.payloadLength.toNat = p.length - tagLen
      ∧ f.header.crc8 = headerCrc f.header.payloadLength f.header.sequence
      ∧ consumed.toNat = f.header.payloadLength.toNat + frameOverhead
  | _ => True

/-- The invariant of the block: what the response register holds is a response as `10_state.md` rules R22 to
R25 allow it, and an entity in it obeys the rules on entities. -/
def State.Inv (s : State) : Prop :=
  ∀ r, s.response = some r → r.wellFormed = true ∧ ∀ x, r.result = some x → x.entityOk s.config.config

end Sys2Proof.Machine
end

