-- ==== Sys2Proof/Certificates/Slice0/Obligations.lean ====
section
/-! DEFINITION. The statements about the block, for the provers. `s.answers i x` says that `exec i s` is the
next state whose response is OK with the result `x`, and `s.raises i e` that it is the next state whose
response is the error `e` without a result; both fix the whole next state (the configuration unchanged, the
request register empty), so each of them is also the operation's frame. Every statement is over every state,
hence over every configuration the spec allows. -/

open Sys2Proof Sys2Proof.Machine

/-! ## Reset, constants, the registers -/

/-- `70_reset_and_hazards.md` rules R151, R155: both registers are empty after reset, the configuration is the
one given, a pending request is discarded, and reading the response register then is a fault. -/
def Obligations.ResetEmptiesTheRegisters : Prop :=
  (∀ c : CheckedConfig, State.resetWith c = { config := c, request := none, response := none }) ∧
  (∀ s : State, s.afterReset = { config := s.config, request := none, response := none }) ∧
  (∀ s : State, s.afterReset.readResponse = .error .noResponse)

/-- `10_state.md` rules R17, R19 and R20: the constant registers read the same values in every state. -/
def Obligations.ConstantRegistersReadTheirValues : Prop :=
  ∀ s : State, s.constants =
    { crc8Cfg :=
        { width := 8, poly := 0x31, init := 0xFF, refin := false, refout := false, xorout := 0x00, check := 0xF7 }
      crc16Cfg :=
        { width := 16, poly := 0x1021, init := 0xFFFF, refin := false, refout := false, xorout := 0x0000,
          check := 0x29B1 }
      magic := 0xA5, hdrLen := 5, tagLen := 2, tailLen := 2, frameOverhead := 9, ridPrefixLen := 6
      subtagSentry := 0x0120, subtagRadar := 0x0121 }

/-- `60_exceptions.md` rule R137: raising an error ends the request with the error's status and info and no
result, saves nothing, and leaves the block ready; reading the result then is a fault (`10_state.md` R25). -/
def Obligations.RaiseDiscardsTheResult : Prop :=
  ∀ (s : State) (e : Error), ∃ r : Response,
    s.raise e = .next { config := s.config, request := none, response := some r } ∧
    r.status = e.status ∧ r.status ≠ .ok ∧ r.info = e.info ∧ r.result = none ∧
    r.readResult = .error .noResult

/-- The host can issue a request exactly when none is pending, and then only the request register changes; the
response stays readable. That a second request cannot be issued (log 18) and that the response register keeps its
value while a request is pending (log 4) are the model's readings: `10_state.md` section 3 and
`70_reset_and_hazards.md` section 4 do not say so. -/
def Obligations.SubmitTakesOneRequestAtATime : Prop :=
  ∀ (s : State) (r : Request),
    (s.request = none →
      s.submit r = some { config := s.config, request := some r, response := s.response }) ∧
    (s.request ≠ none → s.submit r = none) ∧
    (∀ x, s.response = some x → s.readResponse = .ok x)

/-- `60_exceptions.md` rule R136: the numeric status codes, and `10_state.md` rule R24: which error carries
which info. -/
def Obligations.StatusCodesAndInfo : Prop :=
  ([Status.ok, .badMagic, .badChecksum, .badFrameChecksum, .unknownCommand, .truncatedPayload, .trailingBytes,
    .lengthUnderflow, .invalidEnumValue, .contractViolation, .illegalOperation].map Status.code
      = [0, 1, 2, 3, 4, 5, 6, 7, 8, 9, 10]) ∧
  (∀ tag, (Error.unknownCommand tag).info = some (.tag tag)) ∧
  (∀ field raw, (Error.invalidEnumValue field raw).info = some (.enumValue field raw)) ∧
  (∀ e : Error, e.info ≠ none → e.status = .unknownCommand ∨ e.status = .invalidEnumValue)

/-! ## Checksum engines -/

/-- `40_crc.md` rule R79: each engine reproduces the CHECK value of its configuration. -/
def Obligations.CrcEnginesGiveTheirCheckValues : Prop :=
  crc8 [0x31, 0x32, 0x33, 0x34, 0x35, 0x36, 0x37, 0x38, 0x39] = 0xF7 ∧
  crc8Cfg.check = 0xF7 ∧
  crc16 [0x31, 0x32, 0x33, 0x34, 0x35, 0x36, 0x37, 0x38, 0x39] = 0x29B1 ∧
  crc16Cfg.check = 0x29B1

/-- `40_crc.md` rules R75 and R76: CRC8 answers, for every byte sequence, the value of the pseudocode on
naturals and of the table-driven form. -/
def Obligations.Crc8AnswersPseudocodeAndTable : Prop :=
  ∀ (s : State) (data : Bytes),
    s.answers (.crc8 data) (.crc8 (crc8ByTable data)) ∧ (crc8ByTable data).toNat = crc8Pseudocode data

/-- `40_crc.md` rules R77 and R78, the same for CRC16. -/
def Obligations.Crc16AnswersPseudocodeAndTable : Prop :=
  ∀ (s : State) (data : Bytes),
    s.answers (.crc16 data) (.crc16 (crc16ByTable data)) ∧ (crc16ByTable data).toNat = crc16Pseudocode data

/-- `40_crc.md` rule R81: appending a message's CRC-8 leaves residue 0, and over five bytes the residue test
and the comparison accept the same headers. -/
def Obligations.HeaderCrcResidueIsZero : Prop :=
  (∀ m : Bytes, m.length = 4 → crc8 (m ++ [crc8 m]) = 0) ∧
  (∀ b : Bytes, b.length = 5 → (crc8 b = 0 ↔ b.getD 4 0 = crc8 (b.take 4)))

/-! ## Header codec -/

/-- `41_header.md` rules R83 and R84: HDR_DECODE answers the three fields of a header with the right magic
and CRC whatever follows it; a buffer under 5 bytes, a wrong magic, and a wrong CRC raise their errors, the
first failing gate winning. -/
def Obligations.HdrDecodeGatesAndFields : Prop :=
  ∀ s : State,
    (∀ bytes : Bytes, bytes.length < 5 → s.raises (.hdrDecode bytes) .truncatedPayload) ∧
    (∀ (m lo hi sequence crc : Byte) (rest : Bytes),
      (m ≠ 0xA5 → s.raises (.hdrDecode (m :: lo :: hi :: sequence :: crc :: rest)) .badMagic) ∧
      (m = 0xA5 → crc ≠ crc8 [m, lo, hi, sequence] →
        s.raises (.hdrDecode (m :: lo :: hi :: sequence :: crc :: rest)) .badChecksum) ∧
      (m = 0xA5 → crc = crc8 [m, lo, hi, sequence] →
        s.answers (.hdrDecode (m :: lo :: hi :: sequence :: crc :: rest))
          (.header { payloadLength := hi ++ lo, sequence := sequence, crc8 := crc })))

/-- `41_header.md` rule R87: HDR_ENCODE answers the five bytes, with the CRC as the record holds it; the bytes
of an inconsistent record fail HDR_DECODE. -/
def Obligations.HdrEncodeAnswersFiveBytes : Prop :=
  ∀ (s : State) (h : FrameHeader) (four : Bytes),
    four = [0xA5, h.payloadLength.extractLsb' 0 8, h.payloadLength.extractLsb' 8 8, h.sequence] →
    s.answers (.hdrEncode h) (.bytes (four ++ [h.crc8])) ∧
    (h.crc8 ≠ crc8 four → s.raises (.hdrDecode (four ++ [h.crc8])) .badChecksum)

/-- `41_header.md` rule R88: HDR_RECOMPUTE answers a consistent header. -/
def Obligations.HdrRecomputeAnswersConsistentHeader : Prop :=
  ∀ (s : State) (len : U16) (sequence : U8),
    s.answers (.hdrRecompute len sequence)
      (.header
        { payloadLength := len
          sequence := sequence
          crc8 := crc8 [0xA5, len.extractLsb' 0 8, len.extractLsb' 8 8, sequence] })

/-- `41_header.md` rule R90: both round-trip laws of the header. -/
def Obligations.HeaderRoundTrips : Prop :=
  ∀ s : State,
    (∀ (len : U16) (sequence : U8), ∃ h b,
      s.answers (.hdrRecompute len sequence) (.header h) ∧ s.answers (.hdrEncode h) (.bytes b) ∧
        s.answers (.hdrDecode b) (.header h)) ∧
    (∀ b h, s.answers (.hdrDecode b) (.header h) → s.answers (.hdrEncode h) (.bytes (b.take 5)))

/-- `41_header.md` rule R85: when the checksum gate fails, and that inverting any one bit of the five bytes of a
valid header makes HDR_DECODE fail, at the magic gate in byte 0 and at the checksum gate in bytes 1 to 4. -/
def Obligations.HeaderSingleBitFlipIsDetected : Prop :=
  ∀ (s : State) (b : Bytes),
    (s.raises (.hdrDecode b) .badChecksum ↔
      5 ≤ b.length ∧ b.getD 0 0 = 0xA5 ∧ b.getD 4 0 ≠ crc8 [b.getD 0 0, b.getD 1 0, b.getD 2 0, b.getD 3 0]) ∧
    (∀ h, s.answers (.hdrDecode b) (.header h) → ∀ k j, k < 5 → j < 8 →
      s.raises (.hdrDecode (flipBit b k j)) (if k = 0 then .badMagic else .badChecksum))

/-! ## Payload codec -/

/-- `42_payload.md` rule R92: a tag outside `TAGS` is `UnknownCommand` with that tag whatever the body; a tag in
`TAGS` never is, and what its body decodes to is a variant of that tag with values of its layout. -/
def Obligations.PayDecodeDispatchesOnTheTag : Prop :=
  ∀ (s : State) (tag : U16) (bytes : Bytes) (declared : U16),
    (tag ∉ s.config.config.tags → s.raises (.payDecode tag bytes declared) (.unknownCommand tag)) ∧
    (tag ∈ s.config.config.tags → ∃ layout, s.config.config.layoutOf tag = some layout ∧
      (∀ t, ¬ s.raises (.payDecode tag bytes declared) (.unknownCommand t)) ∧
      (∀ v, s.answers (.payDecode tag bytes declared) (.variant v) →
        v.tag = tag ∧ fitsLayout s.config.config layout v.values = true))

/-- `42_payload.md` rule R101: the length gates of a fixed-size variant; `declared` is not consulted. The enum
error of a short body is of an item it holds: more bytes do not change it. A body of the exact size answers the
values its items decode to, in layout order, each at the place where the items before it end (R93, R103), or the
error of that decode. Last clause: the first item in layout order that fails decides the error, whatever the items
after it and the length of the body. -/
def Obligations.FixedBodyLengthGates : Prop :=
  ∀ (s : State) (tag : U16) (items : List (FieldName × Item)) (bytes : Bytes) (declared : U16),
    s.config.config.layoutOf tag = some (.fixed items) →
    (∀ declared', exec (.payDecode tag bytes declared') s = exec (.payDecode tag bytes declared) s) ∧
    (bytes.length < sizeOfItems Item.size items →
      s.raises (.payDecode tag bytes declared) .truncatedPayload ∨
        ∃ field raw, ∀ more, s.raises (.payDecode tag (bytes ++ more) declared) (.invalidEnumValue field raw)) ∧
    (bytes.length = sizeOfItems Item.size items →
      (∃ vals, s.answers (.payDecode tag bytes declared) (.variant { tag := tag, values := vals }) ∧
        decodeItems (decodeItem s.config.config bytes) [] items 0 = .ok (vals, sizeOfItems Item.size items) ∧
        ∀ pre n it post, items = pre ++ (n, it) :: post →
          decodeItem s.config.config bytes it (sizeOfItems Item.size pre) [.name n] =
            .ok (valueAfter itemReserved pre it vals, sizeOfItems Item.size pre + it.size)) ∨
      ∃ field raw, s.raises (.payDecode tag bytes declared) (.invalidEnumValue field raw) ∧
        decodeItems (decodeItem s.config.config bytes) [] items 0 = .error (.invalidEnumValue field raw)) ∧
    (sizeOfItems Item.size items < bytes.length →
      (∀ v, s.answers (.payDecode tag (bytes.take (sizeOfItems Item.size items)) declared) (.variant v) →
        s.raises (.payDecode tag bytes declared) .trailingBytes) ∧
      (∀ e, s.raises (.payDecode tag (bytes.take (sizeOfItems Item.size items)) declared) e →
        s.raises (.payDecode tag bytes declared) e)) ∧
    (∀ pre n it post vals p e, items = pre ++ (n, it) :: post →
      decodeItems (decodeItem s.config.config bytes) [] pre 0 = .ok (vals, p) →
      decodeItem s.config.config bytes it p [.name n] = .error e →
      s.raises (.payDecode tag bytes declared) e)

/-- `42_payload.md` rule R102: RobotInteractionData, every gate in its order and the decoded variant. -/
def Obligations.RidDecodeGatesAndValues : Prop :=
  ∀ (s : State) (bytes : Bytes) (declared : U16),
    (declared.toNat < 6 →
      s.raises (.payDecode s.config.config.tagRid bytes declared) .lengthUnderflow) ∧
    (6 ≤ declared.toNat → bytes.length < 4 →
      s.raises (.payDecode s.config.config.tagRid bytes declared) .truncatedPayload) ∧
    (6 ≤ declared.toNat → ∀ (t0 t1 s0 s1 : Byte) (rest : Bytes), bytes = t0 :: t1 :: s0 :: s1 :: rest →
      (s.config.config.enumLegal .endpointId (s1 ++ s0).toNat = false →
        s.raises (.payDecode s.config.config.tagRid bytes declared)
          (.invalidEnumValue [.name "sender"] ((s1 ++ s0).setWidth 32))) ∧
      (s.config.config.enumLegal .endpointId (s1 ++ s0).toNat = true →
        (rest.length < 2 →
          s.raises (.payDecode s.config.config.tagRid bytes declared) .truncatedPayload) ∧
        (∀ (r0 r1 : Byte) (data : Bytes), rest = r0 :: r1 :: data →
          (s.config.config.enumLegal .endpointId (r1 ++ r0).toNat = false →
            s.raises (.payDecode s.config.config.tagRid bytes declared)
              (.invalidEnumValue [.name "receiver"] ((r1 ++ r0).setWidth 32))) ∧
          (s.config.config.enumLegal .endpointId (r1 ++ r0).toNat = true →
            (data.length < declared.toNat - 6 →
              s.raises (.payDecode s.config.config.tagRid bytes declared) .truncatedPayload) ∧
            (declared.toNat - 6 < data.length →
              s.raises (.payDecode s.config.config.tagRid bytes declared) .trailingBytes) ∧
            (data.length = declared.toNat - 6 →
              s.answers (.payDecode s.config.config.tagRid bytes declared)
                (.variant (ridVariant s.config.config (t1 ++ t0) (s1 ++ s0).toNat (r1 ++ r0).toNat data)))))))

/-- `42_payload.md` rule R94: integer items are little-endian, `u(k)` the unsigned and `i(k)` the
two's-complement reading of the same k bytes; they fail only by truncation. -/
def Obligations.IntegerItemsReadLittleEndian : Prop :=
  ∀ (c : Config) (b : Bytes) (k pos : Nat) (path : FieldPath), k ∈ [1, 2, 4, 8] →
    (pos + k ≤ b.length → ∃ x : BitVec (8 * k),
      (∀ j, j < k → x.extractLsb' (8 * j) 8 = b.getD (pos + j) 0) ∧
      decodeLeaf c b (.u k) pos path = .ok (.int x.toNat, pos + k) ∧
      decodeLeaf c b (.i k) pos path = .ok (.int x.toInt, pos + k)) ∧
    (b.length < pos + k →
      decodeLeaf c b (.u k) pos path = .error .truncatedPayload ∧
      decodeLeaf c b (.i k) pos path = .error .truncatedPayload)

/-- `42_payload.md` rule R95: a byte-aligned enumeration is the little-endian value of its bytes where that is
legal, an error with the item's path and the raw value where it is not, and a truncation where bytes are
missing. -/
def Obligations.EnumItemsAreCheckedAgainstTheirSet : Prop :=
  ∀ (s : State) (e : EnumName) (k : Nat) (b : Bytes) (pos : Nat) (path : FieldPath),
    LeafItem.ok s.config.config (.enum e k) = true →
    (b.length < pos + k → decodeLeaf s.config.config b (.enum e k) pos path = .error .truncatedPayload) ∧
    (pos + k ≤ b.length → ∃ raw : U32,
      (∀ j, j < k → raw.extractLsb' (8 * j) 8 = b.getD (pos + j) 0) ∧ raw.toNat < 2 ^ (8 * k) ∧
      (s.config.config.enumLegal e raw.toNat = true →
        decodeLeaf s.config.config b (.enum e k) pos path = .ok (.enum e raw.toNat, pos + k)) ∧
      (s.config.config.enumLegal e raw.toNat = false →
        decodeLeaf s.config.config b (.enum e k) pos path = .error (.invalidEnumValue path raw)))

/-- `42_payload.md` rules R100 and R112: an array, of leaf elements or of figure records, fails exactly with the
error of its first failing element, decoded where the elements before it end, under the array's path with that
element's index. -/
def Obligations.ArraysReportTheFirstFailingIndex : Prop :=
  ∀ (s : State) (n : Nat) (b : Bytes) (pos : Nat) (path : FieldPath) (err : Error),
    (∀ elem : LeafItem, decodePlain s.config.config b (.arr elem n) pos path = .error err ↔
      ∃ j xs, j < n ∧ xs.length = j ∧
        decodePlain s.config.config b (.arr elem j) pos path = .ok (some (.list xs), pos + j * elem.size) ∧
        decodeLeaf s.config.config b elem (pos + j * elem.size) (path ++ [.index j]) = .error err) ∧
    (decodeItem s.config.config b (.figures n) pos path = .error err ↔
      ∃ j figs, j < n ∧ figs.length = j ∧
        decodeItem s.config.config b (.figures j) pos path = .ok (some (.records figs), pos + j * 15) ∧
        decodeItem s.config.config b .figure (pos + j * 15) (path ++ [.index j]) = .error err)

/-- `42_payload.md` rules R100 and R112: a figure record adds no name of its own. It fails with the error of its
first failing item, under the path of what holds the record followed by that item's name; with an illegal bit
field in a group of element j of an array `name`, that is `name`, j, the group's name, the field's name. -/
def Obligations.FigureRecordsAddNoNameToThePath : Prop :=
  ∀ (s : State) (pre post : List (FieldName × PlainItem)) (n : FieldName) (it : PlainItem) (b : Bytes) (pos p : Nat)
    (path : FieldPath) (vals : Fig),
    s.config.config.figureLayout = pre ++ (n, it) :: post →
    decodeItems (decodePlain s.config.config b) path pre pos = .ok (vals, p) →
    (∀ err, decodePlain s.config.config b it p (path ++ [.name n]) = .error err →
      decodeItem s.config.config b .figure pos path = .error err) ∧
    (∀ (gpre gpost : List (FieldName × BitItem)) (field : FieldName) (e : EnumName) (w : Nat) (vs : List BitValue)
      (name : FieldName) (j : Nat),
      it = .leaf (.bits (gpre ++ (field, .eb e w) :: gpost)) → path = [.name name, .index j] → p + it.size ≤ b.length →
      decodeBits s.config.config (slice b p it.size) (path ++ [.name n]) gpre 0 = .ok vs →
      s.config.config.enumLegal e (getBits (slice b p it.size) (groupBits gpre) w) = false →
      decodeItem s.config.config b .figure pos path =
        .error (.invalidEnumValue [.name name, .index j, .name n, .name field]
          (BitVec.ofNat 32 (getBits (slice b p it.size) (groupBits gpre) w))))

/-- `20_memory.md` rule R39: an encoded group has T / 8 bytes, and each of its items stands, in declaration
order and most significant bit first, at the bits after those of the items before it: the unsigned value, the
raw enumeration value, and 0 for reserved bits. -/
def Obligations.EncodedGroupHoldsEachFieldAtItsBits : Prop :=
  ∀ (s : State) (gs : List (FieldName × BitItem)) (vs : List BitValue),
    LeafItem.ok s.config.config (.bits gs) = true → fitsLeaf s.config.config (.bits gs) (.group vs) = true →
    ∃ b, encodeLeaf (.bits gs) (.group vs) = some b ∧ 8 * b.length = groupBits gs ∧
      ∀ pre n g post, gs = pre ++ (n, g) :: post → ∃ value : Nat,
        (∀ w, g = .ub w → vs[(pre.filter fun x => bitItemValued x.2).length]? = some (.int value)) ∧
        (∀ e w, g = .eb e w → vs[(pre.filter fun x => bitItemValued x.2).length]? = some (.enum e value)) ∧
        (∀ w, g = .rb w → value = 0) ∧
        ∀ i, i < g.width →
          (b.getD ((groupBits pre + i) / 8) 0).getMsbD ((groupBits pre + i) % 8) = value.testBit (g.width - 1 - i)

/-- `42_payload.md` rules R93 and R98: a group whose bytes are not all present is a truncation, whatever its
fields hold; of a group that is present the first bit-field enumeration with an illegal raw value ends the
decode, naming the field after the group's path, whatever stands after it. -/
def Obligations.GroupReportsFirstIllegalEnum : Prop :=
  ∀ (s : State) (b : Bytes) (pos : Nat) (path : FieldPath) (gs : List (FieldName × BitItem)),
    (b.length < pos + groupBits gs / 8 →
      decodeLeaf s.config.config b (.bits gs) pos path = .error .truncatedPayload) ∧
    (pos + groupBits gs / 8 ≤ b.length → ∀ grp pre n e w post vs,
      grp = slice b pos (groupBits gs / 8) → gs = pre ++ (n, .eb e w) :: post →
      decodeBits s.config.config grp path pre 0 = .ok vs →
      s.config.config.enumLegal e (getBits grp (groupBits pre) w) = false →
      decodeLeaf s.config.config b (.bits gs) pos path =
        .error (.invalidEnumValue (path ++ [.name n]) (BitVec.ofNat 32 (getBits grp (groupBits pre) w))))

/-- `42_payload.md` rule R99: the content of reserved bits and bytes never matters. Two bodies of one length
that differ only there are decoded with the same outcome. -/
def Obligations.PayDecodeIgnoresReservedContent : Prop :=
  ∀ (s : State) (tag : U16) (layout : Layout) (b b' : Bytes) (declared : U16),
    s.config.config.layoutOf tag = some layout → b.length = b'.length →
    clearReserved s.config.config layout b = clearReserved s.config.config layout b' →
    exec (.payDecode tag b declared) s = exec (.payDecode tag b' declared) s

/-- `42_payload.md` rules R106, R107 and R108: PAY_ENCODE answers for every well-formed variant, the tag's two bytes
first and then the body, which is the encoding of the variant's values under the tag's layout, and raises
`ContractViolation` for every other. `PayBytes` is what it answers. Of a fixed-size body the encoding of each item,
in layout order, stands where the items before it end; a RID body is its three values low byte first and its data. -/
def Obligations.PayEncodeAnswersExactlyWellFormed : Prop :=
  ∀ (s : State) (v : Variant),
    (variantOk s.config.config v = true → ∃ body,
      s.answers (.payEncode v) (.bytes (v.tag.extractLsb' 0 8 :: v.tag.extractLsb' 8 8 :: body)) ∧
      payloadBytes s.config.config v = .ok (v.tag.extractLsb' 0 8 :: v.tag.extractLsb' 8 8 :: body) ∧
      (∃ layout, s.config.config.layoutOf v.tag = some layout ∧
        encodeBody s.config.config layout v.values = some body) ∧
      (∀ items, s.config.config.layoutOf v.tag = some (.fixed items) →
        body.length = sizeOfItems Item.size items ∧
        ∀ pre n it post, items = pre ++ (n, it) :: post →
          encodeItem s.config.config it (valueAfter itemReserved pre it v.values) =
            some (slice body (sizeOfItems Item.size pre) it.size)) ∧
      (v.tag = s.config.config.tagRid → ∃ (subtag sender receiver : U16) (data : Bytes),
        v = ridVariant s.config.config subtag sender.toNat receiver.toNat data ∧
        body = [subtag.extractLsb' 0 8, subtag.extractLsb' 8 8, sender.extractLsb' 0 8, sender.extractLsb' 8 8,
          receiver.extractLsb' 0 8, receiver.extractLsb' 8 8] ++ data ∧
        body.length = 6 + data.length ∧ body.length ≤ 0xFFFF)) ∧
    (variantOk s.config.config v = false →
      payloadBytes s.config.config v = .error .contractViolation ∧ s.raises (.payEncode v) .contractViolation)

/-- `42_payload.md` rule R110: decode of encode gives the variant back, for every well-formed variant under
every configuration. -/
def Obligations.PayloadRoundTrips : Prop :=
  ∀ (s : State) (v : Variant), variantOk s.config.config v = true → ∃ p,
    s.answers (.payEncode v) (.bytes p) ∧
    s.answers (.payDecode (BitVec.ofNat 16 (memRead p 0 2)) (p.drop 2) (BitVec.ofNat 16 (p.length - 2)))
      (.variant v)

/-- `42_payload.md` rule R111, first two sentences: encode of decode gives the tag and the body with its
reserved fields cleared, so it gives the body back exactly when they were clear. -/
def Obligations.PayloadReencodingClearsReserved : Prop :=
  ∀ (s : State) (tag : U16) (b : Bytes) (declared : U16) (v : Variant),
    s.answers (.payDecode tag b declared) (.variant v) →
    ∃ layout, s.config.config.layoutOf tag = some layout ∧
      s.answers (.payEncode v)
        (.bytes (tag.extractLsb' 0 8 :: tag.extractLsb' 8 8 :: clearReserved s.config.config layout b)) ∧
      (s.answers (.payEncode v) (.bytes (tag.extractLsb' 0 8 :: tag.extractLsb' 8 8 :: b)) ↔
        clearReserved s.config.config layout b = b)

/-- `30_encoding.md` rules R62 and R63: every configuration has the four variants of R62 under four tags beside
`TAG_RID`, and one layout for each tag: a fixed-size GameStatus, a MapPathData of 105 bytes, whose encodings have
107, a SimulateControl, some group of which has a `ub(12)` and a `ub(4)` field that share a byte, and a fixed-size
variant with tag 0x0309. That the two fields are adjacent (log 9), that the group may stand anywhere in the layout
(log 21) and that the tags are distinct (log 22) are the model's readings. -/
def Obligations.EveryConfigurationHasTheKnownVariants : Prop :=
  ∀ s : State, ∃ mapTag simTag : U16, [0x0001, 0x0309, mapTag, simTag, s.config.config.tagRid].Nodup ∧
    (∃ items, s.config.config.layoutOf 0x0001 = some (.fixed items)) ∧
    (∃ items, s.config.config.layoutOf mapTag = some (.fixed items) ∧ isMapPath items = true ∧
      sizeOfItems Item.size items = 105 ∧
      ∀ vals p, s.answers (.payEncode { tag := mapTag, values := vals }) (.bytes p) → p.length = 107) ∧
    (∃ items gs pre n v m w post, s.config.config.layoutOf simTag = some (.fixed items) ∧
      gs ∈ layoutGroups s.config.config items ∧ gs = pre ++ (n, .ub v) :: (m, .ub w) :: post ∧
      (v = 12 ∧ w = 4 ∨ v = 4 ∧ w = 12) ∧ (groupBits pre + v - 1) / 8 = (groupBits pre + v) / 8) ∧
    (∃ items, s.config.config.layoutOf 0x0309 = some (.fixed items)) ∧
    (∀ tag, tag ∈ s.config.config.tags ↔ ∃ layout, s.config.config.layoutOf tag = some layout)

/-! ## Bit cursor -/

/-- `42_payload.md` rules R96 and R104: BITS_UNPACK answers the field whose bits stand at `bitpos` and after,
the field's most significant bit first; its two errors. -/
def Obligations.BitsUnpackAnswersTheBits : Prop :=
  ∀ (s : State) (bytes : Bytes) (bitpos : U32) (width : U8),
    (width.toNat < 1 ∨ 32 < width.toNat → s.raises (.bitsUnpack bytes bitpos width) .contractViolation) ∧
    (1 ≤ width.toNat → width.toNat ≤ 32 → 8 * bytes.length < bitpos.toNat + width.toNat →
      s.raises (.bitsUnpack bytes bitpos width) .truncatedPayload) ∧
    (1 ≤ width.toNat → width.toNat ≤ 32 → bitpos.toNat + width.toNat ≤ 8 * bytes.length → ∃ v : U32,
      s.answers (.bitsUnpack bytes bitpos width) (.value v) ∧ v.toNat < 2 ^ width.toNat ∧
      ∀ i, i < width.toNat → v.getLsbD (width.toNat - 1 - i) =
        (bytes.getD ((bitpos.toNat + i) / 8) 0).getMsbD ((bitpos.toNat + i) % 8))

/-- `42_payload.md` rules R97 and R105: BITS_PACK answers the bits of the fields one after the other, each most
significant bit first and read back by BITS_UNPACK at the sum of the widths before it, and zero bits after the
last; a width outside 1 to 32 or a value that does not fit raises `ContractViolation`. -/
def Obligations.BitsPackIsUnpackedFieldByField : Prop :=
  ∀ (s : State) (fields : List (U8 × U32)),
    (∀ f ∈ fields, f.1.toNat < 1 ∨ 32 < f.1.toNat ∨ 2 ^ f.1.toNat ≤ f.2.toNat →
      s.raises (.bitsPack fields) .contractViolation) ∧
    ((∀ f ∈ fields, 1 ≤ f.1.toNat ∧ f.1.toNat ≤ 32 ∧ f.2.toNat < 2 ^ f.1.toNat) → ∃ b : Bytes,
      s.answers (.bitsPack fields) (.bytes b) ∧ b.length = (fieldBits fields + 7) / 8 ∧
      (∀ pre f post, fields = pre ++ f :: post →
        (∀ i, i < f.1.toNat → (b.getD ((fieldBits pre + i) / 8) 0).getMsbD ((fieldBits pre + i) % 8) =
          f.2.getLsbD (f.1.toNat - 1 - i)) ∧
        (fieldBits fields < 2 ^ 32 →
          s.answers (.bitsUnpack b (BitVec.ofNat 32 (fieldBits pre)) f.1) (.value f.2))) ∧
      (∀ q, fieldBits fields ≤ q → q < 8 * b.length → (b.getD (q / 8) 0).getMsbD (q % 8) = false))

/-! ## Frame assembler and tail validator -/

/-- `43_frame.md` rule R113: FRAME_BUILD answers the consistent frame of a payload whose body fits the u16
length, and raises `ContractViolation` where the payload is not well-formed or its body is longer. -/
def Obligations.FrameBuildAnswersConsistentFrame : Prop :=
  ∀ (s : State) (sequence : U8) (v : Variant),
    (∀ p, payloadBytes s.config.config v = .ok p → p.length - 2 ≤ 0xFFFF → ∀ (len : U16) (crc : U8),
      len = BitVec.ofNat 16 (p.length - 2) →
      crc = crc8 [0xA5, len.extractLsb' 0 8, len.extractLsb' 8 8, sequence] →
      s.answers (.frameBuild sequence v)
        (.frame
          { header := { payloadLength := len, sequence := sequence, crc8 := crc }
            payload := v
            tail := crc16 ([0xA5, len.extractLsb' 0 8, len.extractLsb' 8 8, sequence, crc] ++ p) })) ∧
    (∀ p, payloadBytes s.config.config v = .ok p → 0xFFFF < p.length - 2 →
      s.raises (.frameBuild sequence v) .contractViolation) ∧
    (variantOk s.config.config v = false → s.raises (.frameBuild sequence v) .contractViolation)

/-- `43_frame.md` rule R114: FRAME_ENCODE answers the bytes of a frame that meets the three invariants, and
raises `ContractViolation` where one fails or the payload is not well-formed. -/
def Obligations.FrameEncodeAnswersExactlyConsistent : Prop :=
  ∀ (s : State) (f : Frame) (hdr : Bytes),
    hdr = [0xA5, f.header.payloadLength.extractLsb' 0 8, f.header.payloadLength.extractLsb' 8 8,
      f.header.sequence] →
    (∀ p, payloadBytes s.config.config f.payload = .ok p →
      (f.header.payloadLength.toNat = p.length - 2 ∧ f.header.crc8 = crc8 hdr ∧
          f.tail = crc16 (hdr ++ [f.header.crc8] ++ p) → ∃ b,
        s.answers (.frameEncode f) (.bytes b) ∧
        b = hdr ++ [f.header.crc8] ++ p ++ [f.tail.extractLsb' 0 8, f.tail.extractLsb' 8 8] ∧
        b.length = f.header.payloadLength.toNat + 9) ∧
      (¬ (f.header.payloadLength.toNat = p.length - 2 ∧ f.header.crc8 = crc8 hdr ∧
          f.tail = crc16 (hdr ++ [f.header.crc8] ++ p)) →
        s.raises (.frameEncode f) .contractViolation)) ∧
    (variantOk s.config.config f.payload = false → s.raises (.frameEncode f) .contractViolation)

/-- `43_frame.md` rule R116: FRAME_DECODE is its gates in order: HDR_DECODE of the buffer, the frame's
presence, PAY_DECODE of the `L` bytes after the tag under that tag, and the CRC-16 of all bytes before the
tail against the two tail bytes. -/
def Obligations.FrameDecodeRunsItsGatesInOrder : Prop :=
  ∀ (s : State) (bytes : Bytes),
    (∀ e, s.raises (.hdrDecode bytes) e → s.raises (.frameDecode bytes) e) ∧
    (∀ h, s.answers (.hdrDecode bytes) (.header h) →
      (bytes.length < h.payloadLength.toNat + 9 → s.raises (.frameDecode bytes) .truncatedPayload) ∧
      (∀ (header body rest : Bytes) (tag0 tag1 tail0 tail1 : Byte), header.length = 5 →
        body.length = h.payloadLength.toNat →
        bytes = header ++ [tag0, tag1] ++ body ++ [tail0, tail1] ++ rest →
        (∀ e, s.raises (.payDecode (tag1 ++ tag0) body h.payloadLength) e → s.raises (.frameDecode bytes) e) ∧
        (∀ v, s.answers (.payDecode (tag1 ++ tag0) body h.payloadLength) (.variant v) →
          (tail1 ++ tail0 ≠ crc16 (header ++ [tag0, tag1] ++ body) →
            s.raises (.frameDecode bytes) .badFrameChecksum) ∧
          (tail1 ++ tail0 = crc16 (header ++ [tag0, tag1] ++ body) →
            s.answers (.frameDecode bytes)
              (.decoded { header := h, payload := v, tail := tail1 ++ tail0 }
                (BitVec.ofNat 32 (h.payloadLength.toNat + 9)))))))

/-- `43_frame.md` rule R118: the bytes from `L + 9` on are neither read nor checked. -/
def Obligations.FrameDecodeIgnoresBytesAfterTheFrame : Prop :=
  ∀ (s : State) (bytes rest : Bytes) (h : FrameHeader), s.answers (.hdrDecode bytes) (.header h) →
    h.payloadLength.toNat + 9 ≤ bytes.length →
    exec (.frameDecode (bytes.take (h.payloadLength.toNat + 9) ++ rest)) s = exec (.frameDecode bytes) s

/-- `43_frame.md` rule R121: build, encode, decode gives the frame back and consumes exactly its bytes, also
when more bytes follow. -/
def Obligations.FrameRoundTrips : Prop :=
  ∀ (s : State) (sequence : U8) (v : Variant) (p rest : Bytes),
    payloadBytes s.config.config v = .ok p → p.length - 2 ≤ 0xFFFF → ∃ f b,
      s.answers (.frameBuild sequence v) (.frame f) ∧ f.payload = v ∧ f.header.sequence = sequence ∧
      s.answers (.frameEncode f) (.bytes b) ∧ b.length = p.length + 7 ∧
      s.answers (.frameDecode (b ++ rest)) (.decoded f (BitVec.ofNat 32 b.length))

/-- `43_frame.md` rule R120: the invariants of a frame FRAME_BUILD answers, and of one FRAME_DECODE answers,
whose tail is over the received bytes, and over the re-encoding when the received reserved fields were
clear. -/
def Obligations.AnsweredFramesKeepTheirInvariants : Prop :=
  ∀ s : State,
    (∀ sequence v f, s.answers (.frameBuild sequence v) (.frame f) → ∃ p,
      payloadBytes s.config.config f.payload = .ok p ∧ f.header.payloadLength.toNat = p.length - 2 ∧
      f.header.crc8 = headerCrc f.header.payloadLength f.header.sequence ∧
      f.tail = crc16 (headerBytes f.header ++ p)) ∧
    (∀ bytes f consumed, s.answers (.frameDecode bytes) (.decoded f consumed) → ∃ p,
      payloadBytes s.config.config f.payload = .ok p ∧ f.header.payloadLength.toNat = p.length - 2 ∧
      f.header.crc8 = headerCrc f.header.payloadLength f.header.sequence ∧
      consumed.toNat = f.header.payloadLength.toNat + 9 ∧
      f.tail = crc16 (bytes.take (f.header.payloadLength.toNat + 7)) ∧
      (∀ layout, s.config.config.layoutOf f.payload.tag = some layout →
        clearReserved s.config.config layout (slice bytes 7 f.header.payloadLength.toNat) =
          slice bytes 7 f.header.payloadLength.toNat →
        f.tail = crc16 (headerBytes f.header ++ p)))

/-- `43_frame.md` rule R122: tampering with the tail's high byte, the header CRC or the magic of an encoded
frame is reported by the gate that guards it. -/
def Obligations.FrameTamperingIsDetected : Prop :=
  ∀ (s : State) (sequence : U8) (v : Variant) (f : Frame) (b : Bytes),
    s.answers (.frameBuild sequence v) (.frame f) → s.answers (.frameEncode f) (.bytes b) →
    (∀ j, j < 8 → s.raises (.frameDecode (flipBit b (b.length - 1) j)) .badFrameChecksum) ∧
    (∀ j, j < 8 → s.raises (.frameDecode (flipBit b 4 j)) .badChecksum) ∧
    (∀ x : Byte, x ≠ 0xA5 → s.raises (.frameDecode (b.set 0 x)) .badMagic)

/-- `43_frame.md` rule R115: TAIL_CHECK answers the last two bytes, low byte first, where they are the CRC-16
of all bytes before them, and raises `BadFrameChecksum` where they are not; inverting any one bit of a byte
sequence that passes makes it fail. -/
def Obligations.TailCheckComparesTheCrc : Prop :=
  ∀ s : State,
    (∀ bytes : Bytes, bytes.length < 2 → s.raises (.tailCheck bytes) .truncatedPayload) ∧
    (∀ (d : Bytes) (lo hi : Byte),
      (hi ++ lo = crc16 d → s.answers (.tailCheck (d ++ [lo, hi])) (.tail (crc16 d))) ∧
      (hi ++ lo ≠ crc16 d → s.raises (.tailCheck (d ++ [lo, hi])) .badFrameChecksum)) ∧
    (∀ (b : Bytes) (t : U16), s.answers (.tailCheck b) (.tail t) → ∀ k j, k < b.length → j < 8 →
      s.raises (.tailCheck (flipBit b k j)) .badFrameChecksum)

/-! ## Nested dispatcher -/

/-- `44_interaction.md` rule R123: IX_DISPATCH answers for every well-formed RID and raises
`ContractViolation` for every other input; `sender` and `receiver` are not read. -/
def Obligations.IxDispatchTakesExactlyWellFormedRid : Prop :=
  ∀ (s : State) (rid : Variant),
    (rid.tag = s.config.config.tagRid ∧ variantOk s.config.config rid = true →
      ∃ x, s.answers (.ixDispatch rid) (.interaction x)) ∧
    (¬ (rid.tag = s.config.config.tagRid ∧ variantOk s.config.config rid = true) →
      s.raises (.ixDispatch rid) .contractViolation) ∧
    (∀ subtag sender receiver sender' receiver' data,
      variantOk s.config.config (ridVariant s.config.config subtag sender receiver data) = true →
      variantOk s.config.config (ridVariant s.config.config subtag sender' receiver' data) = true →
      exec (.ixDispatch (ridVariant s.config.config subtag sender receiver data)) s =
        exec (.ixDispatch (ridVariant s.config.config subtag sender' receiver' data)) s)

/-- `44_interaction.md` rule R125: inside the robot-to-robot range the data pass through unchanged, whatever
their length, and no mapped variant has such a sub-tag. -/
def Obligations.IxRobotToRobotPassesDataThrough : Prop :=
  ∀ (s : State) (subtag : U16) (sender receiver : Nat) (data : Bytes),
    variantOk s.config.config (ridVariant s.config.config subtag sender receiver data) = true →
    s.config.config.ixR2rLo.toNat ≤ subtag.toNat → subtag.toNat ≤ s.config.config.ixR2rHi.toNat →
    s.answers (.ixDispatch (ridVariant s.config.config subtag sender receiver data))
      (.interaction (.robotToRobot data)) ∧
    ∀ v, s.config.config.subtagOf v ≠ subtag

/-- `44_interaction.md` rules R126 and R127: outside the range, a sub-tag selects at most one variant; of no
variant it gives `None`, and so does a variant's sub-tag with data that are not exactly of its size in R124. -/
def Obligations.IxUnmappedOrWrongSizeGivesNone : Prop :=
  ∀ (s : State) (subtag : U16) (sender receiver : Nat) (data : Bytes),
    variantOk s.config.config (ridVariant s.config.config subtag sender receiver data) = true →
    (∀ v v', s.config.config.subtagOf v = subtag → s.config.config.subtagOf v' = subtag → v = v') ∧
    (s.config.config.inR2r subtag = false → (∀ v, s.config.config.subtagOf v ≠ subtag) →
      s.answers (.ixDispatch (ridVariant s.config.config subtag sender receiver data)) (.interaction .none)) ∧
    (∀ v, s.config.config.subtagOf v = subtag → data.length ≠ ixSize v →
      s.answers (.ixDispatch (ridVariant s.config.config subtag sender receiver data)) (.interaction .none))

/-- `44_interaction.md` rule R128: data of the exact size can fail to decode only by an illegal enumeration
value, and the answer is then `None`; where they decode, all of them are read and the answer is the variant's
interpretation of the values. -/
def Obligations.IxInnerEnumFailureGivesNone : Prop :=
  ∀ (s : State) (v : IxVariant) (sender receiver : Nat) (data : Bytes),
    variantOk s.config.config
      (ridVariant s.config.config (s.config.config.subtagOf v) sender receiver data) = true →
    data.length = ixSize v →
    (∀ e, decodeBody s.config.config (s.config.config.ixLayout v) data = .error e →
      (∃ field raw, e = .invalidEnumValue field raw) ∧
      s.answers (.ixDispatch (ridVariant s.config.config (s.config.config.subtagOf v) sender receiver data))
        (.interaction .none)) ∧
    (∀ vals pos, decodeBody s.config.config (s.config.config.ixLayout v) data = .ok (vals, pos) →
      pos = data.length ∧ interactionOf v vals ≠ .none ∧
      s.answers (.ixDispatch (ridVariant s.config.config (s.config.config.subtagOf v) sender receiver data))
        (.interaction (interactionOf v vals)))

/-- `44_interaction.md` rule R131: a figure record has 15 bytes, and data that are 1, 2, 5 or 7 of them, element
j the record at `data[15j .. 15j+15)`, are answered as that many figures in order. -/
def Obligations.IxFigureBatchesAreAnsweredInOrder : Prop :=
  ∀ (s : State) (v : IxVariant) (sender receiver : Nat) (data : Bytes) (figs : List Fig),
    sizeOfItems PlainItem.size s.config.config.figureLayout = 15 ∧
    (variantOk s.config.config
        (ridVariant s.config.config (s.config.config.subtagOf v) sender receiver data) = true →
      data.length = 15 * figs.length →
      (∀ j f, figs[j]? = some f → decodeFigure s.config.config (slice data (15 * j) 15) 0 [] = .ok (f, 15)) →
      (∀ f0, v = .figure1 → figs = [f0] →
        s.answers (.ixDispatch (ridVariant s.config.config (s.config.config.subtagOf v) sender receiver data))
          (.interaction (.figure1 f0))) ∧
      (∀ f0 f1, v = .figure2 → figs = [f0, f1] →
        s.answers (.ixDispatch (ridVariant s.config.config (s.config.config.subtagOf v) sender receiver data))
          (.interaction (.figure2 f0 f1))) ∧
      (∀ f0 f1 f2 f3 f4, v = .figure5 → figs = [f0, f1, f2, f3, f4] →
        s.answers (.ixDispatch (ridVariant s.config.config (s.config.config.subtagOf v) sender receiver data))
          (.interaction (.figure5 f0 f1 f2 f3 f4))) ∧
      (∀ f0 f1 f2 f3 f4 f5 f6, v = .figure7 → figs = [f0, f1, f2, f3, f4, f5, f6] →
        s.answers (.ixDispatch (ridVariant s.config.config (s.config.config.subtagOf v) sender receiver data))
          (.interaction (.figure7 f0 f1 f2 f3 f4 f5 f6))))

/-- `44_interaction.md` rules R132 and R133: a custom character is the figure record at `data[0..15)` and the 30
bytes at `data[15..45)`, unchanged; a layer-delete record of 2 bytes is answered with the values its layout
decodes to. -/
def Obligations.IxCustomCharAndLayerDeleteAreAnswered : Prop :=
  ∀ (s : State) (sender receiver : Nat) (data : Bytes),
    (∀ fig : Fig,
      variantOk s.config.config
        (ridVariant s.config.config s.config.config.ixSubtags.customChar sender receiver data) = true →
      data.length = 45 → decodeFigure s.config.config (slice data 0 15) 0 [] = .ok (fig, 15) →
      s.answers
        (.ixDispatch (ridVariant s.config.config s.config.config.ixSubtags.customChar sender receiver data))
        (.interaction (.customChar fig (slice data 15 30)))) ∧
    (∀ vals pos,
      variantOk s.config.config
        (ridVariant s.config.config s.config.config.ixSubtags.layerDelete sender receiver data) = true →
      data.length = 2 →
      decodeItems (decodePlain s.config.config data) [] s.config.config.layerDeleteLayout 0 = .ok (vals, pos) →
      s.answers
        (.ixDispatch (ridVariant s.config.config s.config.config.ixSubtags.layerDelete sender receiver data))
        (.interaction (.layerDelete (vals.map .plain))))

/-- `44_interaction.md` rule R129: the sentry command's five fields are bits 0, 1, 2 to 12, 13 to 16 and 17 to
20 from the MSB of its four bytes; the low 11 bits do not matter. -/
def Obligations.IxSentryFieldsAreAtTheirBits : Prop :=
  ∀ (s : State) (sender receiver : Nat) (b0 b1 b2 b3 : Byte) (x : BitVec 32),
    variantOk s.config.config (ridVariant s.config.config 0x0120 sender receiver [b0, b1, b2, b3]) = true →
    x = b0 ++ b1 ++ b2 ++ b3 →
    s.answers (.ixDispatch (ridVariant s.config.config 0x0120 sender receiver [b0, b1, b2, b3]))
      (.interaction (.sentryCmd (x.extractLsb' 31 1) (x.extractLsb' 30 1) (x.extractLsb' 19 11)
        (x.extractLsb' 15 4) (x.extractLsb' 11 4)))

/-- `44_interaction.md` rule R130: the radar command is its one byte, unvalidated. -/
def Obligations.IxRadarCarriesItsByte : Prop :=
  ∀ (s : State) (sender receiver : Nat) (cmd : Byte),
    variantOk s.config.config (ridVariant s.config.config 0x0121 sender receiver [cmd]) = true →
    s.answers (.ixDispatch (ridVariant s.config.config 0x0121 sender receiver [cmd]))
      (.interaction (.radarCmd cmd))

/-! ## Requests, steps, programs -/

/-- `30_encoding.md` rule R66: decode and encode agree in both directions: a request decodes to an operation
exactly when it is that operation's request, and is unassigned exactly when its `op` is none of the fourteen. -/
def Obligations.DecodeAndEncodeAgree : Prop :=
  ∀ r : Request,
    (∀ i, decode r = .ok i ↔ encode i = r) ∧ (decode r = .error .unassignedOp ↔ r.op ∉ assignedOps)

/-- Requests written out from the operation map of `30_encoding.md` rule R66 decode to their operations. -/
def Obligations.SampleRequestsDecode : Prop :=
  decode ⟨0b00000001, [.bytes [0x31]]⟩ = .ok (.crc8 [0x31]) ∧
  decode ⟨0b00010010, [.u16 0x000B, .u8 0x01]⟩ = .ok (.hdrRecompute 0x000B 0x01) ∧
  decode ⟨0b00100000, [.u16 0x0301, .bytes [0x20], .u16 6]⟩ = .ok (.payDecode 0x0301 [0x20] 6) ∧
  decode ⟨0b00100010, [.bytes [0xAB, 0xC5], .u32 12, .u8 4]⟩ = .ok (.bitsUnpack [0xAB, 0xC5] 12 4) ∧
  decode ⟨0b00110011, [.bytes [0xFF, 0xFF]]⟩ = .ok (.tailCheck [0xFF, 0xFF]) ∧
  decode ⟨0b01000000, [.variant ⟨0x0301, []⟩]⟩ = .ok (.ixDispatch ⟨0x0301, []⟩)

/-- `30_encoding.md` rule R67: a request with one of the 242 unassigned codes is answered `IllegalOperation`
whatever its operands, and the block does nothing else. -/
def Obligations.UnassignedOpIsIllegalOperation : Prop :=
  (∀ (s : State) (r : Request), s.request = some r → r.op ∉ assignedOps →
    step s = .next
      { config := s.config, request := none,
        response := some { status := .illegalOperation, info := none, result := none } }) ∧
  ((List.range 256).filter fun op => !assignedOps.contains (BitVec.ofNat 8 op)).length = 242

/-- A step of a state whose request decodes to an operation is that operation's meaning in that state. -/
def Obligations.StepRunsTheDecodedOperation : Prop :=
  ∀ (s : State) (r : Request) (i : Instr), s.request = some r → decode r = .ok i → step s = exec i s

/-- With no request pending a step changes nothing (the model's reading of `70_reset_and_hazards.md` rule
R151, log 3). -/
def Obligations.IdleStepChangesNothing : Prop :=
  ∀ s : State, s.request = none → step s = .next s

/-- `10_state.md` rule R21 and `20_memory.md` rule R43: every operation in every state gives exactly one
response, empties the request register, and changes nothing else. -/
def Obligations.EveryOperationAnswersOnceAndChangesNothingElse : Prop :=
  ∀ (i : Instr) (s : State), ∃ r : Response,
    exec i s = .next { config := s.config, request := none, response := some r } ∧
    (r.status = .ok ↔ r.result ≠ none)

/-- `60_exceptions.md` rule R136, column "raised by": each operation writes only the statuses listed for it. -/
def Obligations.EachOperationWritesOnlyItsStatuses : Prop :=
  ∀ (i : Instr) (s t : State) (r : Response), exec i s = .next t → t.response = some r →
    r.status ∈ statusesOf i

/-- No step faults, and the only refusal is of an assigned `op` whose operand record is no operation's. That such
a record is refused is the model's choice (DESIGN CHOICE, log 5): the spec has no such request. -/
def Obligations.StepStopsOnlyOnIllTypedOperands : Prop :=
  ∀ s : State, (∃ t, step s = .next t) ∨
    ∃ r, s.request = some r ∧ r.op ∈ assignedOps ∧ (∀ i, encode i ≠ r) ∧
      step s = .refused (.illTypedOperands r.op)

/-- The response register after reset meets the invariant. -/
def Obligations.ResetMeetsTheResponseInvariant : Prop :=
  State.reset.Inv ∧ ∀ c : CheckedConfig, (State.resetWith c).Inv

/-- Every step keeps the invariant: a response has its result exactly when its status is OK and the info of
R24, and every header, variant and frame in it obeys the entity rules R29, R30 and R31. -/
def Obligations.EveryStepKeepsTheResponseInvariant : Prop :=
  ∀ s t : State, s.Inv → step s = .next t → t.Inv

/-- `10_state.md` rule R18: no program of requests changes the configuration. -/
def Obligations.ProgramsNeverChangeTheConfiguration : Prop :=
  ∀ (s t : State) (rs : List Request) (xs : List Response),
    s.runProgram rs = some (xs, t) → t.config = s.config

/-- `70_reset_and_hazards.md` rule R154: the response to a request depends only on the request and the
configuration: in every state it is the one given right after reset. -/
def Obligations.ResponseDependsOnlyOnRequestAndConfiguration : Prop :=
  ∀ (s : State) (r : Request) (x : Response), s.request = some r → responseTo s.config r = some x →
    step s = .next { config := s.config, request := none, response := some x }

/-- `20_memory.md` rule R44: in a program each request gets the response it would get alone, so the same
requests in any order get, request by request, the same responses. -/
def Obligations.ProgramsAnswerEachRequestAsIfAlone : Prop :=
  ∀ (s : State) (rs : List Request) (xs : List Response), s.request = none →
    rs.mapM (responseTo s.config) = some xs →
    (∃ t, s.runProgram rs = some (xs, t) ∧ t.request = none ∧ t.response = xs.getLast?.or s.response) ∧
    (∀ rs' : List Request, rs'.Perm rs → ∃ xs' t', s.runProgram rs' = some (xs', t') ∧
      (rs'.zip xs').Perm (rs.zip xs))

/-! ## What an item is made of -/

/-- `42_payload.md` rules R93, R99, R100, R108 and R109: a reserved item is present, without a value, and written as
zero bytes; an array is its elements in index order; a figure record is the items of its layout in order. Each part is
decoded where the parts before it end, and the bytes of the parts are written one after the other. -/
def Obligations.ItemsAreMadeOfTheirPartsInOrder : Prop :=
  ∀ (s : State) (b : Bytes) (pos : Nat) (path : FieldPath),
    (∀ it, decodeItem s.config.config b (.plain it) pos path =
        (decodePlain s.config.config b it pos path).map fun r => (r.1.map .plain, r.2)) ∧
    (∀ leaf, decodePlain s.config.config b (.leaf leaf) pos path =
        (decodeLeaf s.config.config b leaf pos path).map fun r => (some (.leaf r.1), r.2)) ∧
    (∀ k, decodePlain s.config.config b (.rsv k) pos path =
        if pos + k ≤ b.length then .ok (none, pos + k) else .error .truncatedPayload) ∧
    (∀ elem n r, decodePlain s.config.config b (.arr elem n) pos path = .ok r ↔
      ∃ xs : List LeafValue, r = (some (.list xs), pos + n * elem.size) ∧ xs.length = n ∧
        ∀ (j : Nat) (x : LeafValue), xs[j]? = some x → decodeLeaf s.config.config b elem (pos + j * elem.size) (path ++ [.index j]) =
          .ok (x, pos + (j + 1) * elem.size)) ∧
    (∀ r, decodeItem s.config.config b .figure pos path = .ok r ↔
      ∃ fig : Fig, r = (some (.record fig), pos + 15) ∧
        fig.length = (s.config.config.figureLayout.filter fun x => !plainReserved x.2).length ∧
        ∀ pre n it post, s.config.config.figureLayout = pre ++ (n, it) :: post →
          decodePlain s.config.config b it (pos + sizeOfItems PlainItem.size pre) (path ++ [.name n]) =
            .ok (valueAfter plainReserved pre it fig, pos + sizeOfItems PlainItem.size pre + it.size)) ∧
    (∀ n r, decodeItem s.config.config b (.figures n) pos path = .ok r ↔
      ∃ figs : List Fig, r = (some (.records figs), pos + n * 15) ∧ figs.length = n ∧
        ∀ (j : Nat) (fig : Fig), figs[j]? = some fig →
          decodeItem s.config.config b .figure (pos + j * 15) (path ++ [.index j]) =
            .ok (some (.record fig), pos + (j + 1) * 15)) ∧
    (∀ it x, encodeItem s.config.config (.plain it) (x.map .plain) = encodePlain it x) ∧
    (∀ leaf x, encodePlain (.leaf leaf) (some (.leaf x)) = encodeLeaf leaf x) ∧
    (∀ k, encodePlain (.rsv k) none = some (List.replicate k 0)) ∧
    (∀ elem n (xs : List LeafValue) (e : Bytes), encodePlain (.arr elem n) (some (.list xs)) = some e ↔
      ∃ es : List Bytes, e = es.flatten ∧ es.length = xs.length ∧
        ∀ (j : Nat) (x : LeafValue), xs[j]? = some x → encodeLeaf elem x = es[j]?) ∧
    (∀ (fig : Fig) (e : Bytes), encodeItem s.config.config .figure (some (.record fig)) = some e ↔
      ∃ es : List Bytes, e = es.flatten ∧ es.length = s.config.config.figureLayout.length ∧
        fig.length = (s.config.config.figureLayout.filter fun x => !plainReserved x.2).length ∧
        ∀ pre n it post, s.config.config.figureLayout = pre ++ (n, it) :: post →
          encodePlain it (valueAfter plainReserved pre it fig) = es[pre.length]?) ∧
    (∀ n (figs : List Fig) (e : Bytes), encodeItem s.config.config (.figures n) (some (.records figs)) = some e ↔
      ∃ es : List Bytes, e = es.flatten ∧ es.length = figs.length ∧
        ∀ (j : Nat) (fig : Fig), figs[j]? = some fig → encodeItem s.config.config .figure (some (.record fig)) = es[j]?)
end

