-- ==== Sys2Proof/Laws/State.lean ====
section
/-! SUPPORT. The state record: one lemma per field and update, and one lemma per operation that ends a
request or that the host performs. -/

namespace Sys2Proof.Machine

/-! ## Fields after an update -/

@[simp] theorem respond_config (s : State) (r : Response) : (s.respond r).config = s.config := rfl
@[simp] theorem respond_request (s : State) (r : Response) : (s.respond r).request = none := rfl
@[simp] theorem respond_response (s : State) (r : Response) : (s.respond r).response = some r := rfl

@[simp] theorem resetWith_config (c : CheckedConfig) : (State.resetWith c).config = c := rfl
@[simp] theorem resetWith_request (c : CheckedConfig) : (State.resetWith c).request = none := rfl
@[simp] theorem resetWith_response (c : CheckedConfig) : (State.resetWith c).response = none := rfl

@[simp] theorem afterReset_config (s : State) : s.afterReset.config = s.config := rfl
@[simp] theorem afterReset_request (s : State) : s.afterReset.request = none := rfl
@[simp] theorem afterReset_response (s : State) : s.afterReset.response = none := rfl

@[simp] theorem withFetchWord_config (s : State) (n w : Nat) : (s.withFetchWord n w).config = s.config := rfl
@[simp] theorem withFetchWord_request (s : State) (n w : Nat) :
    (s.withFetchWord n w).request = some (requestOfWord n w) := rfl
@[simp] theorem withFetchWord_response (s : State) (n w : Nat) :
    (s.withFetchWord n w).response = s.response := rfl

/-! ## Fields of a response -/

@[simp] theorem ok_status (x : Result) : (Response.ok x).status = .ok := rfl
@[simp] theorem ok_info (x : Result) : (Response.ok x).info = none := rfl
@[simp] theorem ok_result (x : Result) : (Response.ok x).result = some x := rfl
@[simp] theorem error_status (e : Error) : (Response.error e).status = e.status := rfl
@[simp] theorem error_info (e : Error) : (Response.error e).info = e.info := rfl
@[simp] theorem error_result (e : Error) : (Response.error e).result = none := rfl

/-- An OK response is one that R22 to R25 allow. -/
theorem ok_wellFormed (x : Result) : (Response.ok x).wellFormed = true := rfl

/-- So is an error response. -/
theorem error_wellFormed (e : Error) : (Response.error e).wellFormed = true := by
  cases e <;> rfl

/-- A status stands in the row its code numbers, beside its name. -/
theorem statusTable_row (s : Status) : statusTable[s.code.toNat]? = some (s, s.text) := by
  cases s <;> decide

/-- An error never reports OK. -/
theorem error_status_ne_ok (e : Error) : e.status ≠ .ok := by
  cases e <;> simp [Error.status]

/-! ## Ending a request -/

/-- The response an operation's outcome gives. -/
def responseOf : Except Error Result → Response
  | .ok x => .ok x
  | .error e => .error e

@[simp] theorem responseOf_ok (x : Result) : responseOf (.ok x) = .ok x := rfl
@[simp] theorem responseOf_error (e : Error) : responseOf (.error e) = .error e := rfl

/-- All that ending a request does: a next state with that response. -/
theorem complete_eq (s : State) (r : Except Error Result) :
    s.complete r = .next (s.respond (responseOf r)) := by
  cases r <;> rfl

theorem responseOf_wellFormed (r : Except Error Result) : (responseOf r).wellFormed = true := by
  cases r with
  | ok x => exact ok_wellFormed x
  | error e => exact error_wellFormed e

/-- Two outcomes of equal responses are equal. -/
theorem responseOf_injective {r r' : Except Error Result} (h : responseOf r = responseOf r') : r = r' := by
  cases r with
  | ok x => cases r' with
    | ok y => simpa [responseOf, Response.ok] using h
    | error e => exact absurd (congrArg Response.status h).symm (error_status_ne_ok e)
  | error e => cases r' with
    | ok y => exact absurd (congrArg Response.status h) (error_status_ne_ok e)
    | error e' =>
      have hs := congrArg Response.status h
      have hi := congrArg Response.info h
      cases e <;> cases e' <;> simp_all [responseOf, Response.error, Error.status, Error.info]

/-- `answers`, for an operation whose meaning is known to be `complete` of an outcome. -/
theorem answers_iff {s : State} {i : Instr} {r : Except Error Result} (h : exec i s = s.complete r)
    (x : Result) : s.answers i x ↔ r = .ok x := by
  rw [State.answers, h, complete_eq]
  constructor
  · intro e
    have e' : responseOf r = responseOf (.ok x) := by
      have := congrArg (fun o => match o with | .next t => t.response | _ => none) e
      simpa [State.respond, Response.ok] using this
    exact responseOf_injective e'
  · rintro rfl
    rfl

/-- `raises`, for an operation whose meaning is known to be `complete` of an outcome. -/
theorem raises_iff {s : State} {i : Instr} {r : Except Error Result} (h : exec i s = s.complete r)
    (e : Error) : s.raises i e ↔ r = .error e := by
  rw [State.raises, h, complete_eq]
  constructor
  · intro q
    have q' : responseOf r = responseOf (.error e) := by
      have := congrArg (fun o => match o with | .next t => t.response | _ => none) q
      simpa [State.respond, Response.error] using this
    exact responseOf_injective q'
  · rintro rfl
    rfl

/-! ## The host's acts -/

/-- All that issuing a request can do. -/
theorem submit_eq_some {s t : State} {r : Request} (h : s.submit r = some t) :
    s.request = none ∧ t.config = s.config ∧ t.request = some r ∧ t.response = s.response := by
  unfold State.submit at h
  split at h
  · next hn => cases h; exact ⟨hn, rfl, rfl, rfl⟩
  · cases h

/-- Reading the response register gives its response or the fault of an empty register. -/
theorem readResponse_cases (s : State) :
    (∃ r, s.response = some r ∧ s.readResponse = .ok r) ∨
      (s.response = none ∧ s.readResponse = .error .noResponse) := by
  unfold State.readResponse
  cases h : s.response with
  | some r => exact .inl ⟨r, rfl, rfl⟩
  | none => exact .inr ⟨rfl, rfl⟩

/-- Reading a result gives it or the fault of an absent one. -/
theorem readResult_cases (r : Response) :
    (∃ x, r.result = some x ∧ r.readResult = .ok x) ∨ (r.result = none ∧ r.readResult = .error .noResult) := by
  unfold Response.readResult
  cases h : r.result with
  | some x => exact .inl ⟨x, rfl, rfl⟩
  | none => exact .inr ⟨rfl, rfl⟩

end Sys2Proof.Machine
end

