-- ==== Sys2Proof/Laws/Bytes.lean ====
section
/-! SUPPORT. The byte primitives: what reading after writing gives, and what writing after reading gives. -/

namespace Sys2Proof.Machine

@[simp] theorem memWrite_length (n v : Nat) : (memWrite n v).length = n := by
  induction n generalizing v with
  | zero => rfl
  | succ n ih => simp [memWrite, ih]

theorem slice_length {b : Bytes} {off n : Nat} (h : off + n ≤ b.length) : (slice b off n).length = n := by
  simp [slice]
  omega

/-- A slice of the middle of a concatenation is the middle. -/
theorem slice_middle (front mid back : Bytes) :
    slice (front ++ mid ++ back) front.length mid.length = mid := by
  simp [slice, List.append_assoc]

/-- A slice that ends inside the first part does not see the second. -/
theorem slice_append_left {b : Bytes} (rest : Bytes) {off n : Nat} (h : off + n ≤ b.length) :
    slice (b ++ rest) off n = slice b off n := by
  unfold slice
  rw [List.drop_append_of_le_length (by omega), List.take_append_of_le_length (by simp; omega)]

/-- Reading inside the first part does not see the second. -/
theorem memRead_append_left {b : Bytes} (rest : Bytes) {off n : Nat} (h : off + n ≤ b.length) :
    memRead (b ++ rest) off n = memRead b off n := by
  rw [memRead, memRead, slice_append_left rest h]

theorem littleEndian_lt (b : Bytes) : littleEndian b < 256 ^ b.length := by
  induction b with
  | nil => simp [littleEndian]
  | cons x xs ih =>
    have hx : x.toNat < 256 := x.isLt
    rw [List.length_cons, pow_succ]
    show x.toNat + 256 * littleEndian xs < _
    omega

/-- Reading back what was written gives the value. -/
theorem littleEndian_memWrite {n v : Nat} (h : v < 256 ^ n) : littleEndian (memWrite n v) = v := by
  induction n generalizing v with
  | zero => simp at h; simp [memWrite, littleEndian, h]
  | succ n ih =>
    have hd : v / 256 < 256 ^ n := by
      rw [pow_succ] at h
      omega
    show (BitVec.ofNat 8 v).toNat + 256 * littleEndian (memWrite n (v / 256)) = v
    rw [ih hd, BitVec.toNat_ofNat]
    omega

/-- Writing what was read gives the bytes back. -/
theorem memWrite_littleEndian (b : Bytes) : memWrite b.length (littleEndian b) = b := by
  induction b with
  | nil => rfl
  | cons x xs ih =>
    have hx : x.toNat < 256 := x.isLt
    have hdiv : (x.toNat + 256 * littleEndian xs) / 256 = littleEndian xs := by omega
    show BitVec.ofNat 8 (x.toNat + 256 * littleEndian xs)
      :: memWrite xs.length ((x.toNat + 256 * littleEndian xs) / 256) = x :: xs
    rw [hdiv, ih]
    congr 1
    apply BitVec.eq_of_toNat_eq
    rw [BitVec.toNat_ofNat]
    omega

theorem memRead_lt {b : Bytes} {off n : Nat} (h : off + n ≤ b.length) : memRead b off n < 256 ^ n := by
  have := littleEndian_lt (slice b off n)
  rwa [slice_length h] at this

/-- Reading a written value at its place gives the value. -/
theorem memRead_memWrite (front back : Bytes) {n v : Nat} (h : v < 256 ^ n) :
    memRead (front ++ memWrite n v ++ back) front.length n = v := by
  have hs := slice_middle front (memWrite n v) back
  rw [memWrite_length] at hs
  rw [memRead, hs, littleEndian_memWrite h]

/-- Writing a read value gives the slice read. -/
theorem memWrite_memRead {b : Bytes} {off n : Nat} (h : off + n ≤ b.length) :
    memWrite n (memRead b off n) = slice b off n := by
  have := memWrite_littleEndian (slice b off n)
  rwa [slice_length h] at this

/-- The two bytes of a u16, low byte first. -/
theorem memWrite_u16 (v : U16) : memWrite 2 v.toNat = [lo8 v, hi8 v] := by
  have low : BitVec.ofNat 8 v.toNat = lo8 v := by
    apply BitVec.eq_of_toNat_eq
    simp [lo8]
  have high : BitVec.ofNat 8 (v.toNat / 256) = hi8 v := by
    apply BitVec.eq_of_toNat_eq
    simp [hi8, Nat.shiftRight_eq_div_pow]
  simp only [memWrite, low, high]

/-- A one-byte write is the byte. -/
theorem memWrite_u8 (v : U8) : memWrite 1 v.toNat = [v] := by
  simp [memWrite]

/-- Reading the two bytes of a u16 gives it back. -/
theorem littleEndian_u16 (v : U16) : littleEndian [lo8 v, hi8 v] = v.toNat := by
  rw [← memWrite_u16]
  exact littleEndian_memWrite (by have := v.isLt; omega)

/-- The bytes of an encoded header (`30_encoding.md` rule R48). -/
theorem headerBytes_eq (h : FrameHeader) :
    headerBytes h = [magic, lo8 h.payloadLength, hi8 h.payloadLength, h.sequence, h.crc8] := by
  simp only [headerBytes, memWrite_u16, memWrite_u8]
  rfl

/-- All that `need` can do. -/
theorem need_cases (b : Bytes) (pos n : Nat) :
    (pos + n ≤ b.length ∧ need b pos n = .ok ()) ∨
      (b.length < pos + n ∧ need b pos n = .error .truncatedPayload) := by
  unfold need
  split
  · next h => exact .inr ⟨h, rfl⟩
  · next h => exact .inl ⟨by omega, rfl⟩

theorem need_ok {b : Bytes} {pos n : Nat} (h : pos + n ≤ b.length) : need b pos n = .ok () := by
  unfold need
  rw [if_neg (by omega)]

theorem need_error {b : Bytes} {pos n : Nat} (h : b.length < pos + n) :
    need b pos n = .error .truncatedPayload := by
  unfold need
  rw [if_pos h]

/-! ## Two's complement (`30_encoding.md` rule R55) -/

theorem rawOfSigned_lt (n : Nat) (v : Int) : rawOfSigned n v < 2 ^ (8 * n) := by
  have hp : (0 : Int) < 2 ^ (8 * n) := by positivity
  have h1 := Int.emod_lt_of_pos v hp
  have h0 := Int.emod_nonneg v hp.ne'
  have : ((rawOfSigned n v : Nat) : Int) < ((2 ^ (8 * n) : Nat) : Int) := by
    rw [rawOfSigned, Int.toNat_of_nonneg h0]
    exact_mod_cast h1
  exact_mod_cast this

/-- A value in range is read back from its raw value. -/
theorem signedOf_rawOfSigned {n : Nat} {v : Int} (hn : 1 ≤ n) (h : inSigned (8 * n) v = true) :
    signedOf n (rawOfSigned n v) = v := by
  simp only [inSigned, Bool.and_eq_true, decide_eq_true_eq] at h
  obtain ⟨lo, hi⟩ := h
  have hp : (0 : Int) < 2 ^ (8 * n) := by positivity
  have hh : (2 : Int) ^ (8 * n) = 2 * 2 ^ (8 * n - 1) := by
    rw [← pow_succ']
    congr 1
    omega
  have h0 := Int.emod_nonneg v hp.ne'
  have hc : ((rawOfSigned n v : Nat) : Int) = v % 2 ^ (8 * n) := Int.toNat_of_nonneg h0
  unfold signedOf
  by_cases hv : 0 ≤ v
  · have he : v % 2 ^ (8 * n) = v := Int.emod_eq_of_lt hv (by omega)
    rw [if_pos, hc, he]
    have : ((rawOfSigned n v : Nat) : Int) < ((2 ^ (8 * n - 1) : Nat) : Int) := by
      rw [hc, he]
      exact_mod_cast hi
    exact_mod_cast this
  · have he : v % 2 ^ (8 * n) = v + 2 ^ (8 * n) := by
      rw [← Int.add_emod_right]
      exact Int.emod_eq_of_lt (by omega) (by omega)
    rw [if_neg, hc, he]
    · ring
    · have : ((2 ^ (8 * n - 1) : Nat) : Int) ≤ ((rawOfSigned n v : Nat) : Int) := by
        rw [hc, he]
        push_cast
        omega
      have := Int.ofNat_le.mp this
      omega

/-- A raw value is written back from its signed reading. -/
theorem rawOfSigned_signedOf {n r : Nat} (h : r < 2 ^ (8 * n)) : rawOfSigned n (signedOf n r) = r := by
  have hr : (r : Int) < 2 ^ (8 * n) := by exact_mod_cast h
  have he : signedOf n r % 2 ^ (8 * n) = r := by
    unfold signedOf
    split
    · exact Int.emod_eq_of_lt (by omega) hr
    · rw [Int.sub_emod_right]
      exact Int.emod_eq_of_lt (by omega) hr
  rw [rawOfSigned, he]
  rfl

end Sys2Proof.Machine
end

