-- ==== Sys2Proof/Laws/Bits.lean ====
section
/-! SUPPORT. The bit cursor: the bits of packed bytes, and what unpacking after packing gives
(`42_payload.md` rules R91, R96, R97). -/

namespace Sys2Proof.Machine

@[simp] theorem putBits_length (w v : Nat) : (putBits w v).length = w := by
  simp [putBits]

@[simp] theorem bitsToBytes_length (bs : List Bool) : (bitsToBytes bs).length = (bs.length + 7) / 8 := by
  simp [bitsToBytes]

/-- The bits of one packed byte, MSB first. -/
theorem getMsbD_packed (b0 b1 b2 b3 b4 b5 b6 b7 : Bool) (i : Fin 8) :
    (BitVec.ofNat 8 ([b0, b1, b2, b3, b4, b5, b6, b7].foldl (fun v b => 2 * v + b.toNat) 0)).getMsbD i
      = [b0, b1, b2, b3, b4, b5, b6, b7].getD i false := by
  revert b0 b1 b2 b3 b4 b5 b6 b7 i
  decide +kernel

theorem byteOfBits_getMsbD (bs : List Bool) (n : Nat) {i : Nat} (h : i < 8) :
    (byteOfBits bs n).getMsbD i = bs.getD (8 * n + i) false := by
  have hb : byteOfBits bs n = BitVec.ofNat 8
      ([bs.getD (8 * n) false, bs.getD (8 * n + 1) false, bs.getD (8 * n + 2) false,
        bs.getD (8 * n + 3) false, bs.getD (8 * n + 4) false, bs.getD (8 * n + 5) false,
        bs.getD (8 * n + 6) false, bs.getD (8 * n + 7) false].foldl (fun v b => 2 * v + b.toNat) 0) := rfl
  rw [hb, getMsbD_packed _ _ _ _ _ _ _ _ ⟨i, h⟩]
  interval_cases i <;> rfl

/-- Bit q of the packed bytes is the q-th bit packed; past the end it is the zero padding. -/
theorem bitAt_bitsToBytes (bs : List Bool) {q : Nat} (h : q / 8 < (bs.length + 7) / 8) :
    bitAt (bitsToBytes bs) q = bs.getD q false := by
  have hq : (bitsToBytes bs).getD (q / 8) 0 = byteOfBits bs (q / 8) := by
    simp [bitsToBytes, List.getD_eq_getElem?_getD, h]
  rw [bitAt, hq, byteOfBits_getMsbD bs (q / 8) (Nat.mod_lt q (by decide)), Nat.div_add_mod]

theorem getBits_lt (g : Bytes) (p w : Nat) : getBits g p w < 2 ^ w := by
  induction w with
  | zero => simp [getBits]
  | succ w ih =>
    have hb : (bitAt g (p + w)).toNat ≤ 1 := Bool.toNat_le _
    show 2 * getBits g p w + (bitAt g (p + w)).toNat < 2 ^ (w + 1)
    rw [pow_succ]
    omega

/-- Fields read from byte sequences that agree on the field's bits are equal. -/
theorem getBits_congr {g g' : Bytes} {p p' w : Nat}
    (h : ∀ i, i < w → bitAt g (p + i) = bitAt g' (p' + i)) : getBits g p w = getBits g' p' w := by
  induction w with
  | zero => rfl
  | succ w ih =>
    show 2 * getBits g p w + _ = 2 * getBits g' p' w + _
    rw [ih fun i hi => h i (by omega), h w (by omega)]

/-- A field is the number its bits spell, MSB first. -/
theorem getBits_eq_of_bits {g : Bytes} {p w v : Nat} (hv : v < 2 ^ w)
    (h : ∀ i, i < w → bitAt g (p + i) = v.testBit (w - 1 - i)) : getBits g p w = v := by
  induction w generalizing v with
  | zero => simp at hv; simp [getBits, hv]
  | succ w ih =>
    have hd : v / 2 < 2 ^ w := by
      rw [pow_succ] at hv
      omega
    have hlast : bitAt g (p + w) = v.testBit 0 := by
      have := h w (by omega)
      rwa [show w + 1 - 1 - w = 0 by omega] at this
    have hi : getBits g p w = v / 2 := by
      refine ih hd fun i hi => ?_
      rw [h i (by omega), ← Nat.testBit_succ]
      congr 1
      omega
    show 2 * getBits g p w + (bitAt g (p + w)).toNat = v
    rw [hi, hlast, Nat.testBit_zero]
    rcases Nat.mod_two_eq_zero_or_one v with h0 | h0 <;> simp [h0] <;> omega

theorem putBits_getD {w v i : Nat} (h : i < w) : (putBits w v).getD i false = v.testBit (w - 1 - i) := by
  simp [putBits, List.getD_eq_getElem?_getD, h]

/-- Unpacking after packing gives the value, wherever the field stands (R97). -/
theorem getBits_packed (front back : List Bool) {w v : Nat} (hv : v < 2 ^ w) :
    getBits (bitsToBytes (front ++ putBits w v ++ back)) front.length w = v := by
  refine getBits_eq_of_bits hv fun i hi => ?_
  rw [bitAt_bitsToBytes _ (by simp; omega)]
  rw [List.getD_append _ _ _ _ (by simp; omega), List.getD_append_right _ _ _ _ (by omega)]
  rw [Nat.add_sub_cancel_left, putBits_getD hi]

/-- The bits of a slice are the bits of the whole, eight per byte skipped. -/
theorem bitAt_slice {b : Bytes} {pos n q : Nat} (h : q < 8 * n) :
    bitAt (slice b pos n) q = bitAt b (8 * pos + q) := by
  have hd : (8 * pos + q) / 8 = pos + q / 8 := by omega
  have hm : (8 * pos + q) % 8 = q % 8 := by omega
  have hlt : q / 8 < n := by omega
  simp [bitAt, slice, hd, hm, List.getD_eq_getElem?_getD, hlt]

end Sys2Proof.Machine
end

