-- ==== Sys2Proof/Laws/Codec.lean ====
section
/-! SUPPORT. Item by item: a value that has its item's shape is encoded, in the item's size, and decoding the
bytes wherever they stand gives the value back (`42_payload.md` rules R93 to R109). -/

namespace Sys2Proof.Machine

/-! ## What a legal configuration gives -/

theorem legal_enumsOk {c : Config} (h : c.legal = true) : c.enumsOk = true := by
  simp only [Config.legal, Config.wellFormed, Bool.and_eq_true] at h
  tauto

theorem legal_layoutsOk {c : Config} (h : c.legal = true) : c.layoutsOk = true := by
  simp only [Config.legal, Config.wellFormed, Bool.and_eq_true] at h
  tauto

theorem legal_figureOk {c : Config} (h : c.legal = true) : c.figureOk = true := by
  simp only [Config.legal, Config.wellFormed, Bool.and_eq_true] at h
  tauto

theorem legal_layerDeleteOk {c : Config} (h : c.legal = true) : c.layerDeleteOk = true := by
  simp only [Config.legal, Config.wellFormed, Bool.and_eq_true] at h
  tauto

theorem lookup_mem {α β : Type} [DecidableEq α] {l : List (α × β)} {a : α} {b : β} (h : l.lookup a = some b) :
    (a, b) ∈ l := by
  induction l with
  | nil => simp at h
  | cons x xs ih =>
    rw [List.lookup_cons] at h
    split at h
    · next he =>
      have : a = x.1 := by simpa using he
      cases h
      simp [this]
    · exact List.mem_cons_of_mem _ (ih h)

/-- A legal raw value fits its enumeration's width (`30_encoding.md` rule R63 item 5). -/
theorem enumLegal_lt {c : Config} (hc : c.legal = true) {e : EnumName} {w raw : Nat}
    (hw : c.enumWidth e = some w) (hr : c.enumLegal e raw = true) : raw < 2 ^ w := by
  have ho := legal_enumsOk hc
  simp only [Config.enumsOk, Bool.and_eq_true, List.all_eq_true, decide_eq_true_eq] at ho
  unfold Config.enumLegal at hr
  unfold Config.enumWidth at hw
  cases hl : c.enums.lookup e with
  | none => rw [hl] at hr; cases hr
  | some d =>
    rw [hl] at hr hw
    obtain rfl : d.width = w := by simpa using hw
    exact (ho.2 _ (lookup_mem hl)).2 raw (by simpa using hr)

/-! ## Coding back -/

/-- Decoding the bytes `e`, wherever they stand, gives `x` and moves the cursor past them. -/
def CodesBack {α : Type} (dec : Bytes → Nat → FieldPath → Except Error (α × Nat)) (x : α) (e : Bytes) : Prop :=
  ∀ front back path, dec (front ++ e ++ back) front.length path = .ok (x, front.length + e.length)

/-- A group's fields are read back from the bits written for them. -/
theorem decodeBits_encodeBits {c : Config} (hc : c.legal = true) (path : FieldPath)
    {gs : List (FieldName × BitItem)} (ok : gs.all (fun g => g.2.ok c) = true) {vs : List BitValue}
    (fits : fitsBits c gs vs = true) :
    ∃ bits, encodeBits gs vs = some bits ∧ bits.length = groupBits gs ∧
      ∀ front back, decodeBits c (bitsToBytes (front ++ bits ++ back)) path gs front.length = .ok vs := by
  induction gs generalizing vs with
  | nil =>
    cases vs with
    | nil => exact ⟨[], rfl, rfl, fun _ _ => rfl⟩
    | cons v vs => simp [fitsBits] at fits
  | cons g gs ih =>
    obtain ⟨n, g⟩ := g
    simp only [List.all_cons, Bool.and_eq_true] at ok
    obtain ⟨okg, okgs⟩ := ok
    -- the rest of the group, read after `w` more bits `b0`
    have rest : ∀ (b0 : List Bool) {vs' : List BitValue} {bits : List Bool},
        (∀ front back, decodeBits c (bitsToBytes (front ++ bits ++ back)) path gs front.length = .ok vs') →
        ∀ front back, decodeBits c (bitsToBytes (front ++ (b0 ++ bits) ++ back)) path gs
          (front.length + b0.length) = .ok vs' := by
      intro b0 vs' bits h front back
      have := h (front ++ b0) back
      simpa [List.append_assoc] using this
    cases g with
    | rb w =>
      obtain ⟨bits, he, hl, hd⟩ := ih okgs (vs := vs) (by simpa [fitsBits] using fits)
      refine ⟨putBits w 0 ++ bits, by simp [encodeBits, he], by simp [groupBits, BitItem.width, hl], ?_⟩
      intro front back
      have := rest (putBits w 0) hd front back
      simpa [decodeBits] using this
    | ub w =>
      cases vs with
      | nil => simp [fitsBits] at fits
      | cons v vs =>
        cases v with
        | enum e raw => simp [fitsBits] at fits
        | int v =>
          simp only [fitsBits, Bool.and_eq_true] at fits
          obtain ⟨hv, hvs⟩ := fits
          simp only [inUnsigned, Bool.and_eq_true, decide_eq_true_eq] at hv
          obtain ⟨bits, he, hl, hd⟩ := ih okgs hvs
          have hv2 : v.toNat < 2 ^ w := by
            have : ((v.toNat : Nat) : Int) < ((2 ^ w : Nat) : Int) := by
              rw [Int.toNat_of_nonneg hv.1]
              exact_mod_cast hv.2
            exact_mod_cast this
          refine ⟨putBits w v.toNat ++ bits, by simp [encodeBits, he],
            by simp [groupBits, BitItem.width, hl], ?_⟩
          intro front back
          have h1 := rest (putBits w v.toNat) hd front back
          have h2 := getBits_packed front (bits ++ back) hv2
          rw [putBits_length] at h1
          simp only [List.append_assoc] at h1 h2 ⊢
          simp [decodeBits, h1, h2, Except.map, Int.toNat_of_nonneg hv.1]
    | eb e w =>
      cases vs with
      | nil => simp [fitsBits] at fits
      | cons v vs =>
        cases v with
        | int v => simp [fitsBits] at fits
        | enum e' raw =>
          simp only [fitsBits, Bool.and_eq_true, beq_iff_eq] at fits
          obtain ⟨⟨rfl, hr⟩, hvs⟩ := fits
          simp only [BitItem.ok, Bool.and_eq_true, beq_iff_eq] at okg
          obtain ⟨bits, he, hl, hd⟩ := ih okgs hvs
          have hlt := enumLegal_lt hc okg.2 hr
          refine ⟨putBits w raw ++ bits, by simp [encodeBits, he],
            by simp [groupBits, BitItem.width, hl], ?_⟩
          intro front back
          have h1 := rest (putBits w raw) hd front back
          have h2 := getBits_packed front (bits ++ back) hlt
          rw [putBits_length] at h1
          simp only [List.append_assoc] at h1 h2 ⊢
          simp [decodeBits, h1, h2, hr, Except.map]

/-- A leaf value of its item's shape is encoded in the item's size and read back. -/
theorem leaf_codesBack {c : Config} (hc : c.legal = true) {it : LeafItem} (ok : it.ok c = true)
    {v : LeafValue} (fits : fitsLeaf c it v = true) :
    ∃ e, encodeLeaf it v = some e ∧ e.length = it.size ∧ CodesBack (fun b => decodeLeaf c b it) v e := by
  have room : ∀ (front e back : Bytes), need (front ++ e ++ back) front.length e.length = .ok () := by
    intro front e back
    exact need_ok (by simp)
  cases it with
  | u k =>
    cases v with
    | int v =>
      simp only [fitsLeaf, inUnsigned, Bool.and_eq_true, decide_eq_true_eq] at fits
      have hv : v.toNat < 256 ^ k := by
        have : ((v.toNat : Nat) : Int) < ((256 ^ k : Nat) : Int) := by
          rw [Int.toNat_of_nonneg fits.1]
          have h2 := fits.2
          rw [pow_mul] at h2
          exact_mod_cast h2
        exact_mod_cast this
      refine ⟨_, rfl, by simp [LeafItem.size], fun front back path => ?_⟩
      have h1 := room front (memWrite k v.toNat) back
      have h2 := memRead_memWrite front back hv
      rw [memWrite_length] at h1
      simp only [decodeLeaf, h1, h2, memWrite_length]
      simp [bind, Except.bind, Int.toNat_of_nonneg fits.1]
    | enum e raw => simp [fitsLeaf] at fits
    | group vs => simp [fitsLeaf] at fits
  | i k =>
    cases v with
    | int v =>
      simp only [fitsLeaf] at fits
      have hk : 1 ≤ k := by
        simp [LeafItem.ok] at ok
        omega
      have hv : rawOfSigned k v < 256 ^ k := by
        have := rawOfSigned_lt k v
        rwa [pow_mul] at this
      refine ⟨_, rfl, by simp [LeafItem.size], fun front back path => ?_⟩
      have h1 := room front (memWrite k (rawOfSigned k v)) back
      have h2 := memRead_memWrite front back hv
      rw [memWrite_length] at h1
      simp only [decodeLeaf, h1, h2, memWrite_length, signedOf_rawOfSigned hk fits]
      simp [bind, Except.bind]
    | enum e raw => simp [fitsLeaf] at fits
    | group vs => simp [fitsLeaf] at fits
  | enum e k =>
    cases v with
    | int v => simp [fitsLeaf] at fits
    | enum e' raw =>
      simp only [fitsLeaf, Bool.and_eq_true, beq_iff_eq] at fits
      obtain ⟨rfl, hr⟩ := fits
      simp only [LeafItem.ok, Bool.and_eq_true, beq_iff_eq] at ok
      have hv : raw < 256 ^ k := by
        have := enumLegal_lt hc ok.2 hr
        rwa [pow_mul] at this
      refine ⟨_, rfl, by simp [LeafItem.size], fun front back path => ?_⟩
      have h1 := room front (memWrite k raw) back
      have h2 := memRead_memWrite front back hv
      rw [memWrite_length] at h1
      simp only [decodeLeaf, h1, h2, memWrite_length, hr]
      simp [bind, Except.bind]
    | group vs => simp [fitsLeaf] at fits
  | bits gs =>
    cases v with
    | int v => simp [fitsLeaf] at fits
    | enum e raw => simp [fitsLeaf] at fits
    | group vs =>
      simp only [fitsLeaf] at fits
      simp only [LeafItem.ok, Bool.and_eq_true, beq_iff_eq] at ok
      obtain ⟨⟨⟨okg, -⟩, h8⟩, -⟩ := ok
      obtain ⟨bits, he, hl, -⟩ := decodeBits_encodeBits hc [] okg fits
      have hlen : (bitsToBytes bits).length = groupBits gs / 8 := by
        rw [bitsToBytes_length, hl]
        omega
      refine ⟨bitsToBytes bits, by simp [encodeLeaf, he], hlen, fun front back path => ?_⟩
      obtain ⟨bits', he', -, hd⟩ := decodeBits_encodeBits hc path okg fits
      obtain rfl : bits' = bits := by
        rw [he] at he'
        exact (Option.some.inj he').symm
      have h1 := room front (bitsToBytes bits') back
      have h2 := slice_middle front (bitsToBytes bits') back
      have h3 := hd [] []
      rw [hlen] at h1 h2
      simp only [List.nil_append, List.append_nil, List.length_nil] at h3
      simp only [decodeLeaf, h1, h2, hlen]
      simp [bind, Except.bind, h3]

/-- Elements coded back one by one are coded back together. -/
theorem array_codesBack {α : Type} {dec : Bytes → Nat → FieldPath → Except Error (α × Nat)}
    {enc : α → Option Bytes} {size : Nat} {xs : List α}
    (h : ∀ x ∈ xs, ∃ e, enc x = some e ∧ e.length = size ∧ CodesBack dec x e) :
    ∃ e, encodeArray enc xs = some e ∧ e.length = xs.length * size ∧
      ∀ j, CodesBack (fun b pos path => decodeArray (dec b) path xs.length j pos) xs e := by
  induction xs with
  | nil =>
    exact ⟨[], rfl, by simp, fun j front back path => by simp [decodeArray]⟩
  | cons x xs ih =>
    obtain ⟨e, he, hl, hd⟩ := h x (by simp)
    obtain ⟨es, hes, hls, hds⟩ := ih fun y hy => h y (List.mem_cons_of_mem _ hy)
    refine ⟨e ++ es, by simp [encodeArray, he, hes], ?_, fun j front back path => ?_⟩
    · rw [List.length_append, hl, hls, List.length_cons, Nat.add_mul]
      omega
    · have h1 := hd front (es ++ back) (path ++ [.index j])
      have h2 := hds (j + 1) (front ++ e) back path
      simp only [List.append_assoc, List.length_append] at h1 h2 ⊢
      simp [decodeArray, h1, h2, bind, Except.bind, Nat.add_assoc]

/-- Items coded back one by one are coded back in order; an absent value is not listed. -/
theorem items_codesBack {ι α : Type} {dec : Bytes → ι → Nat → FieldPath → Except Error (Option α × Nat)}
    {reserved : ι → Bool} {fits : ι → Option α → Bool} {enc : ι → Option α → Option Bytes} {size : ι → Nat}
    {items : List (FieldName × ι)}
    (h : ∀ it ∈ items, ∀ v, fits it.2 v = true →
      ∃ e, enc it.2 v = some e ∧ e.length = size it.2 ∧ CodesBack (fun b => dec b it.2) v e)
    {vs : List α} (ok : fitsItems reserved fits items vs = true) :
    ∃ e, encodeItems reserved enc items vs = some e ∧ e.length = sizeOfItems size items ∧
      CodesBack (fun b pos path => decodeItems (dec b) path items pos) vs e := by
  induction items generalizing vs with
  | nil =>
    cases vs with
    | nil => exact ⟨[], rfl, rfl, fun front back path => by simp [decodeItems]⟩
    | cons v vs => simp [fitsItems] at ok
  | cons it items ih =>
    obtain ⟨n, it⟩ := it
    have tail := fun {vs} => ih (fun it' hit => h it' (List.mem_cons_of_mem _ hit)) (vs := vs)
    have step : ∀ (v : Option α) (vs' : List α), fits it v = true → fitsItems reserved fits items vs' = true →
        ∃ e es, enc it v = some e ∧ encodeItems reserved enc items vs' = some es ∧
          (e ++ es).length = size it + sizeOfItems size items ∧
          CodesBack (fun b pos path => decodeItems (dec b) path ((n, it) :: items) pos) (v.toList ++ vs')
            (e ++ es) := by
      intro v vs' hv hvs
      obtain ⟨e, he, hl, hd⟩ := h (n, it) (by simp) v hv
      obtain ⟨es, hes, hls, hds⟩ := tail hvs
      refine ⟨e, es, he, hes, by simp at hl; simp [hl, hls], fun front back path => ?_⟩
      have h1 := hd front (es ++ back) (path ++ [.name n])
      have h2 := hds (front ++ e) back path
      simp only [List.append_assoc, List.length_append] at h1 h2 ⊢
      simp [decodeItems, h1, h2, bind, Except.bind, Nat.add_assoc]
    by_cases hr : reserved it = true
    · simp only [fitsItems, hr, if_true, Bool.and_eq_true] at ok
      obtain ⟨e, es, he, hes, hl, hd⟩ := step none vs ok.1 ok.2
      exact ⟨e ++ es, by simp [encodeItems, hr, he, hes], hl, hd⟩
    · cases vs with
      | nil => simp [fitsItems, hr] at ok
      | cons v vs =>
        simp only [fitsItems, hr, if_false, Bool.and_eq_true, Bool.false_eq_true] at ok
        obtain ⟨e, es, he, hes, hl, hd⟩ := step (some v) vs ok.1 ok.2
        exact ⟨e ++ es, by simp [encodeItems, hr, he, hes], hl, hd⟩

/-- A plain value of its item's shape is encoded in the item's size and read back. -/
theorem plain_codesBack {c : Config} (hc : c.legal = true) {it : PlainItem} (ok : it.ok c = true)
    {v : Option PlainValue} (fits : fitsPlain c it v = true) :
    ∃ e, encodePlain it v = some e ∧ e.length = it.size ∧ CodesBack (fun b => decodePlain c b it) v e := by
  cases it with
  | leaf it =>
    cases v with
    | none => simp [fitsPlain] at fits
    | some v =>
      cases v with
      | list xs => simp [fitsPlain] at fits
      | leaf v =>
        obtain ⟨e, he, hl, hd⟩ := leaf_codesBack hc (it := it) ok (by simpa [fitsPlain] using fits)
        refine ⟨e, he, hl, fun front back path => ?_⟩
        have := hd front back path
        simp only at this
        simp only [decodePlain, this]
        rfl
  | rsv k =>
    cases v with
    | some v => simp [fitsPlain] at fits
    | none =>
      refine ⟨_, rfl, by simp [PlainItem.size], fun front back path => ?_⟩
      have : need (front ++ memWrite k 0 ++ back) front.length k = .ok () := need_ok (by simp)
      simp only [decodePlain, this, memWrite_length]
      simp [Except.map]
  | arr el n =>
    cases v with
    | none => simp [fitsPlain] at fits
    | some v =>
      cases v with
      | leaf v => simp [fitsPlain] at fits
      | list xs =>
        simp only [fitsPlain, Bool.and_eq_true, decide_eq_true_eq, List.all_eq_true] at fits
        simp only [PlainItem.ok, Bool.and_eq_true] at ok
        obtain ⟨rfl, hx⟩ := fits
        obtain ⟨e, he, hl, hd⟩ := array_codesBack (enc := encodeLeaf el) fun x hxs =>
          leaf_codesBack hc ok.1 (hx x hxs)
        refine ⟨e, he, hl, fun front back path => ?_⟩
        have := hd 0 front back path
        simp only at this
        simp only [decodePlain, this]
        rfl

/-- A figure record of its layout's shape is encoded in 15 bytes and read back. -/
theorem figure_codesBack {c : Config} (hc : c.legal = true) {vs : Fig} (fits : fitsFigure c vs = true) :
    ∃ e, encodeFigure c vs = some e ∧ e.length = figureSize ∧ CodesBack (decodeFigure c) vs e := by
  have hf := legal_figureOk hc
  simp only [Config.figureOk, itemsOk, Bool.and_eq_true, List.all_eq_true, beq_iff_eq] at hf
  obtain ⟨⟨hok, -⟩, hsize⟩ := hf
  obtain ⟨e, he, hl, hd⟩ := items_codesBack (dec := decodePlain c) (enc := encodePlain)
    (size := PlainItem.size) (fun it hit v hv => plain_codesBack hc (hok it hit) hv) fits
  exact ⟨e, he, hl.trans hsize, hd⟩

/-- A value of its item's shape is encoded in the item's size and read back. -/
theorem item_codesBack {c : Config} (hc : c.legal = true) {it : Item} (ok : it.ok c = true)
    {v : Option Value} (fits : fitsItem c it v = true) :
    ∃ e, encodeItem c it v = some e ∧ e.length = it.size ∧ CodesBack (fun b => decodeItem c b it) v e := by
  cases it with
  | plain it =>
    have main : ∀ pv : Option PlainValue, fitsPlain c it pv = true →
        ∃ e, encodePlain it pv = some e ∧ e.length = it.size ∧
          CodesBack (fun b => decodeItem c b (.plain it)) (pv.map .plain) e := by
      intro pv hpv
      obtain ⟨e, he, hl, hd⟩ := plain_codesBack hc (it := it) ok hpv
      refine ⟨e, he, hl, fun front back path => ?_⟩
      have := hd front back path
      simp only at this
      simp only [decodeItem, this]
      rfl
    cases v with
    | none => exact main none (by simpa [fitsItem] using fits)
    | some v =>
      cases v with
      | plain v => exact main (some v) (by simpa [fitsItem] using fits)
      | record vs => simp [fitsItem] at fits
      | records xs => simp [fitsItem] at fits
      | bytes d => simp [fitsItem] at fits
  | figure =>
    cases v with
    | none => simp [fitsItem] at fits
    | some v =>
      cases v with
      | plain v => simp [fitsItem] at fits
      | records xs => simp [fitsItem] at fits
      | bytes d => simp [fitsItem] at fits
      | record vs =>
        obtain ⟨e, he, hl, hd⟩ := figure_codesBack hc (vs := vs) (by simpa [fitsItem] using fits)
        refine ⟨e, he, hl, fun front back path => ?_⟩
        simp only [decodeItem, hd front back path]
        rfl
  | figures n =>
    cases v with
    | none => simp [fitsItem] at fits
    | some v =>
      cases v with
      | plain v => simp [fitsItem] at fits
      | record vs => simp [fitsItem] at fits
      | bytes d => simp [fitsItem] at fits
      | records xs =>
        simp only [fitsItem, Bool.and_eq_true, decide_eq_true_eq, List.all_eq_true] at fits
        obtain ⟨rfl, hx⟩ := fits
        obtain ⟨e, he, hl, hd⟩ := array_codesBack (enc := encodeFigure c) fun x hxs =>
          figure_codesBack hc (hx x hxs)
        refine ⟨e, he, hl, fun front back path => ?_⟩
        have := hd 0 front back path
        simp only at this
        simp only [decodeItem, this]
        rfl

end Sys2Proof.Machine
end

