-- ==== Sys2Proof/Laws/Cursor.lean ====
section
/-! SUPPORT. All that a decoder can do, item by item: a value of the item's shape with the cursor moved by the
item's size; `TruncatedPayload`, where the bytes end before that; or `InvalidEnumValue`
(`42_payload.md` rules R93 to R100). -/

namespace Sys2Proof.Machine

/-- What a decoder of `size` bytes at `pos` gives: a fitting value and the moved cursor, or one of the two
item errors of `60_exceptions.md` rule R148 item 4. -/
def DecodesAs {α : Type} (size : Nat) (fits : α → Prop) (b : Bytes) (pos : Nat) :
    Except Error (α × Nat) → Prop
  | .ok (v, p) => p = pos + size ∧ p ≤ b.length ∧ fits v
  | .error .truncatedPayload => b.length < pos + size
  | .error (.invalidEnumValue _ _) => True
  | .error _ => False

/-- A decoder that gives a value. -/
theorem DecodesAs.ok {α : Type} {size : Nat} {fits : α → Prop} {b : Bytes} {pos : Nat} {v : α}
    (h : pos + size ≤ b.length) (hv : fits v) : DecodesAs size fits b pos (.ok (v, pos + size)) :=
  ⟨rfl, h, hv⟩

/-- One decoder and then another, their values put together. -/
theorem DecodesAs.andThen {α β γ : Type} {m n : Nat} {fitsA : α → Prop} {fitsB : β → Prop} {fitsC : γ → Prop}
    {b : Bytes} {pos : Nat} {r : Except Error (α × Nat)} {tail : Nat → Except Error (β × Nat)} (g : α → β → γ)
    (h : DecodesAs m fitsA b pos r)
    (ht : pos + m ≤ b.length → DecodesAs n fitsB b (pos + m) (tail (pos + m)))
    (hg : ∀ x y, fitsA x → fitsB y → fitsC (g x y)) :
    DecodesAs (m + n) fitsC b pos (r >>= fun x => tail x.2 >>= fun y => .ok (g x.1 y.1, y.2)) := by
  match r, h with
  | .ok (v, p), ⟨hp, hle, hv⟩ =>
    subst hp
    have htail := ht hle
    show DecodesAs _ _ b pos (tail (pos + m) >>= _)
    match tail (pos + m), htail with
    | .ok (w, q), ⟨hq, hle', hw⟩ => exact ⟨by omega, hle', hg v w hv hw⟩
    | .error .truncatedPayload, hlt =>
      show b.length < pos + (m + n)
      have : b.length < pos + m + n := hlt
      omega
    | .error (.invalidEnumValue _ _), _ => trivial
  | .error .truncatedPayload, h =>
    show b.length < pos + (m + n)
    have : b.length < pos + m := h
    omega
  | .error (.invalidEnumValue _ _), _ => trivial

/-- A decoder whose value is rewritten. -/
theorem DecodesAs.map {α β : Type} {n : Nat} {fitsA : α → Prop} {fitsB : β → Prop} {b : Bytes} {pos : Nat}
    {r : Except Error (α × Nat)} (g : α → β) (h : DecodesAs n fitsA b pos r)
    (hg : ∀ v, fitsA v → fitsB (g v)) :
    DecodesAs n fitsB b pos (r.map fun x => (g x.1, x.2)) := by
  match r, h with
  | .ok (v, p), ⟨hp, hle, hv⟩ => exact ⟨hp, hle, hg v hv⟩
  | .error .truncatedPayload, h => exact h
  | .error (.invalidEnumValue _ _), _ => trivial

/-- The fields of a group: values of its shape, or the first illegal enumeration value. -/
theorem decodeBits_cases (c : Config) (grp : Bytes) (path : FieldPath) (gs : List (FieldName × BitItem))
    (s : Nat) :
    (∃ vs, decodeBits c grp path gs s = .ok vs ∧ fitsBits c gs vs = true) ∨
      ∃ f r, decodeBits c grp path gs s = .error (.invalidEnumValue f r) := by
  induction gs generalizing s with
  | nil => exact .inl ⟨[], rfl, rfl⟩
  | cons g gs ih =>
    obtain ⟨n, g⟩ := g
    rcases ih (s + g.width) with ⟨vs, hv, hf⟩ | ⟨f, r, he⟩
    · cases g with
      | ub w =>
        have hlt := getBits_lt grp s w
        refine .inl ⟨.int (getBits grp s w) :: vs, ?_, ?_⟩
        · simp only [BitItem.width] at hv
          simp only [decodeBits, hv]
          rfl
        · have : (getBits grp s w : Int) < 2 ^ w := by exact_mod_cast hlt
          simp [fitsBits, inUnsigned, this, hf]
      | eb e w =>
        simp only [BitItem.width] at hv
        by_cases hl : c.enumLegal e (getBits grp s w) = true
        · refine .inl ⟨.enum e (getBits grp s w) :: vs, ?_, by simp [fitsBits, hl, hf]⟩
          simp only [decodeBits, hl, hv]
          rfl
        · exact .inr ⟨_, _, by simp only [decodeBits, hl]; rfl⟩
      | rb w =>
        simp only [BitItem.width] at hv
        exact .inl ⟨vs, by simp only [decodeBits, hv], by simp only [fitsBits, hf]⟩
    · cases g with
      | ub w =>
        simp only [BitItem.width] at he
        exact .inr ⟨f, r, by simp only [decodeBits, he]; rfl⟩
      | eb e w =>
        simp only [BitItem.width] at he
        by_cases hl : c.enumLegal e (getBits grp s w) = true
        · exact .inr ⟨f, r, by simp only [decodeBits, hl, he]; rfl⟩
        · exact .inr ⟨_, _, by simp only [decodeBits, hl]; rfl⟩
      | rb w =>
        simp only [BitItem.width] at he
        exact .inr ⟨f, r, by simp only [decodeBits, he]⟩

theorem leaf_decodesAs {c : Config} (b : Bytes) {it : LeafItem} (ok : it.ok c = true) (pos : Nat)
    (path : FieldPath) :
    DecodesAs it.size (fun v => fitsLeaf c it v = true) b pos (decodeLeaf c b it pos path) := by
  rcases need_cases b pos it.size with ⟨hle, hn⟩ | ⟨hlt, hn⟩
  · cases it with
    | u k =>
      simp only [LeafItem.size] at hle hn
      simp only [decodeLeaf, hn]
      refine DecodesAs.ok hle ?_
      have hr := memRead_lt hle
      have : (memRead b pos k : Int) < 2 ^ (8 * k) := by
        rw [pow_mul]
        exact_mod_cast hr
      simp [fitsLeaf, inUnsigned, this]
    | i k =>
      simp only [LeafItem.size] at hle hn
      simp only [decodeLeaf, hn]
      refine DecodesAs.ok hle ?_
      have hk : 1 ≤ k := by
        simp [LeafItem.ok] at ok
        omega
      have hr : memRead b pos k < 2 ^ (8 * k) := by
        have := memRead_lt hle
        rw [pow_mul]
        exact this
      have hi : (memRead b pos k : Int) < 2 ^ (8 * k) := by exact_mod_cast hr
      have hh : (2 : Int) ^ (8 * k) = 2 * 2 ^ (8 * k - 1) := by
        rw [← pow_succ']
        congr 1
        omega
      have hp : (0 : Int) < 2 ^ (8 * k - 1) := by positivity
      have hcases : -(2 ^ (8 * k - 1)) ≤ signedOf k (memRead b pos k) ∧
          signedOf k (memRead b pos k) < 2 ^ (8 * k - 1) := by
        unfold signedOf
        split
        · next h =>
          have : (memRead b pos k : Int) < 2 ^ (8 * k - 1) := by exact_mod_cast h
          exact ⟨by omega, this⟩
        · next h =>
          have : (2 : Int) ^ (8 * k - 1) ≤ (memRead b pos k : Int) := by
            have := Nat.le_of_not_lt h
            exact_mod_cast this
          exact ⟨by omega, by omega⟩
      simp only [fitsLeaf, inSigned, Bool.and_eq_true, decide_eq_true_eq]
      exact hcases
    | enum e k =>
      simp only [LeafItem.size] at hle hn
      simp only [decodeLeaf, hn]
      by_cases hl : c.enumLegal e (memRead b pos k) = true
      · simp only [hl]
        exact DecodesAs.ok hle (by simp [fitsLeaf, hl])
      · simp only [hl]
        trivial
    | bits gs =>
      simp only [LeafItem.size] at hle hn
      simp only [decodeLeaf, hn]
      rcases decodeBits_cases c (slice b pos (groupBits gs / 8)) path gs 0 with ⟨vs, hv, hf⟩ | ⟨f, r, he⟩
      · simp only [hv]
        exact DecodesAs.ok hle (by simpa [fitsLeaf] using hf)
      · simp only [he]
        trivial
  · cases it <;> simp only [LeafItem.size] at hlt hn <;> simp only [decodeLeaf, hn] <;> exact hlt

theorem array_decodesAs {α : Type} {size : Nat} {fits : α → Prop} {b : Bytes}
    {dec : Nat → FieldPath → Except Error (α × Nat)} (h : ∀ pos path, pos ≤ b.length → DecodesAs size fits b pos (dec pos path))
    (path : FieldPath) (n j pos : Nat) (hpos : pos ≤ b.length) :
    DecodesAs (n * size) (fun xs => xs.length = n ∧ ∀ x ∈ xs, fits x) b pos (decodeArray dec path n j pos) := by
  induction n generalizing j pos with
  | zero =>
    have := DecodesAs.ok (size := 0) (fits := fun xs : List α => xs.length = 0 ∧ ∀ x ∈ xs, fits x)
      (b := b) (pos := pos) (v := []) (by omega) (by simp)
    simpa [decodeArray] using this
  | succ n ih =>
    rw [show (n + 1) * size = size + n * size by ring]
    refine (h pos (path ++ [.index j]) hpos).andThen (tail := decodeArray dec path n (j + 1)) (· :: ·)
      (fun hle => ih (j + 1) (pos + size) hle) fun x xs hx hxs => ?_
    refine ⟨by simp [hxs.1], fun y hy => ?_⟩
    rcases List.mem_cons.mp hy with rfl | hy
    · exact hx
    · exact hxs.2 y hy

theorem items_decodesAs {ι α : Type} {reserved : ι → Bool} {fits : ι → Option α → Bool} {size : ι → Nat}
    {b : Bytes} {dec : ι → Nat → FieldPath → Except Error (Option α × Nat)} {items : List (FieldName × ι)}
    (h : ∀ it ∈ items, ∀ pos path, pos ≤ b.length →
      DecodesAs (size it.2) (fun v => fits it.2 v = true ∧ (reserved it.2 = true ↔ v = none)) b pos
        (dec it.2 pos path))
    (path : FieldPath) (pos : Nat) (hpos : pos ≤ b.length) :
    DecodesAs (sizeOfItems size items) (fun vs => fitsItems reserved fits items vs = true) b pos
      (decodeItems dec path items pos) := by
  induction items generalizing pos with
  | nil => exact DecodesAs.ok (size := 0) (by omega) rfl
  | cons it items ih =>
    obtain ⟨n, it⟩ := it
    refine (h (n, it) (by simp) pos (path ++ [.name n]) hpos).andThen (tail := decodeItems dec path items)
      (fun v vs => v.toList ++ vs)
      (fun hle => ih (fun it' hit => h it' (List.mem_cons_of_mem _ hit)) (pos + size it) hle)
      fun v vs hv hvs => ?_
    obtain ⟨hf, hr⟩ := hv
    simp only at hf hr
    cases v with
    | none =>
      have : reserved it = true := hr.mpr rfl
      simp [fitsItems, this, hf, hvs]
    | some v =>
      have : reserved it = false := by
        cases hq : reserved it with
        | false => rfl
        | true => exact absurd (hr.mp hq) (by simp)
      simp [fitsItems, this, hf, hvs]

theorem plain_decodesAs {c : Config} (b : Bytes) {it : PlainItem} (ok : it.ok c = true) (pos : Nat)
    (path : FieldPath) (hpos : pos ≤ b.length) :
    DecodesAs it.size (fun v => fitsPlain c it v = true ∧ (plainReserved it = true ↔ v = none)) b pos
      (decodePlain c b it pos path) := by
  cases it with
  | leaf it =>
    refine (leaf_decodesAs b (it := it) ok pos path).map (fun v => some (PlainValue.leaf v)) fun v hv => ?_
    exact ⟨hv, by simp [plainReserved]⟩
  | rsv k =>
    rcases need_cases b pos k with ⟨hle, hn⟩ | ⟨hlt, hn⟩
    · simp only [decodePlain, hn]
      exact DecodesAs.ok (size := k) hle ⟨rfl, by simp [plainReserved]⟩
    · simp only [decodePlain, hn]
      exact hlt
  | arr el n =>
    simp only [PlainItem.ok, Bool.and_eq_true] at ok
    refine (array_decodesAs (fun p q _ => leaf_decodesAs b ok.1 p q) path n 0 pos hpos).map
      (fun xs => some (PlainValue.list xs)) fun xs hx => ?_
    refine ⟨?_, by simp [plainReserved]⟩
    simp only [fitsPlain, Bool.and_eq_true, decide_eq_true_eq, List.all_eq_true]
    exact hx

theorem figure_decodesAs {c : Config} (hc : c.legal = true) (b : Bytes) (pos : Nat) (path : FieldPath)
    (hpos : pos ≤ b.length) :
    DecodesAs figureSize (fun vs => fitsFigure c vs = true) b pos (decodeFigure c b pos path) := by
  have hf := legal_figureOk hc
  simp only [Config.figureOk, itemsOk, Bool.and_eq_true, List.all_eq_true, beq_iff_eq] at hf
  obtain ⟨⟨hok, -⟩, hsize⟩ := hf
  have := items_decodesAs (dec := decodePlain c b) (size := PlainItem.size)
    (fun it hit p q hp => plain_decodesAs b (hok it hit) p q hp) path pos hpos
  rwa [hsize] at this

theorem item_decodesAs {c : Config} (hc : c.legal = true) (b : Bytes) {it : Item} (ok : it.ok c = true)
    (pos : Nat) (path : FieldPath) (hpos : pos ≤ b.length) :
    DecodesAs it.size (fun v => fitsItem c it v = true ∧ (itemReserved it = true ↔ v = none)) b pos
      (decodeItem c b it pos path) := by
  cases it with
  | plain it =>
    refine (plain_decodesAs b (it := it) ok pos path hpos).map (Option.map Value.plain) fun v hv => ?_
    cases v with
    | none => exact ⟨hv.1, by simpa [itemReserved] using hv.2⟩
    | some v => exact ⟨hv.1, by simpa [itemReserved] using hv.2⟩
  | figure =>
    refine (figure_decodesAs hc b pos path hpos).map (fun vs => some (Value.record vs)) fun vs hvs => ?_
    exact ⟨hvs, by simp [itemReserved]⟩
  | figures n =>
    refine DecodesAs.map (fun xs => some (Value.records xs))
      (array_decodesAs (fits := fun vs => fitsFigure c vs = true) ?_ path n 0 pos hpos) fun xs hx => ?_
    · exact fun p q hp => figure_decodesAs hc b p q hp
    · refine ⟨?_, by simp [itemReserved]⟩
      simp only [fitsItem, Bool.and_eq_true, decide_eq_true_eq, List.all_eq_true]
      exact hx

end Sys2Proof.Machine
end

