-- ==== Sys2Proof/Laws/Exec.lean ====
section
/-! SUPPORT. Each operation as the end of a request with an outcome: with `answers_iff` and `raises_iff` a
statement about an operation becomes one about its outcome, a function of the operands and the
configuration. -/

namespace Sys2Proof.Machine

/-- The outcome of an operation under a configuration: its result or the error it raises. -/
def outcome (c : Config) : Instr → Except Error Result
  | .crc8 data => .ok (.crc8 (crc8 data))
  | .crc16 data => .ok (.crc16 (crc16 data))
  | .hdrDecode bytes => (headerDecode bytes).map .header
  | .hdrEncode hdr => .ok (.bytes (headerBytes hdr))
  | .hdrRecompute len sequence => .ok (.header (headerRecompute len sequence))
  | .payDecode tag bytes declared => (payloadDecode c tag bytes declared).map .variant
  | .payEncode v => (payloadBytes c v).map .bytes
  | .bitsUnpack bytes bitpos width => (bitsUnpack bytes bitpos width).map .value
  | .bitsPack fields => (bitsPack fields).map .bytes
  | .frameBuild sequence payload => (frameBuild c sequence payload).map .frame
  | .frameEncode frame => (frameEncode c frame).map .bytes
  | .frameDecode bytes => (frameDecode c bytes).map fun r => .decoded r.1 r.2
  | .tailCheck bytes => (tailCheck bytes).map .tail
  | .ixDispatch rid => (ixDispatch c rid).map .interaction

/-- Every operation ends its request with its outcome, and does nothing else. -/
theorem exec_eq (i : Instr) (s : State) : exec i s = s.complete (outcome s.config.config i) := by
  cases i <;> rfl

theorem answers_outcome (s : State) (i : Instr) (x : Result) :
    s.answers i x ↔ outcome s.config.config i = .ok x :=
  answers_iff (exec_eq i s) x

theorem raises_outcome (s : State) (i : Instr) (e : Error) :
    s.raises i e ↔ outcome s.config.config i = .error e :=
  raises_iff (exec_eq i s) e

/-- The outcome of an operation decides its response in every state of that configuration. -/
theorem exec_congr {s : State} {i j : Instr} (h : outcome s.config.config i = outcome s.config.config j) :
    exec i s = exec j s := by
  rw [exec_eq, exec_eq, h]

end Sys2Proof.Machine
end

