-- ==== Sys2Proof/Laws/Payload.lean ====
section
/-! SUPPORT. Whole layouts: every layout of a legal configuration obeys the item constraints, a body of a
well-formed variant is always encoded, and what decoding a body can give. -/

namespace Sys2Proof.Machine

/-- Every item of a fixed-size layout of a legal configuration obeys R55 to R59. -/
theorem layoutOf_fixed_ok {c : Config} (hc : c.legal = true) {tag : U16} {items : List (FieldName × Item)}
    (h : c.layoutOf tag = some (.fixed items)) : ∀ it ∈ items, it.2.ok c = true := by
  unfold Config.layoutOf at h
  split at h
  · simp at h
  · cases hl : c.layouts.lookup tag with
    | none => rw [hl] at h; simp at h
    | some its =>
      rw [hl] at h
      obtain rfl : its = items := by simpa using h
      have ho := legal_layoutsOk hc
      simp only [Config.layoutsOk, List.all_eq_true, itemsOk, Bool.and_eq_true] at ho
      exact (ho _ (lookup_mem hl)).1

/-- `TAG_RID` has the RID layout, and no other tag has. -/
theorem layoutOf_rid {c : Config} {tag : U16} : c.layoutOf tag = some .rid ↔ tag = c.tagRid := by
  unfold Config.layoutOf
  split
  · next h => simp [h]
  · next h => cases c.layouts.lookup tag <;> simp [h]

/-- A tag has a layout exactly when it is in `TAGS`. -/
theorem layoutOf_isSome {c : Config} {tag : U16} : (c.layoutOf tag).isSome = true ↔ tag ∈ c.tags := by
  unfold Config.layoutOf Config.tags
  have : ∀ l : List (U16 × List (FieldName × Item)), (l.lookup tag).isSome = true ↔ tag ∈ l.map (·.1) := by
    intro l
    induction l with
    | nil => simp
    | cons x xs ih =>
      rw [List.lookup_cons]
      split
      · next h => simp [show tag = x.1 by simpa using h]
      · next h =>
        have : ¬ tag = x.1 := by simpa using h
        rw [ih]
        simp [this]
  split
  · next h => simp [h]
  · next h =>
    rw [List.mem_cons, ← this]
    simp [h]

theorem endpointId_width {c : Config} (hc : c.legal = true) : c.enumWidth .endpointId = some 16 := by
  have ho := legal_enumsOk hc
  simp only [Config.enumsOk, Bool.and_eq_true, beq_iff_eq] at ho
  exact ho.1.2

/-- The fixed items of R61 obey the constraints under every legal configuration. -/
theorem ridItems_ok {c : Config} (hc : c.legal = true) : ∀ it ∈ ridItems, it.2.ok c = true := by
  intro it hit
  simp only [ridItems, List.mem_cons, List.not_mem_nil, or_false] at hit
  rcases hit with rfl | rfl | rfl <;>
    simp [Item.ok, PlainItem.ok, LeafItem.ok, endpointId_width hc]

/-- All that decoding a body can do. -/
theorem body_decodesAs {c : Config} (hc : c.legal = true) {items : List (FieldName × Item)}
    (ok : ∀ it ∈ items, it.2.ok c = true) (b : Bytes) :
    DecodesAs (sizeOfItems Item.size items) (fun vs => fitsItems itemReserved (fitsItem c) items vs = true) b 0
      (decodeBody c items b) :=
  items_decodesAs (dec := decodeItem c b) (fun it hit p q hp => item_decodesAs hc b (ok it hit) p q hp) [] 0
    (Nat.zero_le _)

/-- Values of a layout's shape are encoded in the layout's size and read back, wherever they stand. -/
theorem body_codesBack {c : Config} (hc : c.legal = true) {items : List (FieldName × Item)}
    (ok : ∀ it ∈ items, it.2.ok c = true) {vs : List Value}
    (fits : fitsItems itemReserved (fitsItem c) items vs = true) :
    ∃ e, encodeItems itemReserved (encodeItem c) items vs = some e ∧ e.length = sizeOfItems Item.size items ∧
      CodesBack (fun b pos path => decodeItems (decodeItem c b) path items pos) vs e :=
  items_codesBack (dec := decodeItem c) (fun it hit _ hv => item_codesBack hc (ok it hit) hv) fits

/-- The body of a well-formed variant is always encoded: PAY_ENCODE fails only where R107 does. -/
theorem encodeBody_isSome {c : Config} (hc : c.legal = true) {v : Variant} (h : variantOk c v = true) :
    ∃ layout body, c.layoutOf v.tag = some layout ∧ encodeBody c layout v.values = some body := by
  unfold variantOk at h
  cases hl : c.layoutOf v.tag with
  | none => rw [hl] at h; cases h
  | some layout =>
    rw [hl] at h
    cases layout with
    | fixed items =>
      obtain ⟨e, he, -, -⟩ := body_codesBack hc (layoutOf_fixed_ok hc hl) (by simpa [fitsLayout] using h)
      exact ⟨_, e, rfl, he⟩
    | rid =>
      revert h
      simp only
      match v.values with
      | [subtag, sender, receiver, .bytes data] =>
        intro h
        simp only [fitsLayout, Bool.and_eq_true] at h
        obtain ⟨e, he, -, -⟩ := body_codesBack hc (ridItems_ok hc) h.1
        exact ⟨_, e ++ data, rfl, by simp [encodeBody, he]⟩
      | [] => simp [fitsLayout]
      | [_] => simp [fitsLayout]
      | [_, _] => simp [fitsLayout]
      | [_, _, _] => simp [fitsLayout]
      | [_, _, _, .plain _] => simp [fitsLayout]
      | [_, _, _, .record _] => simp [fitsLayout]
      | [_, _, _, .records _] => simp [fitsLayout]
      | _ :: _ :: _ :: _ :: _ :: _ => simp [fitsLayout]

/-- What a group with a shared byte looks like: the two fields one after the other, the bits where they meet in
one byte. -/
theorem sharesByte_split {gs : List (FieldName × BitItem)} {s : Nat} (h : sharesByte gs s = true) :
    ∃ pre n v m w post, gs = pre ++ (n, .ub v) :: (m, .ub w) :: post ∧ (v = 12 ∧ w = 4 ∨ v = 4 ∧ w = 12) ∧
      (s + groupBits pre + v - 1) / 8 = (s + groupBits pre + v) / 8 := by
  fun_induction sharesByte gs s with
  | case1 =>
    rename_i n v m w gs s ih
    simp only [Bool.or_eq_true, Bool.and_eq_true, beq_iff_eq] at h
    rcases h with ⟨hw, hs⟩ | h
    · exact ⟨[], n, v, m, w, gs, rfl, hw, by simpa [groupBits] using hs⟩
    · obtain ⟨pre, n', v', m', w', post, rfl', hw, hs⟩ := ih h
      exact ⟨(n, .ub v) :: pre, n', v', m', w', post, by rw [rfl']; rfl, hw, by
        simpa [groupBits, BitItem.width, Nat.add_assoc] using hs⟩
  | case2 =>
    rename_i n g gs s _ ih
    obtain ⟨pre, n', v', m', w', post, rfl', hw, hs⟩ := ih h
    exact ⟨(n, g) :: pre, n', v', m', w', post, by rw [rfl']; rfl, hw, by
      simpa [groupBits, Nat.add_assoc] using hs⟩
  | case3 => cases h

/-- In a map with one entry for each key, every entry is what its key is looked up as. -/
theorem lookup_of_mem {α β : Type} [BEq α] [LawfulBEq α] {k : α} {v : β} {l : List (α × β)}
    (hn : (l.map (·.1)).Nodup) (h : (k, v) ∈ l) : l.lookup k = some v := by
  induction l with
  | nil => cases h
  | cons x xs ih =>
    rw [List.map_cons, List.nodup_cons] at hn
    rw [List.lookup_cons]
    rcases List.mem_cons.mp h with rfl | h
    · simp
    · have hk : k ∈ xs.map (·.1) := List.mem_map.mpr ⟨_, h, rfl⟩
      have : ¬ k = x.1 := fun e => hn.1 (e ▸ hk)
      simp [beq_eq_false_iff_ne.mpr this, ih hn.2 h]

end Sys2Proof.Machine
end

