-- ==== Sys2Proof/Laws/Interaction.lean ====
section
/-! SUPPORT. The interaction layouts: each obeys the item constraints and has the size of
`44_interaction.md` rule R124, and a decoded value list always is one of the records of `10_state.md` R32. -/

namespace Sys2Proof.Machine

theorem ixLayout_size {c : Config} (hc : c.legal = true) (v : IxVariant) :
    sizeOfItems Item.size (c.ixLayout v) = ixSize v := by
  cases v with
  | layerDelete =>
    have hl := legal_layerDeleteOk hc
    simp only [Config.layerDeleteOk, Bool.and_eq_true, beq_iff_eq] at hl
    have : ∀ items : List (FieldName × PlainItem),
        sizeOfItems Item.size (items.map fun p => (p.1, Item.plain p.2)) = sizeOfItems PlainItem.size items := by
      intro items
      induction items with
      | nil => rfl
      | cons it items ih => simp [sizeOfItems, Item.size, ih]
    exact (this _).trans hl.2
  | _ => rfl

theorem ixLayout_ok {c : Config} (hc : c.legal = true) (v : IxVariant) :
    ∀ it ∈ c.ixLayout v, it.2.ok c = true := by
  cases v with
  | layerDelete =>
    have hl := legal_layerDeleteOk hc
    simp only [Config.layerDeleteOk, itemsOk, Bool.and_eq_true, List.all_eq_true] at hl
    intro it hit
    obtain ⟨p, hp, rfl⟩ := List.mem_map.mp hit
    exact hl.1.1 p hp
  | _ =>
    intro it hit
    simp only [Config.ixLayout, sentryLayout, radarLayout, List.mem_cons, List.not_mem_nil, or_false] at hit
    first
      | (subst hit; rfl)
      | (rcases hit with rfl | rfl <;> rfl)

/-- A list of `u(1)` values that fit stands for bytes. -/
theorem bytesOfLeaves_isSome {c : Config} {xs : List LeafValue} (h : ∀ x ∈ xs, fitsLeaf c (.u 1) x = true) :
    ∃ b, bytesOfLeaves xs = some b := by
  induction xs with
  | nil => exact ⟨[], rfl⟩
  | cons x xs ih =>
    obtain ⟨b, hb⟩ := ih fun y hy => h y (List.mem_cons_of_mem _ hy)
    cases x with
    | int v => exact ⟨BitVec.ofInt 8 v :: b, by simp [bytesOfLeaves, hb]⟩
    | enum e raw => exact absurd (h (.enum e raw) (by simp)) (by simp [fitsLeaf])
    | group vs => exact absurd (h (.group vs) (by simp)) (by simp [fitsLeaf])

/-- One `figures n` item: the value list is n figure records. -/
theorem fits_figures {c : Config} {name : FieldName} {n : Nat} {vs : List Value}
    (h : fitsItems itemReserved (fitsItem c) [(name, .figures n)] vs = true) :
    ∃ xs, vs = [.records xs] ∧ xs.length = n := by
  match vs with
  | [] => simp [fitsItems, itemReserved] at h
  | [.plain _] => simp [fitsItems, itemReserved, fitsItem] at h
  | [.record _] => simp [fitsItems, itemReserved, fitsItem] at h
  | [.bytes _] => simp [fitsItems, itemReserved, fitsItem] at h
  | [.records xs] =>
    simp [fitsItems, itemReserved, fitsItem] at h
    exact ⟨xs, rfl, h.1⟩
  | _ :: _ :: _ => simp [fitsItems, itemReserved] at h

/-- One leaf item: the value list is one leaf value of its shape. -/
theorem fits_leaf {c : Config} {name : FieldName} {it : LeafItem} {vs : List Value}
    (h : fitsItems itemReserved (fitsItem c) [(name, .plain (.leaf it))] vs = true) :
    ∃ v, vs = [.plain (.leaf v)] ∧ fitsLeaf c it v = true := by
  match vs with
  | [] => simp [fitsItems, itemReserved, plainReserved] at h
  | [.plain (.leaf v)] =>
    simp [fitsItems, itemReserved, plainReserved, fitsItem, fitsPlain] at h
    exact ⟨v, rfl, h⟩
  | [.plain (.list _)] => simp [fitsItems, itemReserved, plainReserved, fitsItem, fitsPlain] at h
  | [.record _] => simp [fitsItems, itemReserved, plainReserved, fitsItem] at h
  | [.records _] => simp [fitsItems, itemReserved, plainReserved, fitsItem] at h
  | [.bytes _] => simp [fitsItems, itemReserved, plainReserved, fitsItem] at h
  | _ :: _ :: _ => simp [fitsItems, itemReserved, plainReserved] at h

/-- An unsigned bit field has an integer value. -/
theorem fits_ub {c : Config} {name : FieldName} {w : Nat} {gs : List (FieldName × BitItem)} {vs : List BitValue}
    (h : fitsBits c ((name, .ub w) :: gs) vs = true) : ∃ v vs', vs = .int v :: vs' ∧ fitsBits c gs vs' = true := by
  match vs with
  | [] => simp [fitsBits] at h
  | .enum _ _ :: _ => simp [fitsBits] at h
  | .int v :: vs' =>
    simp only [fitsBits, Bool.and_eq_true] at h
    exact ⟨v, vs', rfl, h.2⟩

/-- A value list of V's shape is one of the records of R32: the last line of `interactionOf` is for none. -/
theorem interactionOf_ne_none {c : Config} {v : IxVariant} {vals : List Value}
    (h : fitsItems itemReserved (fitsItem c) (c.ixLayout v) vals = true) : interactionOf v vals ≠ .none := by
  cases v with
  | layerDelete => simp [interactionOf]
  | figure1 =>
    obtain ⟨xs, rfl, hl⟩ := fits_figures h
    match xs, hl with
    | [_], _ => simp [interactionOf]
  | figure2 =>
    obtain ⟨xs, rfl, hl⟩ := fits_figures h
    match xs, hl with
    | [_, _], _ => simp [interactionOf]
  | figure5 =>
    obtain ⟨xs, rfl, hl⟩ := fits_figures h
    match xs, hl with
    | [_, _, _, _, _], _ => simp [interactionOf]
  | figure7 =>
    obtain ⟨xs, rfl, hl⟩ := fits_figures h
    match xs, hl with
    | [_, _, _, _, _, _, _], _ => simp [interactionOf]
  | customChar =>
    match vals with
    | [.record fig, .plain (.list xs)] =>
      simp [Config.ixLayout, fitsItems, itemReserved, plainReserved, fitsItem, fitsPlain] at h
      obtain ⟨b, hb⟩ := bytesOfLeaves_isSome h.2.2
      simp [interactionOf, hb]
    | [] => simp [Config.ixLayout, fitsItems, itemReserved] at h
    | [_] => simp [Config.ixLayout, fitsItems, itemReserved, plainReserved] at h
    | .plain _ :: _ :: _ => simp [Config.ixLayout, fitsItems, itemReserved, fitsItem] at h
    | .records _ :: _ :: _ => simp [Config.ixLayout, fitsItems, itemReserved, fitsItem] at h
    | .bytes _ :: _ :: _ => simp [Config.ixLayout, fitsItems, itemReserved, fitsItem] at h
    | [.record _, .plain (.leaf _)] =>
      simp [Config.ixLayout, fitsItems, itemReserved, plainReserved, fitsItem, fitsPlain] at h
    | [.record _, .record _] => simp [Config.ixLayout, fitsItems, itemReserved, plainReserved, fitsItem] at h
    | [.record _, .records _] => simp [Config.ixLayout, fitsItems, itemReserved, plainReserved, fitsItem] at h
    | [.record _, .bytes _] => simp [Config.ixLayout, fitsItems, itemReserved, plainReserved, fitsItem] at h
    | .record _ :: _ :: _ :: _ => simp [Config.ixLayout, fitsItems, itemReserved, plainReserved] at h
  | sentryCmd =>
    obtain ⟨v, rfl, hv⟩ := fits_leaf h
    match v with
    | .int _ => simp [fitsLeaf] at hv
    | .enum _ _ => simp [fitsLeaf] at hv
    | .group vs =>
      simp only [fitsLeaf] at hv
      obtain ⟨_, _, rfl, h1⟩ := fits_ub hv
      obtain ⟨_, _, rfl, h2⟩ := fits_ub h1
      obtain ⟨_, _, rfl, h3⟩ := fits_ub h2
      obtain ⟨_, _, rfl, h4⟩ := fits_ub h3
      obtain ⟨_, vs, rfl, h5⟩ := fits_ub h4
      match vs with
      | [] => simp [interactionOf]
      | _ :: _ => simp [fitsBits] at h5
  | radarCmd =>
    obtain ⟨v, rfl, hv⟩ := fits_leaf h
    match v with
    | .int _ => simp [interactionOf]
    | .enum _ _ => simp [fitsLeaf] at hv
    | .group _ => simp [fitsLeaf] at hv

end Sys2Proof.Machine
end

