-- ==== Sys2Proof/Laws/Parts.lean ====
section
/-! SUPPORT. What a list of items and an array are made of: their parts in order, each decoded where the parts before
it end and encoded after their bytes (`42_payload.md` rules R93, R100, R108). -/

namespace Sys2Proof.Machine

/-- A decoder that moves the cursor by `size` and gives no value exactly where `reserved` is true. -/
def MovesBy {α : Type} (size : Nat) (reserved : Bool) (dec : Nat → FieldPath → Except Error (Option α × Nat)) : Prop :=
  ∀ pos path v p, dec pos path = .ok (v, p) → p = pos + size ∧ v.isNone = reserved

/-! ## The value of an item -/

theorem valueAfter_nil {ι α : Type} (reserved : ι → Bool) (it : ι) (vs : List α) :
    valueAfter reserved [] it vs = if reserved it then none else vs.head? := by
  simp [valueAfter, List.head?_eq_getElem?]

/-- A value before the items that `pre` and `vs` speak of is passed over. -/
theorem valueAfter_cons {ι α : Type} {reserved : ι → Bool} {n : FieldName} {it it' : ι}
    {pre : List (FieldName × ι)} {v : Option α} {vs : List α} (hv : v.isNone = reserved it) :
    valueAfter reserved ((n, it) :: pre) it' (v.toList ++ vs) = valueAfter reserved pre it' vs := by
  unfold valueAfter
  cases v with
  | none => simp [← hv]
  | some v => simp [← hv]

/-- The values of a list of items whose first one takes the value `v`. -/
theorem valued_cons {ι α : Type} {reserved : ι → Bool} {n : FieldName} {it : ι} {items : List (FieldName × ι)}
    {vs : List α} (h : vs.length = (((n, it) :: items).filter fun x => !reserved x.2).length) :
    ∃ vs', vs = (valueAfter reserved [] it vs).toList ++ vs' ∧
      vs'.length = (items.filter fun x => !reserved x.2).length ∧
      (valueAfter reserved [] it vs).isNone = reserved it := by
  rw [valueAfter_nil]
  cases hr : reserved it with
  | true => exact ⟨vs, by simp, by simpa [hr] using h, by simp⟩
  | false =>
    cases vs with
    | nil => simp [hr] at h
    | cons v vs => exact ⟨vs, by simp, by simpa [hr] using h, by simp⟩

/-- Where the values of a list of items have its shape, each item's value has the shape of the item. -/
theorem fits_valueAfter {ι α : Type} {reserved : ι → Bool} {fits : ι → Option α → Bool}
    {items : List (FieldName × ι)} {vs : List α} (h : fitsItems reserved fits items vs = true) :
    ∀ pre n it post, items = pre ++ (n, it) :: post → fits it (valueAfter reserved pre it vs) = true := by
  induction items generalizing vs with
  | nil => intro pre n it post he; simp at he
  | cons x items ih =>
    obtain ⟨m, x⟩ := x
    have key : ∀ (v : Option α) (vs' : List α), v.isNone = reserved x → fits x v = true →
        fitsItems reserved fits items vs' = true → ∀ pre n it post, (m, x) :: items = pre ++ (n, it) :: post →
          fits it (valueAfter reserved pre it (v.toList ++ vs')) = true := by
      intro v vs' hv hf hr pre n it post he
      cases pre with
      | nil =>
        obtain ⟨⟨rfl, rfl⟩, rfl⟩ : (m = n ∧ x = it) ∧ items = post := by simpa using he
        rw [valueAfter_nil]
        cases v <;> simpa [← hv] using hf
      | cons y pre =>
        obtain ⟨rfl, rfl⟩ : (m, x) = y ∧ items = pre ++ (n, it) :: post := by simpa using he
        rw [valueAfter_cons hv]
        exact ih hr pre n it post rfl
    cases hr : reserved x with
    | true =>
      simp only [fitsItems, hr, if_true, Bool.and_eq_true] at h
      exact key none vs (by simp [hr]) h.1 h.2
    | false =>
      cases vs with
      | nil => simp [fitsItems, hr] at h
      | cons v vs =>
        simp only [fitsItems, hr, Bool.false_eq_true, if_false, Bool.and_eq_true] at h
        exact key (some v) vs (by simp [hr]) h.1 h.2

/-! ## Decoding -/

/-- A list of items decodes exactly when each of them does where the ones before it end, and its values are theirs. -/
theorem decodeItems_ok_iff {ι α : Type} {dec : ι → Nat → FieldPath → Except Error (Option α × Nat)}
    {reserved : ι → Bool} {size : ι → Nat} {items : List (FieldName × ι)}
    (hd : ∀ it ∈ items, MovesBy (size it.2) (reserved it.2) (dec it.2)) (path : FieldPath) (pos : Nat)
    (vs : List α) (p : Nat) :
    decodeItems dec path items pos = .ok (vs, p) ↔
      p = pos + sizeOfItems size items ∧ vs.length = (items.filter fun x => !reserved x.2).length ∧
        ∀ pre n it post, items = pre ++ (n, it) :: post →
          dec it (pos + sizeOfItems size pre) (path ++ [.name n]) =
            .ok (valueAfter reserved pre it vs, pos + sizeOfItems size pre + size it) := by
  induction items generalizing pos vs with
  | nil =>
    simp only [decodeItems, sizeOfItems, Nat.add_zero, List.filter_nil, List.length_nil, List.length_eq_zero_iff]
    constructor
    · intro h
      obtain ⟨rfl, rfl⟩ : [] = vs ∧ pos = p := by simpa using h
      simp
    · rintro ⟨rfl, rfl, -⟩
      rfl
  | cons it items ih =>
    obtain ⟨n, it⟩ := it
    have ih := fun pos => ih (fun it' hit => hd it' (List.mem_cons_of_mem _ hit)) pos
    have h0 := hd (n, it) (by simp)
    simp only at h0
    constructor
    · intro h
      simp only [decodeItems] at h
      cases hx : dec it pos (path ++ [.name n]) with
      | error e => rw [hx] at h; cases h
      | ok r =>
        obtain ⟨v, q⟩ := r
        obtain ⟨rfl, hv⟩ := h0 _ _ _ _ hx
        rw [hx] at h
        simp only [bind, Except.bind] at h
        cases hy : decodeItems dec path items (pos + size it) with
        | error e => rw [hy] at h; cases h
        | ok r =>
          obtain ⟨vs', q⟩ := r
          rw [hy] at h
          obtain ⟨rfl, rfl⟩ : v.toList ++ vs' = vs ∧ q = p := by simpa using h
          obtain ⟨rfl, hl, hs⟩ := (ih _ _).mp hy
          refine ⟨by simp [sizeOfItems, Nat.add_assoc], ?_, ?_⟩
          · cases v with
            | none => simp [← hv, hl]
            | some v => simp [← hv, hl]
          · intro pre m it' post he
            cases pre with
            | nil =>
              obtain ⟨⟨rfl, rfl⟩, rfl⟩ : (n = m ∧ it = it') ∧ items = post := by simpa using he
              simp only [sizeOfItems, Nat.add_zero, hx, valueAfter_nil]
              cases v with
              | none => simp [← hv]
              | some v => simp [← hv]
            | cons x pre =>
              obtain ⟨rfl, rfl⟩ : (n, it) = x ∧ items = pre ++ (m, it') :: post := by simpa using he
              rw [valueAfter_cons hv]
              simpa [sizeOfItems, Nat.add_assoc] using hs pre m it' post rfl
    · rintro ⟨rfl, hl, hs⟩
      obtain ⟨vs', he, hl', hn⟩ := valued_cons hl
      have h1 := hs [] n it items rfl
      simp only [sizeOfItems, Nat.add_zero] at h1
      generalize hw : valueAfter reserved [] it vs = v at h1 he hn
      subst he
      have h2 := (ih (pos + size it) vs').mpr ⟨Nat.add_assoc _ _ _ |>.symm, hl', fun pre m it' post he => by
        have := hs ((n, it) :: pre) m it' post (by rw [he]; rfl)
        rw [valueAfter_cons hn] at this
        simpa [sizeOfItems, Nat.add_assoc] using this⟩
      simp [decodeItems, h1, h2, bind, Except.bind, sizeOfItems]

/-- An array decodes exactly when each of its elements does where the ones before it end. -/
theorem decodeArray_ok_iff {α : Type} {dec : Nat → FieldPath → Except Error (α × Nat)} {size : Nat}
    (hd : ∀ pos path x p, dec pos path = .ok (x, p) → p = pos + size) (path : FieldPath) (n j pos : Nat)
    (xs : List α) (p : Nat) :
    decodeArray dec path n j pos = .ok (xs, p) ↔
      p = pos + n * size ∧ xs.length = n ∧ ∀ (i : Nat) (x : α), xs[i]? = some x →
        dec (pos + i * size) (path ++ [.index (j + i)]) = .ok (x, pos + (i + 1) * size) := by
  induction n generalizing j pos xs with
  | zero =>
    simp only [decodeArray, Nat.zero_mul, Nat.add_zero, List.length_eq_zero_iff]
    constructor
    · intro h
      obtain ⟨rfl, rfl⟩ : [] = xs ∧ pos = p := by simpa using h
      simp
    · rintro ⟨rfl, rfl, -⟩
      rfl
  | succ n ih =>
    constructor
    · intro h
      simp only [decodeArray] at h
      cases hx : dec pos (path ++ [.index j]) with
      | error e => rw [hx] at h; cases h
      | ok r =>
        obtain ⟨x, q⟩ := r
        obtain rfl := hd _ _ _ _ hx
        rw [hx] at h
        simp only [bind, Except.bind] at h
        cases hy : decodeArray dec path n (j + 1) (pos + size) with
        | error e => rw [hy] at h; cases h
        | ok r =>
          obtain ⟨xs', q⟩ := r
          rw [hy] at h
          obtain ⟨rfl, rfl⟩ : x :: xs' = xs ∧ q = p := by simpa using h
          obtain ⟨rfl, rfl, hs⟩ := (ih _ _ _).mp hy
          refine ⟨by ring, rfl, fun i y hi => ?_⟩
          cases i with
          | zero =>
            obtain rfl : x = y := by simpa using hi
            simpa using hx
          | succ i =>
            have := hs i y (by simpa using hi)
            rw [show pos + (i + 1) * size = pos + size + i * size by ring,
              show pos + (i + 1 + 1) * size = pos + size + (i + 1) * size by ring,
              show j + (i + 1) = j + 1 + i by ring]
            exact this
    · rintro ⟨rfl, hl, hs⟩
      cases xs with
      | nil => simp at hl
      | cons x xs =>
        have h1 := hs 0 x rfl
        simp only [Nat.zero_mul, Nat.add_zero, Nat.zero_add, Nat.one_mul] at h1
        have h2 := (ih (j + 1) (pos + size) xs).mpr ⟨by ring, by simpa using hl, fun i y hi => by
          have := hs (i + 1) y (by simpa using hi)
          rw [show pos + (i + 1) * size = pos + size + i * size by ring,
            show pos + (i + 1 + 1) * size = pos + size + (i + 1) * size by ring,
            show j + (i + 1) = j + 1 + i by ring] at this
          exact this⟩
        simp only [decodeArray, h1, h2, bind, Except.bind]

/-- A leaf item that decodes moves the cursor by its size, in any configuration. -/
theorem decodeLeaf_cursor {c : Config} {b : Bytes} {it : LeafItem} {pos : Nat} {path : FieldPath} {v : LeafValue}
    {p : Nat} (h : decodeLeaf c b it pos path = .ok (v, p)) : p = pos + it.size := by
  rcases need_cases b pos it.size with ⟨-, hn⟩ | ⟨-, hn⟩
  · cases it with
    | u k =>
      simp only [LeafItem.size] at hn ⊢
      simp only [decodeLeaf, hn, bind, Except.bind] at h
      cases h
      rfl
    | i k =>
      simp only [LeafItem.size] at hn ⊢
      simp only [decodeLeaf, hn, bind, Except.bind] at h
      cases h
      rfl
    | enum e k =>
      simp only [LeafItem.size] at hn ⊢
      simp only [decodeLeaf, hn, bind, Except.bind] at h
      split at h <;> cases h
      rfl
    | bits gs =>
      simp only [LeafItem.size] at hn ⊢
      simp only [decodeLeaf, hn, bind, Except.bind] at h
      split at h <;> cases h
      rfl
  · cases it <;> simp only [LeafItem.size] at hn <;> simp [decodeLeaf, hn, bind, Except.bind] at h

theorem decodePlain_movesBy (c : Config) (b : Bytes) (it : PlainItem) :
    MovesBy it.size (plainReserved it) (decodePlain c b it) := by
  intro pos path v p h
  cases it with
  | leaf it =>
    cases hx : decodeLeaf c b it pos path with
    | error e => simp [decodePlain, hx, Except.map] at h
    | ok r =>
      simp only [decodePlain, hx, Except.map] at h
      cases h
      exact ⟨decodeLeaf_cursor hx, rfl⟩
  | rsv k =>
    rcases need_cases b pos k with ⟨-, hn⟩ | ⟨-, hn⟩ <;> simp only [decodePlain, hn, Except.map] at h <;> cases h
    exact ⟨rfl, rfl⟩
  | arr e n =>
    cases hx : decodeArray (decodeLeaf c b e) path n 0 pos with
    | error e => simp [decodePlain, hx, Except.map] at h
    | ok r =>
      simp only [decodePlain, hx, Except.map] at h
      cases h
      exact ⟨((decodeArray_ok_iff (fun _ _ _ _ h => decodeLeaf_cursor h) _ _ _ _ _ _).mp hx).1, rfl⟩

theorem figureLayout_size {c : Config} (hc : c.legal = true) : sizeOfItems PlainItem.size c.figureLayout = figureSize := by
  have hf := legal_figureOk hc
  simp only [Config.figureOk, Bool.and_eq_true, beq_iff_eq] at hf
  exact hf.2

/-- A figure record decodes exactly when each item of its layout does. -/
theorem decodeFigure_ok_iff {c : Config} (hc : c.legal = true) (b : Bytes) (pos : Nat) (path : FieldPath) (vs : Fig)
    (p : Nat) :
    decodeFigure c b pos path = .ok (vs, p) ↔
      p = pos + figureSize ∧ vs.length = (c.figureLayout.filter fun x => !plainReserved x.2).length ∧
        ∀ pre n it post, c.figureLayout = pre ++ (n, it) :: post →
          decodePlain c b it (pos + sizeOfItems PlainItem.size pre) (path ++ [.name n]) =
            .ok (valueAfter plainReserved pre it vs, pos + sizeOfItems PlainItem.size pre + it.size) := by
  rw [← figureLayout_size hc]
  exact decodeItems_ok_iff (fun it _ => decodePlain_movesBy c b it.2) path pos vs p

theorem decodeItem_movesBy {c : Config} (hc : c.legal = true) (b : Bytes) (it : Item) :
    MovesBy it.size (itemReserved it) (decodeItem c b it) := by
  intro pos path v p h
  cases it with
  | plain it =>
    cases hx : decodePlain c b it pos path with
    | error e => simp [decodeItem, hx, Except.map] at h
    | ok r =>
      simp only [decodeItem, hx, Except.map] at h
      cases h
      obtain ⟨hp, hv⟩ := decodePlain_movesBy c b it _ _ _ _ hx
      exact ⟨hp, by simpa [itemReserved] using hv⟩
  | figure =>
    cases hx : decodeFigure c b pos path with
    | error e => simp [decodeItem, hx, Except.map] at h
    | ok r =>
      simp only [decodeItem, hx, Except.map] at h
      cases h
      exact ⟨((decodeFigure_ok_iff hc _ _ _ _ _).mp hx).1, rfl⟩
  | figures n =>
    cases hx : decodeArray (decodeFigure c b) path n 0 pos with
    | error e => simp [decodeItem, hx, Except.map] at h
    | ok r =>
      simp only [decodeItem, hx, Except.map] at h
      cases h
      have hf : ∀ pos path x p, decodeFigure c b pos path = .ok (x, p) → p = pos + figureSize :=
        fun _ _ _ _ h => ((decodeFigure_ok_iff hc _ _ _ _ _).mp h).1
      exact ⟨((decodeArray_ok_iff hf _ _ _ _ _ _).mp hx).1, rfl⟩

/-! ## Encoding -/

/-- The bytes of one part in the bytes of all of them. -/
theorem slice_flatten {es : List Bytes} {i : Nat} {b : Bytes} (h : es[i]? = some b) :
    slice es.flatten (es.take i).flatten.length b.length = b := by
  obtain ⟨hi, rfl⟩ := List.getElem?_eq_some_iff.mp h
  have : es.flatten = (es.take i).flatten ++ es[i] ++ (es.drop (i + 1)).flatten := by
    conv_lhs =>
      rw [← List.take_append_drop i es, List.drop_eq_getElem_cons hi, List.flatten_append, List.flatten_cons]
    rw [List.append_assoc]
  rw [this]
  exact slice_middle _ _ _

theorem memWrite_zero (k : Nat) : memWrite k 0 = List.replicate k 0 := by
  induction k with
  | zero => rfl
  | succ k ih => simp [memWrite, ih, List.replicate_succ]

/-- An array is encoded exactly when each of its elements is, to their bytes one after the other. -/
theorem encodeArray_eq_some_iff {α : Type} (enc : α → Option Bytes) (xs : List α) (e : Bytes) :
    encodeArray enc xs = some e ↔
      ∃ es : List Bytes, e = es.flatten ∧ es.length = xs.length ∧
        ∀ (j : Nat) (x : α), xs[j]? = some x → enc x = es[j]? := by
  induction xs generalizing e with
  | nil =>
    simp only [encodeArray, List.length_nil, List.length_eq_zero_iff]
    constructor
    · rintro h
      exact ⟨[], by simpa using h.symm, rfl, by simp⟩
    · rintro ⟨es, rfl, rfl, -⟩
      rfl
  | cons x xs ih =>
    constructor
    · intro h
      simp only [encodeArray] at h
      cases hx : enc x with
      | none => simp [hx] at h
      | some b =>
        cases hy : encodeArray enc xs with
        | none => simp [hx, hy] at h
        | some bs =>
          obtain rfl : b ++ bs = e := by simpa [hx, hy] using h
          obtain ⟨es, rfl, hl, hs⟩ := (ih bs).mp hy
          refine ⟨b :: es, by simp, by simp [hl], fun j y hj => ?_⟩
          cases j with
          | zero =>
            obtain rfl : x = y := by simpa using hj
            simpa using hx
          | succ j => simpa using hs j y (by simpa using hj)
    · rintro ⟨es, rfl, hl, hs⟩
      cases es with
      | nil => simp at hl
      | cons b es =>
        have h1 := hs 0 x rfl
        have h2 := (ih es.flatten).mpr ⟨es, rfl, by simpa using hl, fun j y hj => by
          simpa using hs (j + 1) y (by simpa using hj)⟩
        simp only [List.getElem?_cons_zero] at h1
        simp [encodeArray, h1, h2]

/-- A list of items is encoded exactly when each of them is with its value, to their bytes one after the other. -/
theorem encodeItems_eq_some_iff {ι α : Type} (reserved : ι → Bool) (enc : ι → Option α → Option Bytes)
    (items : List (FieldName × ι)) (vs : List α) (e : Bytes) :
    encodeItems reserved enc items vs = some e ↔
      ∃ es : List Bytes, e = es.flatten ∧ es.length = items.length ∧
        vs.length = (items.filter fun x => !reserved x.2).length ∧
        ∀ pre n it post, items = pre ++ (n, it) :: post →
          enc it (valueAfter reserved pre it vs) = es[pre.length]? := by
  induction items generalizing vs e with
  | nil =>
    cases vs with
    | nil =>
      simp only [encodeItems, List.length_nil, List.length_eq_zero_iff]
      constructor
      · intro h
        exact ⟨[], by simpa using h.symm, rfl, rfl, by simp⟩
      · rintro ⟨es, rfl, rfl, -⟩
        rfl
    | cons v vs => simp [encodeItems]
  | cons it items ih =>
    obtain ⟨n, it⟩ := it
    -- the value of the first item, and the encoding of the rest
    have step : ∀ (v : Option α) (vs' : List α), v.isNone = reserved it →
        (encodeItems reserved enc ((n, it) :: items) (v.toList ++ vs') =
          (enc it v).bind fun b => (encodeItems reserved enc items vs').bind fun bs => some (b ++ bs)) := by
      intro v vs' hv
      cases v with
      | none => simp [encodeItems, ← hv, bind]
      | some v => simp [encodeItems, ← hv, bind]
    constructor
    · intro h
      have hl : ∃ (v : Option α) (vs' : List α), v.isNone = reserved it ∧ vs = Option.toList v ++ vs' := by
        cases hr : reserved it with
        | true => exact ⟨none, vs, rfl, rfl⟩
        | false =>
          cases vs with
          | nil => simp [encodeItems, hr] at h
          | cons v vs => exact ⟨some v, vs, rfl, rfl⟩
      obtain ⟨v, vs', hv, rfl⟩ := hl
      rw [step v vs' hv] at h
      obtain ⟨b, hb, h⟩ := Option.bind_eq_some_iff.mp h
      obtain ⟨bs, hbs, h⟩ := Option.bind_eq_some_iff.mp h
      obtain rfl : b ++ bs = e := by simpa using h
      obtain ⟨es, rfl, hl, hn, hs⟩ := (ih vs' bs).mp hbs
      refine ⟨b :: es, by simp, by simp [hl], ?_, ?_⟩
      · cases v with
        | none => simp [← hv, hn]
        | some v => simp [← hv, hn]
      · intro pre m it' post he
        cases pre with
        | nil =>
          obtain ⟨⟨rfl, rfl⟩, rfl⟩ : (n = m ∧ it = it') ∧ items = post := by simpa using he
          rw [valueAfter_nil]
          cases v with
          | none => simpa [← hv] using hb
          | some v => simpa [← hv] using hb
        | cons x pre =>
          obtain ⟨rfl, rfl⟩ : (n, it) = x ∧ items = pre ++ (m, it') :: post := by simpa using he
          rw [valueAfter_cons hv]
          simpa using hs pre m it' post rfl
    · rintro ⟨es, rfl, hl, hn, hs⟩
      obtain ⟨vs', he, hl', hv⟩ := valued_cons hn
      cases es with
      | nil => simp at hl
      | cons b es =>
        have h1 := hs [] n it items rfl
        generalize valueAfter reserved [] it vs = v at h1 he hv
        subst he
        have h2 := (ih vs' es.flatten).mpr ⟨es, rfl, by simpa using hl, hl', fun pre m it' post he => by
          have := hs ((n, it) :: pre) m it' post (by rw [he]; rfl)
          rw [valueAfter_cons hv] at this
          simpa using this⟩
        rw [step v vs' hv]
        simp only [List.length_nil, List.getElem?_cons_zero] at h1
        simp [h1, h2]

end Sys2Proof.Machine
end

