-- ==== Sys2Proof/Laws/PerInstr.lean ====
section
/-! SUPPORT. What holds of each operation as syntax, one lemma per constructor: its request carries an assigned
selector code (`30_encoding.md` rule R66). -/

namespace Sys2Proof.Laws.AssignedOp

def Statement (i : Instr) : Prop := (encode i).op ∈ assignedOps

theorem crc8 (data : Bytes) : Statement (.crc8 data) := by simp [Statement, encode, assignedOps]
theorem crc16 (data : Bytes) : Statement (.crc16 data) := by simp [Statement, encode, assignedOps]
theorem hdrDecode (bytes : Bytes) : Statement (.hdrDecode bytes) := by simp [Statement, encode, assignedOps]
theorem hdrEncode (hdr : FrameHeader) : Statement (.hdrEncode hdr) := by simp [Statement, encode, assignedOps]
theorem hdrRecompute (len : U16) (sequence : U8) : Statement (.hdrRecompute len sequence) := by
  simp [Statement, encode, assignedOps]
theorem payDecode (tag : U16) (bytes : Bytes) (declared : U16) : Statement (.payDecode tag bytes declared) := by
  simp [Statement, encode, assignedOps]
theorem payEncode (v : Variant) : Statement (.payEncode v) := by simp [Statement, encode, assignedOps]
theorem bitsUnpack (bytes : Bytes) (bitpos : U32) (width : U8) : Statement (.bitsUnpack bytes bitpos width) := by
  simp [Statement, encode, assignedOps]
theorem bitsPack (fields : List (U8 × U32)) : Statement (.bitsPack fields) := by
  simp [Statement, encode, assignedOps]
theorem frameBuild (sequence : U8) (payload : Variant) : Statement (.frameBuild sequence payload) := by
  simp [Statement, encode, assignedOps]
theorem frameEncode (frame : Frame) : Statement (.frameEncode frame) := by simp [Statement, encode, assignedOps]
theorem frameDecode (bytes : Bytes) : Statement (.frameDecode bytes) := by simp [Statement, encode, assignedOps]
theorem tailCheck (bytes : Bytes) : Statement (.tailCheck bytes) := by simp [Statement, encode, assignedOps]
theorem ixDispatch (rid : Variant) : Statement (.ixDispatch rid) := by simp [Statement, encode, assignedOps]

end Sys2Proof.Laws.AssignedOp
end

