-- ==== Sys2Proof/Machine/Assembler.lean ====
section
/-! DEFINITION. The assembler syntax of requests and responses (`30_encoding.md` rule R70), and the written
form of a field path (`42_payload.md` rule R112): requests and responses are written, and requests are read.
R70 lets an integer be written in hex or in decimal: both are read, and written are fields of fixed width in
hex, values of layout items in decimal (DESIGN CHOICE, safe: log 17). -/

namespace Sys2Proof.Machine

/-- The mnemonic of an operation, as `30_encoding.md` rule R66 spells it. -/
def mnemonic : Instr → String
  | .crc8 _ => "CRC8"
  | .crc16 _ => "CRC16"
  | .hdrDecode _ => "HDR_DECODE"
  | .hdrEncode _ => "HDR_ENCODE"
  | .hdrRecompute _ _ => "HDR_RECOMPUTE"
  | .payDecode _ _ _ => "PAY_DECODE"
  | .payEncode _ => "PAY_ENCODE"
  | .bitsUnpack _ _ _ => "BITS_UNPACK"
  | .bitsPack _ => "BITS_PACK"
  | .frameBuild _ _ => "FRAME_BUILD"
  | .frameEncode _ => "FRAME_ENCODE"
  | .frameDecode _ => "FRAME_DECODE"
  | .tailCheck _ => "TAIL_CHECK"
  | .ixDispatch _ => "IX_DISPATCH"

/-- The hexadecimal digits in the order of their values. -/
def hexAlphabet : List Char := "0123456789ABCDEF".toList

/-- One hexadecimal digit. -/
def hexDigit (n : Nat) : String := String.singleton (hexAlphabet.getD n ' ')

/-- The last `digits` hexadecimal digits of `v`. -/
def hexDigits : Nat → Nat → String
  | 0, _ => ""
  | d + 1, v => hexDigits d (v / 16) ++ hexDigit (v % 16)

/-- `0x...` with a fixed number of digits. -/
def hexText (digits v : Nat) : String := "0x" ++ hexDigits digits v

/-- Parts separated by a comma and a space. -/
def commaText (parts : List String) : String := ", ".intercalate parts

/-- A record: its parts in braces. -/
def bracedText (parts : List String) : String :=
  String.singleton (Char.ofNat 123) ++ commaText parts ++ String.singleton (Char.ofNat 125)

/-- A list: its parts in parentheses. -/
def listText (parts : List String) : String := "(" ++ commaText parts ++ ")"

/-- A `Bytes` literal: hex byte pairs in square brackets. -/
def bytesText (b : Bytes) : String :=
  "[" ++ " ".intercalate (b.map fun x => hexDigits 2 x.toNat) ++ "]"

/-- An ASCII string in double quotes stands for its bytes. -/
def asciiBytes (text : String) : Bytes := text.toList.map fun ch => BitVec.ofNat 8 ch.toNat

/-- The value of a bit item. -/
def bitText : BitValue → String
  | .int v => toString v
  | .enum _ raw => toString raw

/-- The fields of a group, named by its non-reserved bit items in order. -/
def bitFieldTexts : List (FieldName × BitItem) → List BitValue → List String
  | (_, .rb _) :: gs, vs => bitFieldTexts gs vs
  | (n, _) :: gs, v :: vs => (n ++ "=" ++ bitText v) :: bitFieldTexts gs vs
  | [], vs => vs.map bitText
  | _ :: _, [] => []

/-- The value of a leaf item. -/
def leafText : LeafItem → LeafValue → String
  | .bits gs, .group vs => bracedText (bitFieldTexts gs vs)
  | _, .group vs => bracedText (vs.map bitText)
  | _, .int v => toString v
  | _, .enum _ raw => toString raw

/-- The value of a plain item. -/
def plainText : PlainItem → PlainValue → String
  | .leaf it, .leaf v => leafText it v
  | .arr e _, .list xs => listText (xs.map (leafText e))
  | _, .leaf v => leafText (.u 1) v
  | _, .list xs => listText (xs.map (leafText (.u 1)))

/-- `name=value` for the non-reserved items in order. -/
def namedTexts {ι α : Type} (reserved : ι → Bool) (text : ι → α → String) :
    List (FieldName × ι) → List α → List String
  | [], _ => []
  | (n, it) :: items, vs =>
    if reserved it then namedTexts reserved text items vs
    else match vs with
      | [] => []
      | v :: vs => (n ++ "=" ++ text it v) :: namedTexts reserved text items vs

/-- The value of a figure record, written like a group. -/
def figureText (c : Config) (vs : Fig) : String :=
  bracedText (namedTexts plainReserved plainText c.figureLayout vs)

/-- The value of an item. -/
def valueText (c : Config) : Item → Value → String
  | .plain it, .plain v => plainText it v
  | _, .plain v => plainText (.rsv 1) v
  | _, .record vs => figureText c vs
  | _, .records xs => listText (xs.map (figureText c))
  | _, .bytes d => bytesText d

/-- `name=value` for the values of a layout. -/
def layoutTexts (c : Config) : Layout → List Value → List String
  | .fixed items, vs => namedTexts itemReserved (valueText c) items vs
  | .rid, vs => namedTexts itemReserved (valueText c) ridItems vs
      ++ (vs.drop 3).map fun v => "data=" ++ valueText c .figure v

/-- A `FrameHeader` literal. -/
def headerText (h : FrameHeader) : String :=
  "Hdr" ++ bracedText
    ["len=" ++ hexText 4 h.payloadLength.toNat, "seq=" ++ hexText 2 h.sequence.toNat,
     "crc8=" ++ hexText 2 h.crc8.toNat]

/-- A `Variant` literal. A tag outside `TAGS` has no names to write. -/
def variantText (c : Config) (v : Variant) : String :=
  "Var" ++ bracedText (("tag=" ++ hexText 4 v.tag.toNat) ::
    match c.layoutOf v.tag with
    | some layout => layoutTexts c layout v.values
    | none => [])

/-- A `Frame` literal. -/
def frameText (c : Config) (f : Frame) : String :=
  "Frame" ++ bracedText
    ["hdr=" ++ headerText f.header, "pay=" ++ variantText c f.payload, "tail=" ++ hexText 4 f.tail.toNat]

/-- An `Interaction` result, as `95_test_vectors.md` writes it. -/
def interactionText (c : Config) : Interaction → String
  | .layerDelete vs =>
    "LayerDelete" ++ listText (namedTexts itemReserved (valueText c) (c.ixLayout .layerDelete) vs)
  | .figure1 f0 => "Figure1(f=" ++ listText ([f0].map (figureText c)) ++ ")"
  | .figure2 f0 f1 => "Figure2(f=" ++ listText ([f0, f1].map (figureText c)) ++ ")"
  | .figure5 f0 f1 f2 f3 f4 => "Figure5(f=" ++ listText ([f0, f1, f2, f3, f4].map (figureText c)) ++ ")"
  | .figure7 f0 f1 f2 f3 f4 f5 f6 =>
    "Figure7(f=" ++ listText ([f0, f1, f2, f3, f4, f5, f6].map (figureText c)) ++ ")"
  | .customChar fig chars =>
    "CustomChar" ++ listText
      ["fig=" ++ figureText c fig, "chars=" ++ listText (chars.map fun x => hexText 2 x.toNat)]
  | .sentryCmd f0 f1 ex r0 r1 =>
    "SentryCmd" ++ listText
      ["flag0=" ++ toString f0.toNat, "flag1=" ++ toString f1.toNat, "exchange_count=" ++ hexText 3 ex.toNat,
       "request_count0=" ++ toString r0.toNat, "request_count1=" ++ toString r1.toNat]
  | .radarCmd cmd => "RadarCmd(cmd=" ++ toString cmd.toNat ++ ")"
  | .robotToRobot data => "RobotToRobot(" ++ bytesText data ++ ")"
  | .none => "None"

/-- The operands of an operation, in the order of R66. -/
def operandTexts (c : Config) : Instr → List String
  | .crc8 data => ["data=" ++ bytesText data]
  | .crc16 data => ["data=" ++ bytesText data]
  | .hdrDecode bytes => ["bytes=" ++ bytesText bytes]
  | .hdrEncode hdr => ["hdr=" ++ headerText hdr]
  | .hdrRecompute len sequence =>
    ["payload_length=" ++ hexText 4 len.toNat, "sequence=" ++ hexText 2 sequence.toNat]
  | .payDecode tag bytes declared =>
    ["tag=" ++ hexText 4 tag.toNat, "bytes=" ++ bytesText bytes, "declared=" ++ toString declared.toNat]
  | .payEncode v => ["v=" ++ variantText c v]
  | .bitsUnpack bytes bitpos width =>
    ["bytes=" ++ bytesText bytes, "bitpos=" ++ toString bitpos.toNat, "width=" ++ toString width.toNat]
  | .bitsPack fields =>
    ["fields=" ++ listText (fields.map fun f => listText [toString f.1.toNat, hexText 8 f.2.toNat])]
  | .frameBuild sequence payload =>
    ["sequence=" ++ hexText 2 sequence.toNat, "payload=" ++ variantText c payload]
  | .frameEncode frame => ["frame=" ++ frameText c frame]
  | .frameDecode bytes => ["bytes=" ++ bytesText bytes]
  | .tailCheck bytes => ["bytes=" ++ bytesText bytes]
  | .ixDispatch rid => ["rid=" ++ variantText c rid]

/-- `MNEMONIC name=value, name=value, ...` (R70). -/
def requestText (c : Config) (i : Instr) : String :=
  mnemonic i ++ " " ++ commaText (operandTexts c i)

/-- A field path, joined by dots (`42_payload.md` rule R112). -/
def pathText (p : FieldPath) : String :=
  ".".intercalate (p.map fun s => match s with
    | .name n => n
    | .index j => toString j)

/-- A result. -/
def resultText (c : Config) : Result → String
  | .crc8 crc => hexText 2 crc.toNat
  | .crc16 crc => hexText 4 crc.toNat
  | .header h => headerText h
  | .bytes b => bytesText b
  | .variant v => variantText c v
  | .value v => "0x" ++ hexDigits 8 v.toNat
  | .frame f => frameText c f
  | .decoded f n => listText [frameText c f, "consumed=" ++ toString n.toNat]
  | .tail t => hexText 4 t.toNat
  | .interaction x => interactionText c x

/-- A response, written after `->`: `OK <result>` or `<ErrorName>(<info>)` (R70). -/
def responseText (c : Config) (r : Response) : String :=
  "-> " ++ r.status.text
    ++ (match r.info with
      | none => ""
      | some (.tag tag) => "(" ++ hexText 4 tag.toNat ++ ")"
      | some (.enumValue field raw) => listText [pathText field, toString raw.toNat])
    ++ (match r.result with
      | none => ""
      | some x => " " ++ resultText c x)

/-! ## Reading a request

A reader takes characters and gives a value with the characters after it, or fails. The values of a `Variant`
are read by the layout of its tag, in any range and number: whether they fit is for R107 to say. -/

/-- What reads an `α` from the front of a text. -/
abbrev Reader (α : Type) := List Char → Option (α × List Char)

/-- The text starts with `lit`; the rest of it. -/
def eatChars : List Char → List Char → Option (List Char)
  | [], cs => some cs
  | _ :: _, [] => none
  | l :: ls, ch :: cs => if l = ch then eatChars ls cs else none

/-- The text starts with a literal; the rest of it. -/
def eat (lit : String) (cs : List Char) : Option (List Char) := eatChars lit.toList cs

/-- The opening brace of a record or group. -/
def eatOpen (cs : List Char) : Option (List Char) := eatChars [Char.ofNat 123] cs

/-- The closing brace of a record or group. -/
def eatClose (cs : List Char) : Option (List Char) := eatChars [Char.ofNat 125] cs

/-- The value of a hexadecimal digit of either case: its place in the alphabet. -/
def digitOf (ch : Char) : Option Nat := hexAlphabet.findIdx? (· == ch.toUpper)

/-- The digits at the front of a text, as a number after `v`. -/
def readDigits (base : Nat) : List Char → Nat → Nat × List Char
  | [], v => (v, [])
  | ch :: cs, v =>
    match digitOf ch with
    | some d => if d < base then readDigits base cs (base * v + d) else (v, ch :: cs)
    | none => (v, ch :: cs)

/-- At least one digit. -/
def readNumeral (base : Nat) : Reader Nat := fun cs =>
  let r := readDigits base cs 0
  if r.2.length < cs.length then some r else none

/-- An integer in hex, `0x2A`, or decimal, `42`. -/
def readNat : Reader Nat := fun cs =>
  match eat "0x" cs with
  | some cs => readNumeral 16 cs
  | none => readNumeral 10 cs

/-- An integer that may be negative, as `95_test_vectors.md` writes the values of `i(k)` items. -/
def readInt : Reader Int := fun cs =>
  match eat "-" cs with
  | some cs => (readNat cs).map fun r => (-(r.1 : Int), r.2)
  | none => (readNat cs).map fun r => ((r.1 : Int), r.2)

/-- An integer of `w` bits. -/
def readWord (w : Nat) : Reader (BitVec w) := fun cs => do
  let (n, cs) ← readNat cs
  if n < 2 ^ w then some (BitVec.ofNat w n, cs) else none

/-- Elements up to the closing text, at most as many as the number given. -/
def readSeparated {α : Type} (elem : Reader α) (sep close : String) : Nat → Reader (List α)
  | 0, _ => none
  | n + 1, cs => do
    let (x, cs) ← elem cs
    match eat close cs with
    | some cs => some ([x], cs)
    | none => do
      let cs ← eat sep cs
      let (xs, cs) ← readSeparated elem sep close n cs
      some (x :: xs, cs)

/-- A possibly empty sequence between two texts. -/
def readBetween {α : Type} (elem : Reader α) (first sep close : String) : Reader (List α) := fun cs => do
  let cs ← eat first cs
  match eat close cs with
  | some cs => some ([], cs)
  | none => readSeparated elem sep close cs.length cs

/-- `(v, v, ...)`. -/
def readList {α : Type} (elem : Reader α) : Reader (List α) := readBetween elem "(" ", " ")"

/-- A hex byte pair. -/
def readPair : Reader Byte
  | a :: b :: cs =>
    match digitOf a, digitOf b with
    | some x, some y => some (BitVec.ofNat 8 (16 * x + y), cs)
    | _, _ => none
  | _ => none

/-- The characters up to the closing quote, as bytes. -/
def readQuoted : Reader Bytes
  | [] => none
  | ch :: cs =>
    if ch = Char.ofNat 34 then some ([], cs)
    else if 128 ≤ ch.toNat then none
    else (readQuoted cs).map fun r => (BitVec.ofNat 8 ch.toNat :: r.1, r.2)

/-- A `Bytes` literal: hex byte pairs in square brackets, or an ASCII string in double quotes. -/
def readBytes : Reader Bytes := fun cs =>
  match eatChars [Char.ofNat 34] cs with
  | some cs => readQuoted cs
  | none => readBetween readPair "[" " " "]" cs

/-- `name=value`. -/
def readNamed {α : Type} (name : String) (value : Reader α) : Reader α := fun cs => do
  let cs ← eat (name ++ "=") cs
  value cs

/-- `name=value` for the non-reserved items in order, each but the first after a comma. -/
def readItems {ι α : Type} (reserved : ι → Bool) (value : ι → Reader α) :
    String → List (FieldName × ι) → Reader (List α)
  | _, [], cs => some ([], cs)
  | before, (n, it) :: items, cs =>
    if reserved it then readItems reserved value before items cs
    else do
      let cs ← eat before cs
      let (v, cs) ← readNamed n (value it) cs
      let (vs, cs) ← readItems reserved value ", " items cs
      some (v :: vs, cs)

/-- A group or a figure record: its items in braces. -/
def readBraced {ι α : Type} (reserved : ι → Bool) (value : ι → Reader α) (items : List (FieldName × ι)) :
    Reader (List α) := fun cs => do
  let cs ← eatOpen cs
  let (vs, cs) ← readItems reserved value "" items cs
  let cs ← eatClose cs
  some (vs, cs)

/-- A bit item has no value to write. -/
def bitReserved : BitItem → Bool
  | .rb _ => true
  | _ => false

/-- The value of a bit item. -/
def readBit : BitItem → Reader BitValue
  | .eb e _, cs => (readNat cs).map fun r => (.enum e r.1, r.2)
  | _, cs => (readInt cs).map fun r => (.int r.1, r.2)

/-- The value of a leaf item. -/
def readLeaf : LeafItem → Reader LeafValue
  | .enum e _, cs => (readNat cs).map fun r => (.enum e r.1, r.2)
  | .bits gs, cs => (readBraced bitReserved readBit gs cs).map fun r => (.group r.1, r.2)
  | _, cs => (readInt cs).map fun r => (.int r.1, r.2)

/-- The value of a plain item. -/
def readPlain : PlainItem → Reader PlainValue
  | .leaf it, cs => (readLeaf it cs).map fun r => (.leaf r.1, r.2)
  | .arr e _, cs => (readList (readLeaf e) cs).map fun r => (.list r.1, r.2)
  | .rsv _, _ => none

/-- The value of an item. -/
def readValue (c : Config) : Item → Reader Value
  | .plain it, cs => (readPlain it cs).map fun r => (.plain r.1, r.2)
  | .figure, cs => (readBraced plainReserved readPlain c.figureLayout cs).map fun r => (.record r.1, r.2)
  | .figures _, cs =>
    (readList (readBraced plainReserved readPlain c.figureLayout) cs).map fun r => (.records r.1, r.2)

/-- The values of a layout, after the tag. -/
def readLayout (c : Config) : Layout → Reader (List Value)
  | .fixed items, cs => readItems itemReserved (readValue c) ", " items cs
  | .rid, cs => do
    let (vs, cs) ← readItems itemReserved (readValue c) ", " ridItems cs
    let cs ← eat ", " cs
    let (d, cs) ← readNamed "data" readBytes cs
    some (vs ++ [.bytes d], cs)

/-- A `FrameHeader` literal. -/
def readHeader : Reader FrameHeader := fun cs => do
  let cs ← eat "Hdr" cs
  let cs ← eatOpen cs
  let (len, cs) ← readNamed "len" (readWord 16) cs
  let (sequence, cs) ← readNamed ", seq" (readWord 8) cs
  let (crc, cs) ← readNamed ", crc8" (readWord 8) cs
  let cs ← eatClose cs
  some (⟨len, sequence, crc⟩, cs)

/-- A `Variant` literal, read by the layout of its tag; a tag outside `TAGS` has no values to write. -/
def readVariant (c : Config) : Reader Variant := fun cs => do
  let cs ← eat "Var" cs
  let cs ← eatOpen cs
  let (tag, cs) ← readNamed "tag" (readWord 16) cs
  let (values, cs) ← match c.layoutOf tag with
    | some layout => readLayout c layout cs
    | none => some ([], cs)
  let cs ← eatClose cs
  some (⟨tag, values⟩, cs)

/-- A `Frame` literal. -/
def readFrame (c : Config) : Reader Frame := fun cs => do
  let cs ← eat "Frame" cs
  let cs ← eatOpen cs
  let (hdr, cs) ← readNamed "hdr" readHeader cs
  let (pay, cs) ← readNamed ", pay" (readVariant c) cs
  let (tail, cs) ← readNamed ", tail" (readWord 16) cs
  let cs ← eatClose cs
  some (⟨hdr, pay, tail⟩, cs)

/-- A `(width, value)` pair of BITS_PACK. -/
def readField : Reader (U8 × U32) := fun cs => do
  let cs ← eat "(" cs
  let (w, cs) ← readWord 8 cs
  let cs ← eat ", " cs
  let (v, cs) ← readWord 32 cs
  let cs ← eat ")" cs
  some ((w, v), cs)

/-- An operation with one operand. -/
def readOne {α : Type} (make : α → Instr) (name : String) (value : Reader α) : Reader Instr := fun cs =>
  (readNamed name value cs).map fun r => (make r.1, r.2)

/-- Each mnemonic with the reader of its operands, in the order of R66. -/
def operandReaders (c : Config) : List (String × Reader Instr) :=
  [("CRC8", readOne .crc8 "data" readBytes),
   ("CRC16", readOne .crc16 "data" readBytes),
   ("HDR_DECODE", readOne .hdrDecode "bytes" readBytes),
   ("HDR_ENCODE", readOne .hdrEncode "hdr" readHeader),
   ("HDR_RECOMPUTE", fun cs => do
     let (len, cs) ← readNamed "payload_length" (readWord 16) cs
     let (sequence, cs) ← readNamed ", sequence" (readWord 8) cs
     some (.hdrRecompute len sequence, cs)),
   ("PAY_DECODE", fun cs => do
     let (tag, cs) ← readNamed "tag" (readWord 16) cs
     let (bytes, cs) ← readNamed ", bytes" readBytes cs
     let (declared, cs) ← readNamed ", declared" (readWord 16) cs
     some (.payDecode tag bytes declared, cs)),
   ("PAY_ENCODE", readOne .payEncode "v" (readVariant c)),
   ("BITS_UNPACK", fun cs => do
     let (bytes, cs) ← readNamed "bytes" readBytes cs
     let (bitpos, cs) ← readNamed ", bitpos" (readWord 32) cs
     let (width, cs) ← readNamed ", width" (readWord 8) cs
     some (.bitsUnpack bytes bitpos width, cs)),
   ("BITS_PACK", readOne .bitsPack "fields" (readList readField)),
   ("FRAME_BUILD", fun cs => do
     let (sequence, cs) ← readNamed "sequence" (readWord 8) cs
     let (payload, cs) ← readNamed ", payload" (readVariant c) cs
     some (.frameBuild sequence payload, cs)),
   ("FRAME_ENCODE", readOne .frameEncode "frame" (readFrame c)),
   ("FRAME_DECODE", readOne .frameDecode "bytes" readBytes),
   ("TAIL_CHECK", readOne .tailCheck "bytes" readBytes),
   ("IX_DISPATCH", readOne .ixDispatch "rid" (readVariant c))]

/-- The operation a request's text names (R70), or `none` when the text is not of that syntax. -/
def assemble (c : Config) (text : String) : Option Instr :=
  (operandReaders c).findSome? fun m => do
    let cs ← eat (m.1 ++ " ") text.toList
    match m.2 cs with
    | some (i, []) => some i
    | _ => none

end Sys2Proof.Machine
end

