-- ==== Sys2Proof/Tests/Slice0.lean ====
section
/-! SUPPORT. Tests. The expected values are those of `95_test_vectors.md` (section named at each group), of the
worked examples of the operation rules, or hand calculation from a rule, never the model's own answers. -/

namespace Sys2Proof.Tests

open Sys2Proof Sys2Proof.Machine

-- With asynchronous elaboration the many kernel evaluations below would each hold a thread.
set_option Elab.async false

/-! ## Named values of `95_test_vectors.md` section 2.4 -/

def int (v : Int) : Value := .plain (.leaf (.int v))

def gs : Variant :=
  ⟨0x0001, [.plain (.leaf (.group [.enum .gameType 1, .enum .gameProgress 4])), int 300, int 0x0102030405060708]⟩

def gsBody : Bytes := [0x14, 0x2C, 0x01, 0x08, 0x07, 0x06, 0x05, 0x04, 0x03, 0x02, 0x01]

def sc : Variant :=
  ⟨0x0306, [int 0x0041, .plain (.leaf (.group [.int 0xABC, .int 1, .int 0x123, .int 0]))]⟩

def scBody : Bytes := [0x41, 0x00, 0xAB, 0xC1, 0x12, 0x30, 0x00, 0x00]

def rid (subtag : U16) (data : Bytes) : Variant := ridVariant tc1 subtag 0x0007 0x0107 data

def rs : Variant := rid 0x0120 [0xAD, 0x29, 0xE0, 0x00]

def figBytes : Bytes :=
  [0x41, 0x42, 0x43, 0x29, 0x60, 0x01, 0xFF, 0x00, 0xDE, 0x02, 0x1C, 0x00, 0x03, 0x27, 0xFF]

def fig : Fig :=
  [.list [.int 0x41, .int 0x42, .int 0x43],
   .leaf (.group [.enum .figureOperateType 1, .enum .figureType 2, .int 5, .enum .figureColor 8, .int 0, .int 0x1FF]),
   .leaf (.group [.int 3, .int 960, .int 540]),
   .leaf (.group [.int 0, .int 100, .int 0x7FF])]

def fGs : Bytes :=
  [0xA5, 0x0B, 0x00, 0x01, 0x6A, 0x01, 0x00, 0x14, 0x2C, 0x01, 0x08, 0x07, 0x06, 0x05, 0x04, 0x03, 0x02, 0x01,
   0x6D, 0xDC]

def frameGs : Frame := ⟨⟨0x000B, 0x01, 0x6A⟩, gs, 0xDC6D⟩

/-- The response the first request after reset gets. -/
def responseFor (i : Instr) : Option Response :=
  match exec i State.reset with
  | .next s => s.response
  | _ => none

/-! ## A configuration that is not well-formed is refused: one for each check -/

/-- TC1 with one more layout. -/
def withLayout (items : List (FieldName × Item)) : Config :=
  { tc1 with layouts := (0x0400, items) :: tc1.layouts }

def leaf (it : LeafItem) : List (FieldName × Item) := [("x", .plain (.leaf it))]

/-- Every check counts: a configuration that fails one of them is not legal. The tests below name the check. -/
theorem smoke_every_check_counts (c : Config) (h : c.legal = true) :
    c.oneLayoutPerTag = true ∧ c.hasGameStatus = true ∧ c.layoutsOk = true ∧ c.figureOk = true ∧
      c.layerDeleteOk = true ∧ c.enumsOk = true ∧ c.subtagsOk = true ∧ c.r2rOrdered = true ∧ c.namesEnums = true ∧
      c.hasKnownVariants = true := by
  simpa [Config.legal, Config.wellFormed, and_assoc] using h

theorem smoke_tc1_accepted : tc1.legal = true := by decide +kernel
theorem smoke_empty_layout_accepted : (withLayout []).legal = true := by decide +kernel
theorem smoke_tag_twice : { tc1 with layouts := (0x0306, []) :: tc1.layouts }.legal = false := by decide +kernel
theorem smoke_rid_tag_with_layout : { tc1 with tagRid := 0x0309 }.legal = false := by decide +kernel
theorem smoke_no_game_status : { tc1 with layouts := tc1.layouts.drop 1 }.legal = false := by decide +kernel
theorem smoke_name_twice :
    (withLayout [("x", .plain (.leaf (.u 1))), ("x", .plain (.leaf (.u 2)))]).legal = false := by decide +kernel
theorem smoke_name_not_identifier :
    (withLayout [("1x", .plain (.leaf (.u 1)))]).legal = false ∧ (withLayout [("", .plain (.leaf (.u 1)))]).legal = false ∧
      (withLayout [("a.b", .plain (.leaf (.u 1)))]).legal = false := by decide +kernel
theorem smoke_name_twice_in_two_groups :
    (withLayout [("x", .plain (.leaf (.bits [("a", .ub 8)]))), ("y", .plain (.arr (.bits [("a", .ub 8)]) 2))]).legal
      = false := by decide +kernel
theorem smoke_field_named_as_item :
    (withLayout [("x", .plain (.leaf (.bits [("x", .ub 8)])))]).legal = false := by decide +kernel
theorem smoke_u3 : (withLayout (leaf (.u 3))).legal = false := by decide +kernel
theorem smoke_i5 : (withLayout (leaf (.i 5))).legal = false := by decide +kernel
theorem smoke_enum_width : (withLayout (leaf (.enum .endpointId 1))).legal = false := by decide +kernel
theorem smoke_enum_four_bytes : (withLayout (leaf (.enum .gameType 4))).legal = false := by decide +kernel
theorem smoke_enum_unknown : (withLayout (leaf (.enum (.other 0) 1))).legal = false := by decide +kernel
theorem smoke_group_seven_bits : (withLayout (leaf (.bits [("a", .ub 7)]))).legal = false := by decide +kernel
theorem smoke_group_empty : (withLayout (leaf (.bits []))).legal = false := by decide +kernel
theorem smoke_group_name_twice :
    (withLayout (leaf (.bits [("a", .ub 4), ("a", .ub 4)]))).legal = false := by decide +kernel
theorem smoke_ub_zero : (withLayout (leaf (.bits [("a", .ub 0), ("b", .ub 8)]))).legal = false := by decide +kernel
theorem smoke_ub_forty : (withLayout (leaf (.bits [("a", .ub 40)]))).legal = false := by decide +kernel
theorem smoke_eb_width :
    (withLayout (leaf (.bits [("a", .eb .gameType 3), ("b", .ub 5)]))).legal = false := by decide +kernel
theorem smoke_rb_zero : (withLayout (leaf (.bits [("a", .rb 0), ("b", .ub 8)]))).legal = false := by decide +kernel
theorem smoke_rsv_zero : (withLayout [("x", .plain (.rsv 0))]).legal = false := by decide +kernel
theorem smoke_arr_zero : (withLayout [("x", .plain (.arr (.u 1) 0))]).legal = false := by decide +kernel
theorem smoke_arr_element : (withLayout [("x", .plain (.arr (.u 3) 2))]).legal = false := by decide +kernel
theorem smoke_figures_zero : (withLayout [("x", .figures 0)]).legal = false := by decide +kernel
theorem smoke_figure_size : { tc1 with figureLayout := tc1Figure.drop 1 }.figureOk = false := by decide +kernel
theorem smoke_figure_names :
    { tc1 with figureLayout := [("x", .rsv 7), ("x", .rsv 8)] }.figureOk = false := by decide +kernel
theorem smoke_layer_delete_size :
    { tc1 with layerDeleteLayout := [("x", .rsv 3)] }.layerDeleteOk = false := by decide +kernel
theorem smoke_layer_delete_names :
    { tc1 with layerDeleteLayout := [("x", .rsv 1), ("x", .rsv 1)] }.layerDeleteOk = false := by decide +kernel
theorem smoke_enum_twice : { tc1 with enums := (.robotID, ⟨8, [0]⟩) :: tc1Enums }.enumsOk = false := by decide +kernel
theorem smoke_enum_out_of_width :
    { tc1 with enums := (.other 0, ⟨4, [16]⟩) :: tc1Enums }.enumsOk = false := by decide +kernel
theorem smoke_enum_empty : { tc1 with enums := (.other 0, ⟨4, []⟩) :: tc1Enums }.enumsOk = false := by decide +kernel
theorem smoke_enum_missing : { tc1 with enums := tc1Enums.take 15 }.namesEnums = false := by decide +kernel
theorem smoke_endpoint_width :
    { tc1 with enums := (.endpointId, ⟨8, [1]⟩) :: tc1Enums.filter (·.1 ≠ EnumName.endpointId) }.enumsOk = false := by
  decide +kernel
theorem smoke_subtag_twice :
    { tc1 with ixSubtags := { tc1.ixSubtags with customChar := 0x0120 } }.subtagsOk = false := by decide +kernel
theorem smoke_subtag_in_range :
    { tc1 with ixSubtags := { tc1.ixSubtags with figure7 := 0x02FF } }.subtagsOk = false := by decide +kernel
theorem smoke_range_reversed : { tc1 with ixR2rLo := 0x0300 }.r2rOrdered = false := by decide +kernel
theorem smoke_no_map_path :
    { tc1 with layouts := tc1.layouts.filter (·.1 ≠ 0x0307) }.hasKnownVariants = false := by decide +kernel
theorem smoke_no_simulate_control :
    { tc1 with layouts := tc1.layouts.filter (·.1 ≠ 0x0306) }.hasKnownVariants = false := by decide +kernel

/-- TC1 with another layout for SimulateControl. -/
def withSimulateControl (items : List (FieldName × Item)) : Config :=
  { tc1 with layouts := (0x0306, items) :: tc1.layouts.filter (·.1 ≠ 0x0306) }

theorem smoke_simulate_control_in_array_accepted :
    (withSimulateControl [("x", .plain (.arr (.bits [("a", .ub 4), ("b", .ub 12)]) 2))]).hasKnownVariants = true := by
  decide +kernel
theorem smoke_simulate_control_not_adjacent :
    (withSimulateControl
      (leaf (.bits [("a", .ub 12), ("b", .ub 1), ("c", .ub 4), ("d", .ub 7)]))).hasKnownVariants = false := by
  decide +kernel
theorem smoke_simulate_control_no_shared_byte :
    (withSimulateControl (leaf (.bits [("a", .ub 4), ("b", .rb 8), ("c", .ub 12)]))).hasKnownVariants = false ∧
      (withSimulateControl
        (leaf (.bits [("d", .rb 4), ("a", .ub 12), ("b", .ub 4), ("c", .rb 4)]))).hasKnownVariants = false := by
  decide +kernel

/-- One layout that has the shapes of MapPathData and of SimulateControl, which would serve as both. -/
def mapAndSimulate : List (FieldName × Item) :=
  [("a", .plain (.leaf (.bits [("p", .ub 12), ("q", .ub 4)]))), ("b", .plain (.leaf (.u 1))),
   ("c", .plain (.leaf (.u 2))), ("x", .plain (.arr (.i 1) 49)), ("y", .plain (.arr (.i 1) 49)),
   ("z", .plain (.leaf (.u 2)))]
theorem smoke_one_layout_for_two_variants :
    { tc1 with layouts :=
        [(0x0001, tc1GameStatus), (0x0307, mapAndSimulate), (0x0309, tc1CustomData)] }.hasKnownVariants = false ∧
      { tc1 with layouts :=
        [(0x0001, tc1GameStatus), (0x0306, mapAndSimulate), (0x0307, mapAndSimulate), (0x0309, tc1CustomData)] }.hasKnownVariants
        = true := by decide +kernel
theorem smoke_rid_as_custom_data :
    { tc1 with tagRid := 0x0309, layouts := tc1.layouts.filter (·.1 ≠ 0x0309) }.hasKnownVariants = false := by
  decide +kernel
theorem smoke_no_custom_data :
    { tc1 with layouts := tc1.layouts.filter (·.1 ≠ 0x0309) }.hasKnownVariants = false := by decide +kernel

/-! ## Decoding: selector bytes written out from `30_encoding.md` rule R66 -/

theorem decode_crc8 : decode ⟨0b00000001, [.bytes [0x31]]⟩ = .ok (.crc8 [0x31]) := rfl
theorem decode_crc16 : decode ⟨0b00000010, [.bytes [0x31]]⟩ = .ok (.crc16 [0x31]) := rfl
theorem decode_hdrDecode : decode ⟨0b00010000, [.bytes [0xA5]]⟩ = .ok (.hdrDecode [0xA5]) := rfl
theorem decode_hdrEncode : decode ⟨0b00010001, [.header ⟨11, 1, 0x6A⟩]⟩ = .ok (.hdrEncode ⟨11, 1, 0x6A⟩) := rfl
theorem decode_hdrRecompute : decode ⟨0b00010010, [.u16 11, .u8 1]⟩ = .ok (.hdrRecompute 11 1) := rfl
theorem decode_payDecode :
    decode ⟨0b00100000, [.u16 0x0301, .bytes [0x20], .u16 6]⟩ = .ok (.payDecode 0x0301 [0x20] 6) := rfl
theorem decode_payEncode : decode ⟨0b00100001, [.variant gs]⟩ = .ok (.payEncode gs) := rfl
theorem decode_bitsUnpack :
    decode ⟨0b00100010, [.bytes [0xAB, 0xC5], .u32 12, .u8 4]⟩ = .ok (.bitsUnpack [0xAB, 0xC5] 12 4) := rfl
theorem decode_bitsPack : decode ⟨0b00100011, [.fields [(3, 5)]]⟩ = .ok (.bitsPack [(3, 5)]) := rfl
theorem decode_frameBuild : decode ⟨0b00110000, [.u8 1, .variant gs]⟩ = .ok (.frameBuild 1 gs) := rfl
theorem decode_frameEncode : decode ⟨0b00110001, [.frame frameGs]⟩ = .ok (.frameEncode frameGs) := rfl
theorem decode_frameDecode : decode ⟨0b00110010, [.bytes fGs]⟩ = .ok (.frameDecode fGs) := rfl
theorem decode_tailCheck : decode ⟨0b00110011, [.bytes [0xFF]]⟩ = .ok (.tailCheck [0xFF]) := rfl
theorem decode_ixDispatch : decode ⟨0b01000000, [.variant rs]⟩ = .ok (.ixDispatch rs) := rfl

/-- Section 4.7: the unassigned codes next to the assigned ones, whatever the operands. -/
theorem decode_unassigned :
    ([0x00, 0x03, 0x0F, 0x13, 0x24, 0x34, 0x41, 0xFF] : List (BitVec 8)).map (fun op => decode ⟨op, [.u8 1]⟩)
      = List.replicate 8 (.error .unassignedOp) := by decide +kernel
theorem decode_ill_typed :
    decode ⟨0x12, [.u8 1, .u16 11]⟩ = .error .illTypedOperands ∧ decode ⟨0x01, []⟩ = .error .illTypedOperands :=
  ⟨rfl, rfl⟩
theorem decode_table_words :
    (assignedOps.filterMap fun op => decodeTableWord 8 op.toNat).map (fun i => (encode i).op) = assignedOps ∧
      decodeTableWord 8 0x03 = none := by decide +kernel
theorem step_runs_table_word :
    step (State.reset.withFetchWord 8 0x02) = exec (.crc16 []) (State.reset.withFetchWord 8 0x02) := rfl

/-! ## The operations: section 4, worked examples of the rules -/

theorem test_crc8_check :
    responseFor (.crc8 (asciiBytes "123456789")) = some ⟨.ok, none, some (.crc8 0xF7)⟩ := by decide +kernel
theorem test_crc8_empty : responseFor (.crc8 []) = some ⟨.ok, none, some (.crc8 0xFF)⟩ := by decide +kernel
theorem test_crc16_check :
    responseFor (.crc16 (asciiBytes "123456789")) = some ⟨.ok, none, some (.crc16 0x29B1)⟩ := by decide +kernel
theorem test_crc16_zero_byte : responseFor (.crc16 [0x00]) = some ⟨.ok, none, some (.crc16 0xE1F0)⟩ := by
  decide +kernel

theorem test_hdrDecode_longer_buffer :
    responseFor (.hdrDecode [0xA5, 0x0B, 0x00, 0x01, 0x6A, 0xFF]) =
      some ⟨.ok, none, some (.header ⟨0x000B, 0x01, 0x6A⟩)⟩ := by decide +kernel
theorem test_hdrDecode_magic_first :
    responseFor (.hdrDecode [0x5A, 0x0B, 0x00, 0x01, 0x6B]) = some ⟨.badMagic, none, none⟩ := by decide +kernel
theorem test_hdrEncode : responseFor (.hdrEncode ⟨0x000A, 0x07, 0x8A⟩) =
    some ⟨.ok, none, some (.bytes [0xA5, 0x0A, 0x00, 0x07, 0x8A])⟩ := by decide +kernel
theorem test_hdrEncode_crc_as_held : responseFor (.hdrEncode ⟨0x0B0C, 0x01, 0x00⟩) =
    some ⟨.ok, none, some (.bytes [0xA5, 0x0C, 0x0B, 0x01, 0x00])⟩ := by decide +kernel
theorem test_hdrRecompute_zero :
    responseFor (.hdrRecompute 0 0) = some ⟨.ok, none, some (.header ⟨0, 0, 0xC3⟩)⟩ := by decide +kernel
theorem test_hdrRecompute_top : responseFor (.hdrRecompute 0xFFFF 0xFF) =
    some ⟨.ok, none, some (.header ⟨0xFFFF, 0xFF, 0xA5⟩)⟩ := by decide +kernel

theorem test_payDecode_gs : responseFor (.payDecode 0x0001 gsBody 11) = some ⟨.ok, none, some (.variant gs)⟩ := by
  decide +kernel
theorem test_payDecode_item_order : responseFor (.payDecode 0x0001 [0x04] 1) =
    some ⟨.invalidEnumValue, some (.enumValue [.name "gs", .name "game_type"] 0), none⟩ := by decide +kernel
theorem test_payEncode_sc : responseFor (.payEncode sc) =
    some ⟨.ok, none, some (.bytes [0x06, 0x03, 0x41, 0x00, 0xAB, 0xC1, 0x12, 0x30, 0x00, 0x00])⟩ := by decide +kernel
theorem test_payEncode_short_array : responseFor (.payEncode ⟨0x0309, [.plain (.list [.int 0, .int 1])]⟩) =
    some ⟨.contractViolation, none, none⟩ := by decide +kernel
theorem test_bitsUnpack_spanning : responseFor (.bitsUnpack [0x12, 0x34, 0x56, 0x78, 0x9A] 4 32) =
    some ⟨.ok, none, some (.value 0x23456789)⟩ := by decide +kernel
theorem test_bitsUnpack_past_end :
    responseFor (.bitsUnpack [0xAB, 0xC5] 12 5) = some ⟨.truncatedPayload, none, none⟩ := by decide +kernel
theorem test_bitsPack_sentry : responseFor (.bitsPack [(1, 1), (1, 0), (11, 0x5A5), (4, 3), (4, 12), (11, 0)]) =
    some ⟨.ok, none, some (.bytes [0xAD, 0x29, 0xE0, 0x00])⟩ := by decide +kernel
theorem test_bitsPack_padded : responseFor (.bitsPack [(1, 1), (32, 0xFFFFFFFF)]) =
    some ⟨.ok, none, some (.bytes [0xFF, 0xFF, 0xFF, 0xFF, 0x80])⟩ := by decide +kernel

theorem test_frameBuild_gs : responseFor (.frameBuild 0x01 gs) = some ⟨.ok, none, some (.frame frameGs)⟩ := by
  decide +kernel
theorem test_frameEncode_gs : responseFor (.frameEncode frameGs) = some ⟨.ok, none, some (.bytes fGs)⟩ := by
  decide +kernel
theorem test_frameEncode_wrong_tail :
    responseFor (.frameEncode { frameGs with tail := 0xDC6E }) = some ⟨.contractViolation, none, none⟩ := by
  decide +kernel
theorem test_frameDecode_gs_followed :
    responseFor (.frameDecode (fGs ++ [0xA5])) = some ⟨.ok, none, some (.decoded frameGs 20)⟩ := by decide +kernel
theorem test_frameDecode_payload_before_tail :
    responseFor (.frameDecode [0xA5, 0x01, 0x00, 0x00, 0x85, 0x99, 0x09, 0x00, 0x45, 0x85]) =
      some ⟨.unknownCommand, some (.tag 0x0999), none⟩ := by decide +kernel
theorem test_tailCheck_empty : responseFor (.tailCheck [0xFF, 0xFF]) = some ⟨.ok, none, some (.tail 0xFFFF)⟩ := by
  decide +kernel
theorem test_tailCheck_changed :
    responseFor (.tailCheck (fGs.set 19 0xDD)) = some ⟨.badFrameChecksum, none, none⟩ := by decide +kernel

theorem test_ixDispatch_sentry_reserved : responseFor (.ixDispatch (rid 0x0120 [0xAD, 0x29, 0xE0, 0xFF])) =
    some ⟨.ok, none, some (.interaction (.sentryCmd 1 0 0x5A5 3 12))⟩ := by decide +kernel
theorem test_ixDispatch_customChar :
    responseFor (.ixDispatch (rid 0x0110 (figBytes ++ (List.range 30).map (BitVec.ofNat 8)))) =
      some ⟨.ok, none, some (.interaction (.customChar fig ((List.range 30).map (BitVec.ofNat 8))))⟩ := by
  decide +kernel

/-! ## The assembler syntax (`30_encoding.md` rule R70; lines of sections 3 and 4) -/

theorem asm_reads_string :
    assemble tc1 (String.ofList ("CRC8 data=".toList ++ [Char.ofNat 34] ++ "12".toList ++ [Char.ofNat 34])) =
      some (.crc8 [0x31, 0x32]) := by decide +kernel
theorem asm_reads_decimal_and_hex :
    assemble tc1 "BITS_UNPACK bytes=[AB C5], bitpos=0x0C, width=4" = some (.bitsUnpack [0xAB, 0xC5] 12 4) := by
  decide +kernel
theorem asm_reads_its_own_text :
    [Instr.payEncode gs, .frameEncode frameGs, .ixDispatch rs, .bitsPack [], .hdrEncode ⟨10, 7, 0x8A⟩].all
      (fun i => assemble tc1 (requestText tc1 i) == some i) = true := by decide +kernel
theorem asm_writes_request :
    requestText tc1 (.payDecode 0x0001 [0x14, 0x2C] 11) = "PAY_DECODE tag=0x0001, bytes=[14 2C], declared=11" := by
  decide +kernel
theorem asm_writes_error :
    responseText tc1 ⟨.invalidEnumValue, some (.enumValue [.name "f", .index 1, .name "c1"] 5), none⟩ =
      "-> InvalidEnumValue(f.1.c1, 5)" := by decide +kernel
theorem asm_writes_ok : responseText tc1 ⟨.ok, none, some (.bytes [0xA5, 0x0A])⟩ = "-> OK [A5 0A]" := by
  decide +kernel

/-! ## Witnesses: for each obligation with hypotheses, values that meet them, each clause at its boundaries -/

theorem witness_SubmitTakesOneRequestAtATime :
    State.reset.request = none ∧ (State.reset.withFetchWord 8 1).request ≠ none ∧
      (State.reset.respond (.ok (.crc8 1))).response = some (.ok (.crc8 1)) := by decide +kernel

theorem witness_StatusCodesAndInfo :
    (Error.unknownCommand 7).info ≠ none ∧ (Error.invalidEnumValue [] 0).info ≠ none := by decide +kernel

theorem witness_HeaderCrcResidueIsZero :
    ([0xA5, 0x0B, 0x00, 0x01] : Bytes).length = 4 ∧ ([0xA5, 0x0B, 0x00, 0x01, 0x6A] : Bytes).length = 5 := by
  decide +kernel

/-- A wrong magic, a wrong CRC, both right; buffers of 0 and 4 bytes. -/
theorem witness_HdrDecodeGatesAndFields :
    ([] : Bytes).length < 5 ∧ ([0xA5, 0x0B, 0x00, 0x01] : Bytes).length < 5 ∧ (0x5A : Byte) ≠ 0xA5 ∧
      (0x6B : Byte) ≠ crc8 [0xA5, 0x0B, 0x00, 0x01] ∧ (0x6A : Byte) = crc8 [0xA5, 0x0B, 0x00, 0x01] := by
  decide +kernel

theorem witness_HdrEncodeAnswersFiveBytes :
    ([0xA5, 0x0B, 0x00, 0x01] : Bytes) =
        [0xA5, (0x000B : U16).extractLsb' 0 8, (0x000B : U16).extractLsb' 8 8, 0x01] ∧
      (0x6B : U8) ≠ crc8 [0xA5, 0x0B, 0x00, 0x01] := by decide +kernel

theorem witness_HeaderRoundTrips :
    State.reset.answers (.hdrDecode fGs) (.header ⟨0x000B, 0x01, 0x6A⟩) :=
  (answers_outcome _ _ _).mpr (by decide +kernel)

/-- The hypotheses for both branches: byte 0, and bytes 1 and 4, first and last bit. -/
theorem witness_HeaderSingleBitFlipIsDetected :
    State.reset.answers (.hdrDecode fGs) (.header ⟨0x000B, 0x01, 0x6A⟩) ∧
      (0 < 5 ∧ 0 < 8) ∧ (1 < 5 ∧ 0 < 8) ∧ (4 < 5 ∧ 7 < 8) ∧
      responseFor (.hdrDecode (flipBit fGs 0 7)) = some ⟨.badMagic, none, none⟩ ∧
      responseFor (.hdrDecode (flipBit fGs 4 7)) = some ⟨.badChecksum, none, none⟩ :=
  ⟨witness_HeaderRoundTrips, by decide +kernel⟩

theorem witness_PayDecodeDispatchesOnTheTag :
    (0x0999 : U16) ∉ tc1.tags ∧ (0x0001 : U16) ∈ tc1.tags ∧ (0x0301 : U16) ∈ tc1.tags ∧
      State.reset.answers (.payDecode 0x0001 gsBody 11) (.variant gs) :=
  ⟨by decide +kernel, by decide +kernel, by decide +kernel, (answers_outcome _ _ _).mpr (by decide +kernel)⟩

def gsGroup : LeafItem := .bits [("game_type", .eb .gameType 4), ("game_progress", .eb .gameProgress 4)]

/-- 10, 11 and 12 bytes for a layout of 11; the longer body with and without an item error; section 4.3, the body
`[04]`, too short for the layout and illegal in its first item; the first and the last item of the body of the exact
size, whose `sync_time` starts at byte 3. -/
theorem witness_FixedBodyLengthGates :
    tc1.layoutOf 0x0001 = some (.fixed tc1GameStatus) ∧ sizeOfItems Item.size tc1GameStatus = 11 ∧
      (gsBody.take 10).length < 11 ∧ gsBody.length = 11 ∧ 11 < (gsBody ++ [0]).length ∧
      State.reset.answers (.payDecode 0x0001 ((gsBody ++ [0]).take 11) 12) (.variant gs) ∧
      State.reset.raises (.payDecode 0x0001 ((gsBody ++ [0]).set 0 0x04 |>.take 11) 12)
        (.invalidEnumValue [.name "gs", .name "game_type"] 0) ∧
      tc1GameStatus = [] ++ ("gs", .plain (.leaf gsGroup)) :: tc1GameStatus.drop 1 ∧
      decodeItems (decodeItem tc1 [0x04]) [] [] 0 = .ok (([] : List Value), 0) ∧
      decodeItem tc1 [0x04] (.plain (.leaf gsGroup)) 0 [.name "gs"] =
        .error (.invalidEnumValue [.name "gs", .name "game_type"] 0) ∧
      tc1GameStatus = tc1GameStatus.take 2 ++ ("sync_time", .plain (.leaf (.u 8))) :: [] ∧
      decodeItem tc1 gsBody (.plain (.leaf (.u 8))) 3 [.name "sync_time"] = .ok (some (int 0x0102030405060708), 11) ∧
      valueAfter itemReserved (tc1GameStatus.take 2) (.plain (.leaf (.u 8))) gs.values =
        some (int 0x0102030405060708) :=
  ⟨by decide +kernel, by decide +kernel, by decide +kernel, by decide +kernel, by decide +kernel,
   (answers_outcome _ _ _).mpr (by decide +kernel), (raises_outcome _ _ _).mpr (by decide +kernel),
   by decide +kernel, by decide +kernel, by decide +kernel, by decide +kernel, by decide +kernel, by decide +kernel⟩

/-- declared 5 and 6; 3 bytes; an illegal and a legal sender; 5 bytes; an illegal and a legal receiver; too few,
too many and exactly the declared bytes. -/
theorem witness_RidDecodeGatesAndValues :
    (5 : U16).toNat < 6 ∧ 6 ≤ (6 : U16).toNat ∧ ([0x20, 0x01, 0x07] : Bytes).length < 4 ∧
      tc1.enumLegal .endpointId ((0x00 : Byte) ++ (0x08 : Byte)).toNat = false ∧
      tc1.enumLegal .endpointId ((0x00 : Byte) ++ (0x07 : Byte)).toNat = true ∧
      ([0x07] : Bytes).length < 2 ∧
      tc1.enumLegal .endpointId ((0x00 : Byte) ++ (0x09 : Byte)).toNat = false ∧
      tc1.enumLegal .endpointId ((0x01 : Byte) ++ (0x07 : Byte)).toNat = true ∧
      ([] : Bytes).length < (7 : U16).toNat - 6 ∧ (6 : U16).toNat - 6 < ([0x55] : Bytes).length ∧
      ([] : Bytes).length = (6 : U16).toNat - 6 ∧ ([0x55] : Bytes).length = (7 : U16).toNat - 6 := by
  decide +kernel

theorem witness_IntegerItemsReadLittleEndian :
    1 ∈ [1, 2, 4, 8] ∧ 8 ∈ [1, 2, 4, 8] ∧ 3 + 8 ≤ gsBody.length ∧ gsBody.length < 4 + 8 := by decide +kernel

/-- One byte short, and both outcomes of the check. -/
theorem witness_EnumItemsAreCheckedAgainstTheirSet :
    LeafItem.ok tc1 (.enum .endpointId 2) = true ∧ ([0x07, 0x01] : Bytes).length < 1 + 2 ∧
      0 + 2 ≤ ([0x07, 0x01] : Bytes).length ∧ tc1.enumLegal .endpointId (0x0107 : U32).toNat = true ∧
      tc1.enumLegal .endpointId (0x0008 : U32).toNat = false := by decide +kernel

/-- An array whose second element is illegal, and a batch whose second figure is. -/
theorem witness_ArraysReportTheFirstFailingIndex :
    decodePlain tc1 [0x02, 0x03, 0x09] (.arr (.enum .layerDeleteType 1) 3) 0 [.name "d"] =
        .error (.invalidEnumValue [.name "d", .index 1] 3) ∧
      decodePlain tc1 [0x02, 0x03, 0x09] (.arr (.enum .layerDeleteType 1) 1) 0 [.name "d"] =
        .ok (some (.list [.enum .layerDeleteType 2]), 1) ∧
      decodeItem tc1 (figBytes ++ figBytes.set 3 0xA9) (.figures 2) 0 [.name "f"] =
        .error (.invalidEnumValue [.name "f", .index 1, .name "c1", .name "operate_type"] 5) ∧
      decodeItem tc1 (figBytes ++ figBytes.set 3 0xA9) (.figures 1) 0 [.name "f"] =
        .ok (some (.records [fig]), 0 + 1 * 15) := by decide +kernel

/-- A group with an unsigned field, an enumeration and reserved bits, at its first and last bits. -/
theorem witness_EncodedGroupHoldsEachFieldAtItsBits :
    LeafItem.ok tc1 (.bits [("a", .ub 3), ("b", .eb .gameType 4), ("c", .rb 9)]) = true ∧
      fitsLeaf tc1 (.bits [("a", .ub 3), ("b", .eb .gameType 4), ("c", .rb 9)]) (.group [.int 7, .enum .gameType 5])
        = true ∧
      groupBits [("a", .ub 3), ("b", .eb .gameType 4), ("c", .rb 9)] < 2 ^ 32 := by decide +kernel

/-- A group with no byte, and one whose second field is illegal. -/
theorem witness_GroupReportsFirstIllegalEnum :
    ([0x05] : Bytes).length < 1 + groupBits [("game_type", .eb .gameType 4), ("game_progress", .eb .gameProgress 4)] / 8 ∧
      1 + 8 / 8 ≤ ([0x05, 0x16] : Bytes).length ∧ slice [0x05, 0x16] 1 (8 / 8) = [0x16] ∧
      decodeBits tc1 [0x16] [.name "gs"] [("game_type", .eb .gameType 4)] 0 = .ok [.enum .gameType 1] ∧
      tc1.enumLegal .gameProgress (getBits [0x16] 4 4) = false := by decide +kernel

/-- Section 4.6: FIG_ABC with byte 3 = 0xA9, as the second figure of a batch: operate_type is 5, not legal. The
group starts at byte 3 of the record. -/
theorem witness_FigureRecordsAddNoNameToThePath :
    tc1.figureLayout = [("figure_name", .arr (.u 1) 3)] ++ ("c1", .leaf (.bits ([] ++ ("operate_type",
        .eb .figureOperateType 3) :: [("figure_type", .eb .figureType 3), ("layer", .ub 4), ("color",
        .eb .figureColor 4), ("details_a", .ub 9), ("details_b", .ub 9)]))) :: tc1.figureLayout.drop 2 ∧
      decodeItems (decodePlain tc1 (figBytes ++ figBytes.set 3 0xA9)) [.name "f", .index 1]
        [("figure_name", .arr (.u 1) 3)] 15 = .ok ([.list [.int 0x41, .int 0x42, .int 0x43]], 18) ∧
      18 + 4 ≤ (figBytes ++ figBytes.set 3 0xA9).length ∧
      tc1.enumLegal .figureOperateType (getBits (slice (figBytes ++ figBytes.set 3 0xA9) 18 4) 0 3) = false ∧
      pathText [.name "f", .index 1, .name "c1", .name "operate_type"] = "f.1.c1.operate_type" := by decide +kernel

/-- Two different bodies that differ in reserved bytes only. -/
theorem witness_PayDecodeIgnoresReservedContent :
    tc1.layoutOf 0x0306 = some (.fixed tc1SimulateControl) ∧ scBody.length = (scBody.set 6 0xFF).length ∧
      scBody ≠ scBody.set 6 0xFF ∧
      clearReserved tc1 (.fixed tc1SimulateControl) scBody =
        clearReserved tc1 (.fixed tc1SimulateControl) (scBody.set 6 0xFF) := by decide +kernel

/-- A fixed-size variant with its last item at bytes 3 to 10 and one whose last item is reserved, a RID variant, and
one that is not well-formed. -/
theorem witness_PayEncodeAnswersExactlyWellFormed :
    variantOk tc1 gs = true ∧ tc1.layoutOf gs.tag = some (.fixed tc1GameStatus) ∧ variantOk tc1 rs = true ∧
      rs.tag = tc1.tagRid ∧ variantOk tc1 ⟨0x0999, []⟩ = false ∧
      encodeItem tc1 (.plain (.leaf (.u 8))) (some (int 0x0102030405060708)) = some (slice gsBody 3 8) ∧
      tc1SimulateControl = tc1SimulateControl.take 2 ++ [("reserved", .plain (.rsv 2))] ∧
      valueAfter itemReserved (tc1SimulateControl.take 2) (.plain (.rsv 2)) sc.values = none ∧
      encodeItem tc1 (.plain (.rsv 2)) none = some (slice scBody 6 2) := by decide +kernel

/-- Section 2.4's figure FIG_ABC: its first item, an array, and its second, a group, twice in a batch; the encodings
one after the other. -/
theorem witness_ItemsAreMadeOfTheirPartsInOrder :
    decodePlain tc1 figBytes (.arr (.u 1) 3) 0 [] = .ok (some (.list [.int 0x41, .int 0x42, .int 0x43]), 0 + 3 * 1) ∧
      decodeItem tc1 figBytes .figure 0 [.name "fig"] = .ok (some (.record fig), 0 + 15) ∧
      decodeItem tc1 (figBytes ++ figBytes) (.figures 2) 0 [.name "f"] =
        .ok (some (.records [fig, fig]), 0 + 2 * 15) ∧
      valueAfter plainReserved (tc1.figureLayout.take 1) (.leaf (.u 1)) fig = fig[1]? ∧
      encodeItem tc1 .figure (some (.record fig)) = some figBytes ∧
      encodeItem tc1 (.figures 2) (some (.records [fig, fig])) = some (figBytes ++ figBytes) := by decide +kernel

theorem witness_PayloadRoundTrips :
    variantOk tc1 gs = true ∧ variantOk tc1 sc = true ∧ variantOk tc1 (rid 0x9999 []) = true := by decide +kernel

/-- With reserved bytes clear and not clear. -/
theorem witness_PayloadReencodingClearsReserved :
    State.reset.answers (.payDecode 0x0306 scBody 8) (.variant sc) ∧
      State.reset.answers (.payDecode 0x0306 (scBody.set 6 0xFF) 8) (.variant sc) :=
  ⟨(answers_outcome _ _ _).mpr (by decide +kernel), (answers_outcome _ _ _).mpr (by decide +kernel)⟩

/-- MapPathData of TC1 is encoded (rule R106: always 2 + 105 bytes). -/
theorem witness_EveryConfigurationHasTheKnownVariants :
    ∃ p, payloadBytes tc1 ⟨0x0307, [int 1, int 100, int 200, .plain (.list (List.replicate 49 (.int (-1)))),
      .plain (.list (List.replicate 49 (.int (-128)))), int 0x0107]⟩ = .ok p ∧ p.length = 107 :=
  ⟨[0x07, 0x03, 0x01, 0x64, 0x00, 0xC8, 0x00] ++ List.replicate 49 0xFF ++ List.replicate 49 0x80 ++ [0x07, 0x01],
   by decide +kernel, by decide +kernel⟩

/-- Widths 0, 1, 32 and 33; a field that ends at the last bit and one that runs one bit past it. -/
theorem witness_BitsUnpackAnswersTheBits :
    (0 : U8).toNat < 1 ∧ 32 < (33 : U8).toNat ∧
      (1 ≤ (1 : U8).toNat ∧ (1 : U8).toNat ≤ 32 ∧ 8 * ([0xAB] : Bytes).length < (8 : U32).toNat + (1 : U8).toNat) ∧
      (1 ≤ (32 : U8).toNat ∧ (32 : U8).toNat ≤ 32 ∧
        (8 : U32).toNat + (32 : U8).toNat ≤ 8 * ([0x12, 0x34, 0x56, 0x78, 0x9A] : Bytes).length) := by decide +kernel

theorem witness_BitsPackIsUnpackedFieldByField :
    (∃ f ∈ ([(0, 0)] : List (U8 × U32)), f.1.toNat < 1) ∧ (∃ f ∈ ([(33, 0)] : List (U8 × U32)), 32 < f.1.toNat) ∧
      (∃ f ∈ ([(4, 16)] : List (U8 × U32)), 2 ^ f.1.toNat ≤ f.2.toNat) ∧
      (∀ f ∈ ([(1, 1), (32, 0xFFFFFFFF)] : List (U8 × U32)),
        1 ≤ f.1.toNat ∧ f.1.toNat ≤ 32 ∧ f.2.toNat < 2 ^ f.1.toNat) ∧
      fieldBits [(1, 1), (32, 0xFFFFFFFF)] < 2 ^ 32 ∧
      ([(1, 1), (32, 0xFFFFFFFF)] : List (U8 × U32)) = [(1, 1)] ++ (32, 0xFFFFFFFF) :: [] ∧
      fieldBits [(1, 1), (32, 0xFFFFFFFF)] ≤ 39 ∧ 39 < 8 * 5 := by
  refine ⟨⟨(0, 0), by simp, by decide⟩, ⟨(33, 0), by simp, by decide⟩, ⟨(4, 16), by simp, by decide⟩, ?_,
    by decide, rfl, by decide, by decide⟩
  intro f hf
  simp only [List.mem_cons, List.not_mem_nil, or_false] at hf
  rcases hf with rfl | rfl <;> decide

/-- A configuration with a layout of 65536 bytes. -/
def bigConfig : CheckedConfig := ⟨withLayout [("x", .plain (.rsv 65536))], by decide +kernel⟩

theorem layoutOf_big : bigConfig.config.layoutOf 0x0400 = some (.fixed [("x", .plain (.rsv 65536))]) := by
  decide +kernel

theorem payloadBytes_reserved {c : Config} {tag : U16} {k : Nat}
    (hl : c.layoutOf tag = some (.fixed [("x", .plain (.rsv k))])) (hk : 0xFFFF < k) :
    ∃ p, payloadBytes c ⟨tag, []⟩ = .ok p ∧ 0xFFFF < p.length - 2 := by
  have hv : variantOk c ⟨tag, []⟩ = true := by
    simp only [variantOk, hl]
    rfl
  refine ⟨memWrite 2 tag.toNat ++ (memWrite k 0 ++ []), ?_, ?_⟩
  · simp only [payloadBytes, hv, hl]
    rfl
  · simp only [List.length_append, memWrite_length, List.length_nil]
    omega

/-- A body that fits, one that is too long, and a payload that is not well-formed. -/
theorem witness_FrameBuildAnswersConsistentFrame :
    (∃ p, payloadBytes tc1 gs = .ok p ∧ p.length - 2 ≤ 0xFFFF) ∧
      (∃ p, payloadBytes bigConfig.config ⟨0x0400, []⟩ = .ok p ∧ 0xFFFF < p.length - 2) ∧
      variantOk tc1 ⟨0x0999, []⟩ = false :=
  ⟨⟨[0x01, 0x00] ++ gsBody, by decide +kernel⟩,
   payloadBytes_reserved layoutOf_big (by decide), by decide +kernel⟩

/-- A consistent frame, and one wrong in each of the three invariants. -/
theorem witness_FrameEncodeAnswersExactlyConsistent :
    payloadBytes tc1 gs = .ok ([0x01, 0x00] ++ gsBody) ∧
      (frameGs.header.payloadLength.toNat = ([0x01, 0x00] ++ gsBody).length - 2 ∧
        frameGs.header.crc8 = crc8 [0xA5, 0x0B, 0x00, 0x01] ∧
        frameGs.tail = crc16 ([0xA5, 0x0B, 0x00, 0x01] ++ [0x6A] ++ ([0x01, 0x00] ++ gsBody))) ∧
      (0x000C : U16).toNat ≠ ([0x01, 0x00] ++ gsBody).length - 2 ∧
      (0x6B : U8) ≠ crc8 [0xA5, 0x0B, 0x00, 0x01] ∧
      (0xDC6E : U16) ≠ crc16 ([0xA5, 0x0B, 0x00, 0x01] ++ [0x6A] ++ ([0x01, 0x00] ++ gsBody)) ∧
      variantOk tc1 ⟨0x0999, []⟩ = false := by decide +kernel

/-- Every gate: a failing header, 19 bytes of 20, a payload error, a wrong and a right tail. -/
theorem witness_FrameDecodeRunsItsGatesInOrder :
    State.reset.raises (.hdrDecode (fGs.set 4 0x6B)) .badChecksum ∧
      State.reset.answers (.hdrDecode fGs) (.header frameGs.header) ∧
      (fGs.take 19).length < frameGs.header.payloadLength.toNat + 9 ∧
      State.reset.raises (.payDecode 0x0001 (gsBody.set 0 0x04) 0x000B)
        (.invalidEnumValue [.name "gs", .name "game_type"] 0) ∧
      State.reset.answers (.payDecode ((0x00 : Byte) ++ (0x01 : Byte)) gsBody 0x000B) (.variant gs) ∧
      fGs = [0xA5, 0x0B, 0x00, 0x01, 0x6A] ++ [0x01, 0x00] ++ gsBody ++ [0x6D, 0xDC] ++ [] ∧
      ((0xDC : Byte) ++ (0x6D : Byte)) = crc16 ([0xA5, 0x0B, 0x00, 0x01, 0x6A] ++ [0x01, 0x00] ++ gsBody) ∧
      ((0xDD : Byte) ++ (0x6D : Byte)) ≠ crc16 ([0xA5, 0x0B, 0x00, 0x01, 0x6A] ++ [0x01, 0x00] ++ gsBody) :=
  ⟨(raises_outcome _ _ _).mpr (by decide +kernel), (answers_outcome _ _ _).mpr (by decide +kernel),
   by decide +kernel, (raises_outcome _ _ _).mpr (by decide +kernel),
   (answers_outcome _ _ _).mpr (by decide +kernel), by decide +kernel⟩

/-- A buffer that ends with the frame, and one that goes on. -/
theorem witness_FrameDecodeIgnoresBytesAfterTheFrame :
    State.reset.answers (.hdrDecode fGs) (.header frameGs.header) ∧
      frameGs.header.payloadLength.toNat + 9 = fGs.length ∧
      frameGs.header.payloadLength.toNat + 9 ≤ (fGs ++ [0xA5]).length :=
  ⟨(answers_outcome _ _ _).mpr (by decide +kernel), by decide +kernel⟩

theorem witness_FrameRoundTrips :
    payloadBytes tc1 gs = .ok ([0x01, 0x00] ++ gsBody) ∧ ([0x01, 0x00] ++ gsBody).length - 2 ≤ 0xFFFF := by
  decide +kernel

/-- A built frame, and a decoded one whose reserved fields are clear (GameStatus has none). -/
theorem witness_AnsweredFramesKeepTheirInvariants :
    State.reset.answers (.frameBuild 0x01 gs) (.frame frameGs) ∧
      State.reset.answers (.frameDecode fGs) (.decoded frameGs 20) ∧
      tc1.layoutOf frameGs.payload.tag = some (.fixed tc1GameStatus) ∧
      clearReserved tc1 (.fixed tc1GameStatus) (slice fGs 7 frameGs.header.payloadLength.toNat) =
        slice fGs 7 frameGs.header.payloadLength.toNat :=
  ⟨(answers_outcome _ _ _).mpr (by decide +kernel), (answers_outcome _ _ _).mpr (by decide +kernel),
   by decide +kernel⟩

theorem witness_FrameTamperingIsDetected :
    State.reset.answers (.frameBuild 0x01 gs) (.frame frameGs) ∧
      State.reset.answers (.frameEncode frameGs) (.bytes fGs) ∧ (0 < 8 ∧ 7 < 8) ∧ (0x5A : Byte) ≠ 0xA5 :=
  ⟨(answers_outcome _ _ _).mpr (by decide +kernel), (answers_outcome _ _ _).mpr (by decide +kernel),
   by decide +kernel⟩

/-- One byte, a right and a wrong tail, and a byte sequence that passes with its first and last bits. -/
theorem witness_TailCheckComparesTheCrc :
    ([0x01] : Bytes).length < 2 ∧ ((0xFF : Byte) ++ (0xFF : Byte)) = crc16 [] ∧
      ((0xFE : Byte) ++ (0xFF : Byte)) ≠ crc16 [] ∧ (0 < fGs.length ∧ 7 < 8) ∧ (19 < fGs.length ∧ 0 < 8) ∧
      State.reset.answers (.tailCheck fGs) (.tail 0xDC6D) :=
  ⟨by decide +kernel, by decide +kernel, by decide +kernel, by decide +kernel, by decide +kernel,
   (answers_outcome _ _ _).mpr (by decide +kernel)⟩

theorem witness_IxDispatchTakesExactlyWellFormedRid :
    (rs.tag = tc1.tagRid ∧ variantOk tc1 rs = true) ∧ ¬ (gs.tag = tc1.tagRid ∧ variantOk tc1 gs = true) ∧
      variantOk tc1 (ridVariant tc1 0x0120 1 7 [5]) = true ∧ variantOk tc1 (ridVariant tc1 0x0120 7 1 [5]) = true := by
  decide +kernel

/-- Both ends of the robot-to-robot range, empty data. -/
theorem witness_IxRobotToRobotPassesDataThrough :
    variantOk tc1 (rid 0x0200 []) = true ∧ variantOk tc1 (rid 0x02FF []) = true ∧
      tc1.ixR2rLo.toNat ≤ (0x0200 : U16).toNat ∧ (0x02FF : U16).toNat ≤ tc1.ixR2rHi.toNat := by decide +kernel

/-- The first sub-tag past the range; every variant with one byte too few or too many. -/
theorem witness_IxUnmappedOrWrongSizeGivesNone :
    variantOk tc1 (rid 0x0300 [1]) = true ∧ tc1.inR2r 0x0300 = false ∧
      (∀ v ∈ IxVariant.all, tc1.subtagOf v ≠ 0x0300) ∧
      variantOk tc1 (rid 0x0121 []) = true ∧ tc1.subtagOf .radarCmd = 0x0121 ∧
      ([] : Bytes).length ≠ ixSize .radarCmd ∧
      variantOk tc1 (rid 0x0120 [0, 0, 0, 0, 0]) = true ∧ tc1.subtagOf .sentryCmd = 0x0120 ∧
      ([0, 0, 0, 0, 0] : Bytes).length ≠ ixSize .sentryCmd := by decide +kernel

/-- A layer-delete record with an illegal and a legal enumeration value. -/
theorem witness_IxInnerEnumFailureGivesNone :
    variantOk tc1 (rid (tc1.subtagOf .layerDelete) [0x03, 0x09]) = true ∧
      ([0x03, 0x09] : Bytes).length = ixSize .layerDelete ∧
      decodeBody tc1 (tc1.ixLayout .layerDelete) [0x03, 0x09] =
        .error (.invalidEnumValue [.name "delete_type"] 3) ∧
      variantOk tc1 (rid (tc1.subtagOf .layerDelete) [0x01, 0x09]) = true ∧
      decodeBody tc1 (tc1.ixLayout .layerDelete) [0x01, 0x09] =
        .ok ([.plain (.leaf (.enum .layerDeleteType 1)), int 9], 2) := by decide +kernel

/-- One, two, five and seven figures, the last record read back. -/
theorem witness_IxFigureBatchesAreAnsweredInOrder :
    [(IxVariant.figure1, 1), (.figure2, 2), (.figure5, 5), (.figure7, 7)].all (fun v =>
      variantOk tc1 (rid (tc1.subtagOf v.1) (List.replicate v.2 figBytes).flatten) &&
        (List.replicate v.2 figBytes).flatten.length == 15 * (List.replicate v.2 fig).length &&
        (List.range v.2).all fun j =>
          decodeFigure tc1 (slice (List.replicate v.2 figBytes).flatten (15 * j) 15) 0 [] == .ok (fig, 15))
      = true := by decide +kernel

theorem witness_IxCustomCharAndLayerDeleteAreAnswered :
    variantOk tc1 (rid tc1.ixSubtags.customChar (figBytes ++ List.replicate 30 0xFF)) = true ∧
      (figBytes ++ List.replicate 30 0xFF).length = 45 ∧
      decodeFigure tc1 (slice (figBytes ++ List.replicate 30 0xFF) 0 15) 0 [] = .ok (fig, 15) ∧
      variantOk tc1 (rid tc1.ixSubtags.layerDelete [0x01, 0x09]) = true ∧ ([0x01, 0x09] : Bytes).length = 2 ∧
      decodeItems (decodePlain tc1 [0x01, 0x09]) [] tc1.layerDeleteLayout 0 =
        .ok ([.leaf (.enum .layerDeleteType 1), .leaf (.int 9)], 2) := by decide +kernel

theorem witness_IxSentryFieldsAreAtTheirBits :
    variantOk tc1 (rid 0x0120 [0xAD, 0x29, 0xE0, 0xFF]) = true ∧
      (0xAD29E0FF : BitVec 32) = (0xAD : Byte) ++ (0x29 : Byte) ++ (0xE0 : Byte) ++ (0xFF : Byte) := by
  decide +kernel

theorem witness_IxRadarCarriesItsByte : variantOk tc1 (rid 0x0121 [0xFF]) = true := by decide +kernel

theorem witness_UnassignedOpIsIllegalOperation :
    ({ State.reset with request := some ⟨0x03, [.u8 1]⟩ } : State).request = some ⟨0x03, [.u8 1]⟩ ∧
      (0x03 : BitVec 8) ∉ assignedOps := by decide +kernel

theorem witness_StepRunsTheDecodedOperation :
    (State.reset.withFetchWord 8 0x33).request = some ⟨0x33, [.bytes []]⟩ ∧
      decode ⟨0x33, [.bytes []]⟩ = .ok (.tailCheck []) := ⟨rfl, rfl⟩

theorem witness_IdleStepChangesNothing : State.reset.request = none := rfl

theorem witness_EachOperationWritesOnlyItsStatuses :
    ∃ t, exec (.tailCheck []) State.reset = .next t ∧ t.response = some ⟨.truncatedPayload, none, none⟩ :=
  ⟨_, rfl, rfl⟩

/-- A step from a state that meets the invariant to one whose response holds a frame. -/
theorem witness_EveryStepKeepsTheResponseInvariant :
    State.reset.Inv ∧ ∃ t, step { State.reset with request := some (encode (.frameBuild 1 gs)) } = .next t ∧
      t.response = some ⟨.ok, none, some (.frame frameGs)⟩ :=
  ⟨fun _ h => (Option.some_ne_none _ h.symm).elim,
   ⟨State.reset.respond ⟨.ok, none, some (.frame frameGs)⟩,
    (answers_outcome State.reset (.frameBuild 1 gs) (.frame frameGs)).mpr (by decide +kernel), rfl⟩⟩

theorem witness_ProgramsNeverChangeTheConfiguration :
    ((State.reset.runProgram [encode (.crc8 []), ⟨0x03, []⟩]).map (·.1)) =
      some [⟨.ok, none, some (.crc8 0xFF)⟩, ⟨.illegalOperation, none, none⟩] := by decide +kernel

theorem witness_ResponseDependsOnlyOnRequestAndConfiguration :
    (State.reset.withFetchWord 8 0x01).request = some ⟨0x01, [.bytes []]⟩ ∧
      responseTo sampleConfig ⟨0x01, [.bytes []]⟩ = some ⟨.ok, none, some (.crc8 0xFF)⟩ := by decide +kernel

theorem witness_ProgramsAnswerEachRequestAsIfAlone :
    State.reset.request = none ∧
      [encode (.crc8 []), ⟨0x03, []⟩].mapM (responseTo sampleConfig) =
        some [⟨.ok, none, some (.crc8 0xFF)⟩, ⟨.illegalOperation, none, none⟩] ∧
      [⟨0x03, []⟩, encode (.crc8 [])].Perm [encode (.crc8 []), ⟨0x03, []⟩] := by decide +kernel

end Sys2Proof.Tests
end

section
/-! Encoded groups: where the bits of each field stand (`20_memory.md` rule R39). -/

namespace Sys2Proof.Machine

/-- `value` is what the bits of the bit item `g` hold, when `v` is what the group's value list has in the item's
place: the unsigned value, the raw enumeration value, or 0 for reserved bits, which have no value (R64, R109). -/
def HeldValue (g : BitItem) (v : Option BitValue) (value : Nat) : Prop :=
  (∀ w, g = .ub w → v = some (.int value)) ∧
  (∀ e w, g = .eb e w → v = some (.enum e value)) ∧
  (∀ w, g = .rb w → value = 0)

theorem heldValue_ub (w value : Nat) : HeldValue (.ub w) (some (.int value)) value :=
  ⟨fun _ _ => rfl, nofun, nofun⟩

theorem heldValue_eb (e : EnumName) (w raw : Nat) : HeldValue (.eb e w) (some (.enum e raw)) raw := by
  refine ⟨nofun, fun e' w' h => ?_, nofun⟩
  cases h
  rfl

theorem heldValue_rb (w : Nat) (v : Option BitValue) : HeldValue (.rb w) v 0 :=
  ⟨nofun, nofun, fun _ _ => rfl⟩

/-- A group's first item takes the first value, or none when it is reserved, and puts the bits it holds before
those of the other items, which the remaining values fit. -/
theorem encodeBits_cons {c : Config} {n : FieldName} {g : BitItem} {gs : List (FieldName × BitItem)}
    {vs : List BitValue} (fits : fitsBits c ((n, g) :: gs) vs = true) :
    ∃ value, HeldValue g vs[0]? value ∧ fitsBits c gs (vs.drop (bitItemValued g).toNat) = true ∧
      encodeBits ((n, g) :: gs) vs =
        (encodeBits gs (vs.drop (bitItemValued g).toNat)).map (putBits g.width value ++ ·) := by
  cases g with
  | rb w => exact ⟨0, heldValue_rb w _, by simpa [fitsBits, bitItemValued] using fits, rfl⟩
  | ub w =>
    match vs, fits with
    | .int v :: vs, fits =>
      simp only [fitsBits, inUnsigned, Bool.and_eq_true, decide_eq_true_eq] at fits
      obtain ⟨⟨nonneg, -⟩, fitsRest⟩ := fits
      obtain ⟨value, rfl⟩ := Int.eq_ofNat_of_zero_le nonneg
      exact ⟨value, heldValue_ub w value, fitsRest, rfl⟩
  | eb e w =>
    match vs, fits with
    | .enum e' raw :: vs, fits =>
      simp only [fitsBits, Bool.and_eq_true, beq_iff_eq] at fits
      obtain ⟨⟨rfl, -⟩, fitsRest⟩ := fits
      exact ⟨raw, heldValue_eb e' w raw, fitsRest, rfl⟩

/-- The number of values the items of a group take, one item at a time. -/
theorem valuedItems_cons (n : FieldName) (g : BitItem) (gs : List (FieldName × BitItem)) :
    (((n, g) :: gs).filter fun x => bitItemValued x.2).length =
      (bitItemValued g).toNat + (gs.filter fun x => bitItemValued x.2).length := by
  cases h : bitItemValued g <;> simp [h, Nat.add_comm]

/-- In a group's bits each item's stand after those of the items before it, and hold its value. -/
theorem encodeBits_split {c : Config} {pre post : List (FieldName × BitItem)} {n : FieldName} {g : BitItem}
    {vs : List BitValue} {bits : List Bool} (fits : fitsBits c (pre ++ (n, g) :: post) vs = true)
    (enc : encodeBits (pre ++ (n, g) :: post) vs = some bits) :
    ∃ value front back, HeldValue g vs[(pre.filter fun x => bitItemValued x.2).length]? value ∧
      bits = front ++ putBits g.width value ++ back ∧ front.length = groupBits pre := by
  induction pre generalizing vs bits with
  | nil =>
    obtain ⟨value, held, -, he⟩ := encodeBits_cons fits
    obtain ⟨back, -, rfl⟩ := Option.map_eq_some_iff.mp (he.symm.trans enc)
    exact ⟨value, [], back, held, rfl, rfl⟩
  | cons x pre ih =>
    obtain ⟨n', g'⟩ := x
    obtain ⟨v', -, fits', he⟩ := encodeBits_cons fits
    obtain ⟨rest, enc', rfl⟩ := Option.map_eq_some_iff.mp (he.symm.trans enc)
    obtain ⟨value, front, back, held, rfl, hl⟩ := ih fits' enc'
    refine ⟨value, putBits g'.width v' ++ front, back, ?_, by simp, by simp [groupBits, hl]⟩
    rwa [valuedItems_cons, ← List.getElem?_drop]

/-- A value put among packed bits stands there most significant bit first (R96, R97). -/
theorem bitAt_putBits (front back : List Bool) {w v i : Nat} (hi : i < w) :
    bitAt (bitsToBytes (front ++ putBits w v ++ back)) (front.length + i) = v.testBit (w - 1 - i) := by
  rw [bitAt_bitsToBytes _ (by simp; omega), List.getD_append _ _ _ _ (by simp; omega),
    List.getD_append_right _ _ _ _ (by omega), Nat.add_sub_cancel_left, putBits_getD hi]

/-- Settles O22: the encoded bits split at each item, by induction on the items before it. -/
theorem encodedGroupHoldsEachFieldAtItsBits : Obligations.EncodedGroupHoldsEachFieldAtItsBits := by
  intro s gs vs ok fits
  simp only [fitsLeaf] at fits
  simp only [LeafItem.ok, Bool.and_eq_true, beq_iff_eq] at ok
  obtain ⟨⟨⟨okItems, -⟩, whole⟩, -⟩ := ok
  obtain ⟨bits, enc, len, -⟩ := decodeBits_encodeBits s.config.legal [] okItems fits
  refine ⟨bitsToBytes bits, by simp [encodeLeaf, enc], by rw [bitsToBytes_length]; omega, ?_⟩
  rintro pre n g post rfl
  obtain ⟨value, front, back, ⟨isInt, isEnum, isZero⟩, rfl, start⟩ := encodeBits_split fits enc
  exact ⟨value, isInt, isEnum, isZero, fun i hi => start ▸ bitAt_putBits front back hi⟩

end Sys2Proof.Machine
end

section
/-! Unassigned codes: no arm of the decoder takes them, so the step raises (`30_encoding.md` rule R67). -/

namespace Sys2Proof.Machine

/-- An unassigned `op` has no assigned code's number, by which the decoder selects its arm. -/
theorem toNat_ne_of_unassigned {op : BitVec 8} {code : Nat} (unassigned : op ∉ assignedOps)
    (assigned : BitVec.ofNat 8 code ∈ assignedOps) : op.toNat ≠ code := by
  rintro rfl
  rw [BitVec.ofNat_toNat, BitVec.setWidth_eq] at assigned
  exact unassigned assigned

/-- The decoder names an unassigned `op` as such, whatever the operand record. -/
theorem decode_of_unassigned {r : Request} (unassigned : r.op ∉ assignedOps) :
    decode r = .error .unassignedOp := by
  unfold decode
  split
  case h_15 => rfl
  all_goals
    next selected => exact absurd selected (toNat_ne_of_unassigned unassigned (by decide))

/-- A step with an unassigned `op` pending takes the exception `IllegalOperation` (R147). -/
theorem step_of_unassigned {s : State} {r : Request} (pending : s.request = some r)
    (unassigned : r.op ∉ assignedOps) : step s = s.raise .illegalOperation := by
  simp only [step, pending, decode_of_unassigned unassigned]

/-- Settles O49: the decoder finds no operation and the step raises, which fixes the whole next state; the
unassigned codes are counted one by one. -/
theorem unassignedOpIsIllegalOperation : Obligations.UnassignedOpIsIllegalOperation :=
  ⟨fun _ _ pending unassigned => step_of_unassigned pending unassigned, by decide +kernel⟩

end Sys2Proof.Machine
end

section
/-! Checksums: the engine's turn as the pseudocode's on naturals, its linearity over GF(2), and the residue of
an appended CRC (`40_crc.md` rules R75 to R81). -/

namespace Sys2Proof.Machine

/-! ## The turn -/

/-- A turn on naturals, masked to the width as the pseudocode of R75 and R77 writes it. -/
theorem toNat_crcBit {w : Nat} (cfg : CrcConfig w) (acc : BitVec w) :
    (crcBit cfg acc).toNat =
      if acc.toNat.testBit (w - 1) then ((acc.toNat <<< 1) ^^^ cfg.poly.toNat) &&& (2 ^ w - 1)
      else (acc.toNat <<< 1) &&& (2 ^ w - 1) := by
  unfold crcBit
  rw [BitVec.testBit_toNat, ← BitVec.msb_eq_getLsbD_last]
  split
  · rw [BitVec.toNat_xor, BitVec.toNat_shiftLeft, Nat.and_two_pow_sub_one_eq_mod, Nat.xor_mod_two_pow,
      Nat.mod_eq_of_lt cfg.poly.isLt]
  · rw [BitVec.toNat_shiftLeft, Nat.and_two_pow_sub_one_eq_mod]

/-- A turn that shifts out a 0 is the shift alone. -/
theorem crcBit_of_msb_false {w : Nat} (cfg : CrcConfig w) {acc : BitVec w} (h : acc.msb = false) :
    crcBit cfg acc = acc <<< 1 := by
  simp [crcBit, h]

/-- A turn is linear over GF(2): where both operands shift out a 1, none leaves and the two polynomials cancel. -/
theorem crcBit_xor {w : Nat} (cfg : CrcConfig w) (a b : BitVec w) :
    crcBit cfg (a ^^^ b) = crcBit cfg a ^^^ crcBit cfg b := by
  unfold crcBit
  rw [BitVec.msb_xor, BitVec.shiftLeft_xor_distrib]
  match a.msb, b.msb with
  | false, false => rfl
  | false, true => exact BitVec.xor_assoc ..
  | true, false =>
    change (a <<< 1 ^^^ b <<< 1) ^^^ cfg.poly = (a <<< 1 ^^^ cfg.poly) ^^^ b <<< 1
    ac_rfl
  | true, true =>
    change a <<< 1 ^^^ b <<< 1 = (a <<< 1 ^^^ cfg.poly) ^^^ (b <<< 1 ^^^ cfg.poly)
    rw [BitVec.xor_comm (b <<< 1), BitVec.xor_assoc, ← BitVec.xor_assoc cfg.poly, BitVec.xor_self, BitVec.zero_xor]

/-- A turn under an odd polynomial loses nothing: a 1 that leaves comes back as bit 0. -/
theorem crcBit_eq_zero_iff {w : Nat} {cfg : CrcConfig w} (odd : cfg.poly.getLsbD 0 = true) (acc : BitVec w) :
    crcBit cfg acc = 0 ↔ acc = 0 := by
  constructor
  · intro zero
    have msb : acc.msb = false := by
      by_contra one
      rw [Bool.not_eq_false] at one
      have bit : (crcBit cfg acc).getLsbD 0 = true := by simp [crcBit, one, odd]
      simp [zero] at bit
    rw [crcBit_of_msb_false cfg msb] at zero
    refine BitVec.eq_of_getLsbD_eq fun i hi => ?_
    rcases Nat.lt_or_ge (i + 1) w with inside | last
    · have bit : (acc <<< 1).getLsbD (i + 1) = false := by simp [zero]
      simpa [inside, BitVec.getLsbD_eq_getElem hi] using bit
    · obtain rfl : i = w - 1 := by omega
      simpa [BitVec.msb_eq_getLsbD_last] using msb
  · rintro rfl
    simp [crcBit]

/-! ## The eight turns of a byte -/

theorem crcShift8_xor {w : Nat} (cfg : CrcConfig w) (a b : BitVec w) :
    crcShift8 cfg (a ^^^ b) = crcShift8 cfg a ^^^ crcShift8 cfg b := by
  simp only [crcShift8, Nat.repeat, crcBit_xor]

theorem crcShift8_eq_zero_iff {w : Nat} {cfg : CrcConfig w} (odd : cfg.poly.getLsbD 0 = true) (acc : BitVec w) :
    crcShift8 cfg acc = 0 ↔ acc = 0 := by
  simp only [crcShift8, Nat.repeat, crcBit_eq_zero_iff odd]

/-- Turns that shift out only zeros are a shift. -/
theorem repeat_crcBit_of_leading_zeros {w : Nat} (cfg : CrcConfig w) {acc : BitVec w} {n : Nat}
    (zeros : ∀ i < n, acc.getMsbD i = false) : Nat.repeat (crcBit cfg) n acc = acc <<< n := by
  induction n with
  | zero => simp [Nat.repeat]
  | succ n ih =>
    have msb : (acc <<< n).msb = false := BitVec.msb_shiftLeft.trans (zeros n n.lt_succ_self)
    rw [Nat.repeat, ih fun i hi => zeros i (by omega), crcBit_of_msb_false cfg msb, BitVec.shiftLeft_add]

/-! ## The pseudocode on naturals -/

/-- A loop on naturals whose turns and inputs are those of an engine computes that engine's accumulator. -/
theorem foldl_turns_eq_toNat {w : Nat} {cfg : CrcConfig w} {turn : Nat → Nat} {input : Byte → Nat}
    (turns : ∀ acc : BitVec w, turn acc.toNat = (crcBit cfg acc).toNat)
    (inputs : ∀ b, input b = (crcInput cfg b).toNat) (d : Bytes) (acc : BitVec w) :
    d.foldl (fun c b => Nat.repeat turn 8 (c ^^^ input b)) acc.toNat = (d.foldl (crcByte cfg) acc).toNat := by
  refine List.foldl_hom BitVec.toNat fun acc b => ?_
  simp only [inputs, ← BitVec.toNat_xor, crcByte, crcShift8, Nat.repeat, turns]

/-! ## The CRC-8 -/

theorem crc8Turn_toNat (acc : BitVec 8) : crc8Turn acc.toNat = (crcBit crc8Cfg acc).toNat :=
  (toNat_crcBit crc8Cfg acc).symm

/-- No reflection and a width of 8: a byte enters as it is. -/
theorem crcInput_crc8 (b : Byte) : crcInput crc8Cfg b = b := by
  simp [crcInput, crc8Cfg]

/-- No reflection and no XOROUT: the CRC is the accumulator. -/
theorem crc8_eq_foldl (d : Bytes) : crc8 d = d.foldl (crcByte crc8Cfg) 0xFF := by
  simp [crc8, crcOf, crcFinish, crc8Cfg]

theorem crc8_append_singleton (m : Bytes) (x : Byte) : crc8 (m ++ [x]) = crcShift8 crc8Cfg (crc8 m ^^^ x) := by
  rw [crc8_eq_foldl, crc8_eq_foldl, List.foldl_append, List.foldl_cons, List.foldl_nil, crcByte, crcInput_crc8]

/-- Each byte is looked up as it stands XORed into the accumulator, so the table is the loop itself (R75). -/
theorem crc8ByTable_eq (d : Bytes) : crc8ByTable d = crc8 d := by
  rw [crc8_eq_foldl, crc8ByTable]
  congr 1
  funext acc b
  rw [crcByte, crcInput_crc8, crc8Table]

theorem crc8Pseudocode_eq (d : Bytes) : crc8Pseudocode d = (crc8 d).toNat := by
  rw [crc8Pseudocode, Nat.xor_zero, crc8_eq_foldl]
  exact foldl_turns_eq_toNat crc8Turn_toNat (fun b => by rw [crcInput_crc8]) d 0xFF

/-- The residue of a message with one more byte: 0 exactly when that byte is the message's CRC-8 (R81). -/
theorem crc8_append_singleton_eq_zero_iff (m : Bytes) (x : Byte) : crc8 (m ++ [x]) = 0 ↔ x = crc8 m := by
  rw [crc8_append_singleton, crcShift8_eq_zero_iff (by decide), BitVec.ofNat_eq_ofNat, BitVec.xor_eq_zero_iff,
    eq_comm]

/-! ## The CRC-16 -/

theorem crc16Turn_toNat (acc : BitVec 16) : crc16Turn acc.toNat = (crcBit crc16Cfg acc).toNat :=
  (toNat_crcBit crc16Cfg acc).symm

/-- A byte enters in the top 8 of the 16 bits. -/
theorem crcInput_crc16 (b : Byte) : crcInput crc16Cfg b = b.setWidth 16 <<< 8 := by
  simp [crcInput, crc16Cfg]

theorem toNat_crcInput_crc16 (b : Byte) : (crcInput crc16Cfg b).toNat = b.toNat <<< 8 := by
  have small : b.toNat < 2 ^ 8 := b.isLt
  rw [crcInput_crc16, BitVec.toNat_shiftLeft, BitVec.toNat_setWidth, Nat.shiftLeft_eq, Nat.shiftLeft_eq]
  omega

theorem crc16_eq_foldl (d : Bytes) : crc16 d = d.foldl (crcByte crc16Cfg) 0xFFFF := by
  simp [crc16, crcOf, crcFinish, crc16Cfg]

/-- A word is its high byte in the top bits and its low byte. -/
theorem hi8_xor_lo8 (v : U16) : (hi8 v).setWidth 16 <<< 8 ^^^ (lo8 v).setWidth 16 = v := by
  unfold hi8 lo8
  ext i hi
  rcases Nat.lt_or_ge i 8 with low | high
  · simp [low, BitVec.getLsbD_eq_getElem hi]
  · simp [show ¬ i < 8 by omega, show i - 8 < 8 by omega, show 8 + (i - 8) = i by omega,
      BitVec.getLsbD_eq_getElem hi]

/-- The low byte shifts out only zeros, so the eight turns move it into the top bits. -/
theorem crcShift8_lo8 (v : U16) : crcShift8 crc16Cfg ((lo8 v).setWidth 16) = v <<< 8 := by
  have zeros : ∀ i < 8, ((lo8 v).setWidth 16).getMsbD i = false := fun i hi => by
    simp [BitVec.getMsbD_setWidth, Nat.not_le.mpr hi]
  rw [crcShift8, repeat_crcBit_of_leading_zeros crc16Cfg zeros]
  unfold lo8
  ext i hi
  have low : i - 8 < 8 := by omega
  simp [low, BitVec.getLsbD_eq_getElem (show i - 8 < 16 by omega)]

/-- The turns being linear, the table need hold only the high byte's part of the result (R77). -/
theorem crcByte_crc16_eq_table (acc : U16) (b : Byte) :
    crcByte crc16Cfg acc b = acc <<< 8 ^^^ crc16Table (hi8 acc ^^^ b) := by
  have parts : acc ^^^ crcInput crc16Cfg b =
      (lo8 acc).setWidth 16 ^^^ (hi8 acc ^^^ b).setWidth 16 <<< 8 := by
    rw [crcInput_crc16, BitVec.setWidth_xor, BitVec.shiftLeft_xor_distrib]
    conv_lhs => rw [← hi8_xor_lo8 acc]
    ac_rfl
  rw [crcByte, parts, crcShift8_xor, crcShift8_lo8, crc16Table]

theorem crc16ByTable_eq (d : Bytes) : crc16ByTable d = crc16 d := by
  rw [crc16_eq_foldl, crc16ByTable]
  congr 1
  funext acc b
  exact (crcByte_crc16_eq_table acc b).symm

theorem crc16Pseudocode_eq (d : Bytes) : crc16Pseudocode d = (crc16 d).toNat := by
  rw [crc16Pseudocode, Nat.xor_zero, crc16_eq_foldl]
  exact foldl_turns_eq_toNat crc16Turn_toNat (fun b => (toNat_crcInput_crc16 b).symm) d 0xFFFF

/-! ## The obligations -/

/-- Settles O7: the operation's outcome, the table form and the pseudocode are all `crc8` of the data. -/
theorem crc8AnswersPseudocodeAndTable : Obligations.Crc8AnswersPseudocodeAndTable := by
  intro s data
  rw [answers_outcome, crc8ByTable_eq, crc8Pseudocode_eq]
  exact ⟨rfl, rfl⟩

/-- Settles O8: the same for `crc16`, where the table form needs the turns' linearity. -/
theorem crc16AnswersPseudocodeAndTable : Obligations.Crc16AnswersPseudocodeAndTable := by
  intro s data
  rw [answers_outcome, crc16ByTable_eq, crc16Pseudocode_eq]
  exact ⟨rfl, rfl⟩

/-- Settles O9: both clauses are the residue of a message with one more byte, whatever its length. -/
theorem headerCrcResidueIsZero : Obligations.HeaderCrcResidueIsZero := by
  refine ⟨fun m _ => (crc8_append_singleton_eq_zero_iff m _).mpr rfl, fun b len => ?_⟩
  have whole : b.take 4 ++ [b.getD 4 0] = b := by
    rw [List.getD_eq_getElem b 0 (by omega), List.take_append_getElem, List.take_of_length_le (by omega)]
  conv_lhs => rw [← whole]
  exact crc8_append_singleton_eq_zero_iff _ _

/-- Settles O6: the two engines run over the nine bytes. -/
theorem crcEnginesGiveTheirCheckValues : Obligations.CrcEnginesGiveTheirCheckValues :=
  ⟨by decide +kernel, rfl, by decide +kernel, rfl⟩

end Sys2Proof.Machine
end

section
/-! The frame header: its gates in order, the buffers it is decoded from, and the flips its checksum detects
(`41_header.md` rules R83 to R90). -/

namespace Sys2Proof.Machine

/-! ## The bytes of the length field -/

theorem lo8_eq_extractLsb' (v : U16) : lo8 v = v.extractLsb' 0 8 :=
  BitVec.setWidth_eq_extractLsb' (by decide)

theorem hi8_eq_extractLsb' (v : U16) : hi8 v = v.extractLsb' 8 8 := by
  rw [hi8, BitVec.setWidth_eq_extractLsb' (by decide)]
  rfl

@[simp] theorem lo8_append (hi lo : Byte) : lo8 (hi ++ lo) = lo :=
  BitVec.extractLsb'_append_eq_right

@[simp] theorem hi8_append (hi lo : Byte) : hi8 (hi ++ lo) = hi :=
  BitVec.extractLsb'_append_eq_left

/-- A word is its high byte before its low byte. -/
theorem hi8_append_lo8 (v : U16) : hi8 v ++ lo8 v = v :=
  BitVec.extractLsb'_append_extractLsb'_eq_extractLsb' rfl |>.trans (by simp)

/-- Two bytes are read as the word they are, low byte first. -/
theorem ofNat_littleEndian_pair (lo hi : Byte) : BitVec.ofNat 16 (littleEndian [lo, hi]) = hi ++ lo := by
  have read := littleEndian_u16 (hi ++ lo)
  rw [lo8_append, hi8_append] at read
  rw [read, BitVec.ofNat_toNat, BitVec.setWidth_eq]

theorem headerBytes_length (h : FrameHeader) : (headerBytes h).length = 5 := by
  simp [headerBytes_eq]

/-! ## The residue of the five bytes (`40_crc.md` rule R81) -/

/-- The five bytes of a consistent header have residue 0. -/
theorem crc8_headerBytes {h : FrameHeader} (consistent : h.crc8 = headerCrc h.payloadLength h.sequence) :
    crc8 (headerBytes h) = 0 := by
  rw [headerBytes_eq]
  exact (crc8_append_singleton_eq_zero_iff [magic, _, _, _] _).mpr consistent

theorem crc8_take_five_eq_zero_iff (m lo hi sequence crc : Byte) (rest : Bytes) :
    crc8 ((m :: lo :: hi :: sequence :: crc :: rest).take 5) = 0 ↔ crc = crc8 [m, lo, hi, sequence] :=
  crc8_append_singleton_eq_zero_iff [m, lo, hi, sequence] crc

/-! ## HDR_DECODE's gates -/

theorem headerDecode_of_short {b : Bytes} (short : b.length < 5) : headerDecode b = .error .truncatedPayload :=
  if_pos short

/-- With five bytes present: the magic gate, the checksum gate, the fields, whatever follows (R83 to R86). -/
theorem headerDecode_cons (m lo hi sequence crc : Byte) (rest : Bytes) :
    headerDecode (m :: lo :: hi :: sequence :: crc :: rest) =
      if m ≠ magic then .error .badMagic
      else if crc ≠ crc8 [m, lo, hi, sequence] then .error .badChecksum
      else .ok { payloadLength := hi ++ lo, sequence := sequence, crc8 := crc } := by
  have present : ¬ (m :: lo :: hi :: sequence :: crc :: rest).length < hdrLen := by simp [hdrLen]
  rw [← ofNat_littleEndian_pair]
  exact if_neg present

/-- A buffer of five bytes or more has the shape of `headerDecode_cons`. -/
theorem exists_five_of_length {b : Bytes} (long : 5 ≤ b.length) :
    ∃ m lo hi sequence crc rest, b = m :: lo :: hi :: sequence :: crc :: rest := by
  match b, long with
  | m :: lo :: hi :: sequence :: crc :: rest, _ => exact ⟨m, lo, hi, sequence, crc, rest, rfl⟩

/-- The checksum gate (R85), in terms of the residue of the five bytes. -/
theorem headerDecode_eq_badChecksum_iff (b : Bytes) :
    headerDecode b = .error .badChecksum ↔ 5 ≤ b.length ∧ b.getD 0 0 = magic ∧ crc8 (b.take 5) ≠ 0 := by
  rcases Nat.lt_or_ge b.length 5 with short | long
  · simp [headerDecode_of_short short, Nat.not_le.mpr short]
  · obtain ⟨m, lo, hi, sequence, crc, rest, rfl⟩ := exists_five_of_length long
    simp only [headerDecode_cons, ne_eq, crc8_take_five_eq_zero_iff]
    split_ifs with isMagic isCrc
    · simp [isCrc]
    · simpa [isMagic] using isCrc
    · simp [isMagic]

/-- The buffers HDR_DECODE takes a header from: the encoding of that header, consistent, and any bytes after it. -/
theorem headerDecode_eq_ok_iff (b : Bytes) (h : FrameHeader) :
    headerDecode b = .ok h ↔
      h.crc8 = headerCrc h.payloadLength h.sequence ∧ ∃ rest, b = headerBytes h ++ rest := by
  simp only [headerBytes_eq, headerCrc]
  constructor
  · intro decoded
    rcases Nat.lt_or_ge b.length 5 with short | long
    · rw [headerDecode_of_short short] at decoded
      cases decoded
    · obtain ⟨m, lo, hi, sequence, crc, rest, rfl⟩ := exists_five_of_length long
      rw [headerDecode_cons] at decoded
      split_ifs at decoded with isMagic isCrc
      cases decoded
      obtain rfl := not_not.mp isMagic
      exact ⟨by simpa using not_not.mp isCrc, rest, by simp⟩
  · rintro ⟨consistent, rest, rfl⟩
    simp [headerDecode_cons, ← consistent, hi8_append_lo8]

theorem raises_hdrDecode (s : State) (b : Bytes) (e : Error) :
    s.raises (.hdrDecode b) e ↔ headerDecode b = .error e := by
  rw [raises_outcome, outcome]
  cases headerDecode b <;> simp [Except.map]

theorem answers_hdrDecode (s : State) (b : Bytes) (h : FrameHeader) :
    s.answers (.hdrDecode b) (.header h) ↔ headerDecode b = .ok h := by
  rw [answers_outcome, outcome]
  cases headerDecode b <;> simp [Except.map]

theorem answers_hdrEncode (s : State) (h : FrameHeader) : s.answers (.hdrEncode h) (.bytes (headerBytes h)) :=
  (answers_outcome ..).mpr rfl

theorem answers_hdrRecompute (s : State) (len : U16) (sequence : U8) :
    s.answers (.hdrRecompute len sequence) (.header (headerRecompute len sequence)) :=
  (answers_outcome ..).mpr rfl

/-! ## What the CRC-8 tells apart -/

theorem crcShift8_inj {w : Nat} {cfg : CrcConfig w} (odd : cfg.poly.getLsbD 0 = true) {a b : BitVec w} :
    crcShift8 cfg a = crcShift8 cfg b ↔ a = b := by
  rw [← BitVec.xor_eq_zero_iff, ← crcShift8_xor, ← BitVec.ofNat_eq_ofNat, crcShift8_eq_zero_iff odd,
    BitVec.ofNat_eq_ofNat, BitVec.xor_eq_zero_iff]

theorem crcByte_inj_left {w : Nat} {cfg : CrcConfig w} (odd : cfg.poly.getLsbD 0 = true) {a a' : BitVec w}
    {x : Byte} : crcByte cfg a x = crcByte cfg a' x ↔ a = a' := by
  rw [crcByte, crcByte, crcShift8_inj odd, BitVec.xor_left_inj]

/-- Accumulators that differ still differ after the same bytes. -/
theorem foldl_crcByte_inj {w : Nat} {cfg : CrcConfig w} (odd : cfg.poly.getLsbD 0 = true) {a a' : BitVec w}
    (d : Bytes) : d.foldl (crcByte cfg) a = d.foldl (crcByte cfg) a' ↔ a = a' := by
  induction d generalizing a a' with
  | nil => rfl
  | cons x d ih => rw [List.foldl_cons, List.foldl_cons, ih, crcByte_inj_left odd]

/-- The CRC-8 tells apart messages that differ in one byte. -/
theorem crc8_replace_byte_inj (front back : Bytes) {x y : Byte} :
    crc8 (front ++ x :: back) = crc8 (front ++ y :: back) ↔ x = y := by
  have odd : crc8Cfg.poly.getLsbD 0 = true := by decide
  simp only [crc8_eq_foldl, List.foldl_append, List.foldl_cons, foldl_crcByte_inj odd, crcByte, crcInput_crc8,
    crcShift8_inj odd, BitVec.xor_right_inj]

/-! ## An inverted bit -/

theorem xor_twoPow_ne_self (x : Byte) {j : Nat} (inside : j < 8) : x ^^^ BitVec.twoPow 8 j ≠ x := by
  intro same
  have bit := congrArg (BitVec.getLsbD · j) same
  simp [inside] at bit

theorem flipBit_eq_append {b : Bytes} {k : Nat} (j : Nat) (inside : k < b.length) :
    flipBit b k j = b.take k ++ (b[k] ^^^ BitVec.twoPow 8 j) :: b.drop (k + 1) := by
  rw [flipBit, List.set_eq_take_append_cons_drop, if_pos inside, List.getD_eq_getElem b 0 inside]

/-- The CRC-8 detects every single-bit error. -/
theorem crc8_flipBit_ne {b : Bytes} {k j : Nat} (byte : k < b.length) (bit : j < 8) :
    crc8 (flipBit b k j) ≠ crc8 b := by
  have parts : b = b.take k ++ b[k] :: b.drop (k + 1) := by simp
  rw [flipBit_eq_append j byte]
  conv_rhs => rw [parts]
  exact mt (crc8_replace_byte_inj _ _).mp (xor_twoPow_ne_self _ bit)

/-- A flipped bit in a valid header is caught by the magic gate in byte 0 and by the checksum gate in the others:
there the magic stands and the residue changes. -/
theorem headerDecode_flipBit {b : Bytes} {h : FrameHeader} {k j : Nat} (valid : headerDecode b = .ok h)
    (byte : k < 5) (bit : j < 8) :
    headerDecode (flipBit b k j) = .error (if k = 0 then .badMagic else .badChecksum) := by
  obtain ⟨consistent, rest, rfl⟩ := (headerDecode_eq_ok_iff b h).mp valid
  have length := headerBytes_length h
  match k with
  | 0 =>
    rw [headerBytes_eq]
    exact (headerDecode_cons ..).trans (if_pos (xor_twoPow_ne_self magic bit))
  | k + 1 =>
    rw [if_neg k.succ_ne_zero, headerDecode_eq_badChecksum_iff]
    have front : (flipBit (headerBytes h ++ rest) (k + 1) j).take 5 = flipBit (headerBytes h) (k + 1) j := by
      rw [flipBit, flipBit, List.take_set, List.take_left' length, List.getD_append _ _ _ _ (by omega)]
    refine ⟨by simp [flipBit, length], by simp [flipBit, headerBytes_eq], ?_⟩
    rw [front, ← crc8_headerBytes consistent]
    exact crc8_flipBit_ne (by omega) bit

/-! ## The obligations -/

/-- Settles O10: the length gate, and the branches of `headerDecode_cons`. -/
theorem hdrDecodeGatesAndFields : Obligations.HdrDecodeGatesAndFields := by
  intro s
  simp only [raises_hdrDecode, answers_hdrDecode, headerDecode_cons]
  refine ⟨fun bytes short => headerDecode_of_short short, fun m lo hi sequence crc rest => ⟨?_, ?_, ?_⟩⟩
  · exact fun badMagic => if_pos badMagic
  · exact fun isMagic badCrc => (if_neg (not_not.mpr isMagic)).trans (if_pos badCrc)
  · exact fun isMagic isCrc => (if_neg (not_not.mpr isMagic)).trans (if_neg (not_not.mpr isCrc))

/-- Settles O13: the buffers that decode are the consistent headers' encodings with any bytes after them. -/
theorem headerRoundTrips : Obligations.HeaderRoundTrips := by
  refine fun s => ⟨fun len sequence => ?_, fun b h decoded => ?_⟩
  · refine ⟨_, _, answers_hdrRecompute s len sequence, answers_hdrEncode s _, ?_⟩
    rw [answers_hdrDecode, headerDecode_eq_ok_iff]
    exact ⟨rfl, [], by simp⟩
  · rw [answers_hdrDecode, headerDecode_eq_ok_iff] at decoded
    obtain ⟨-, rest, rfl⟩ := decoded
    rw [List.take_left' (headerBytes_length h)]
    exact answers_hdrEncode s h

/-- Settles O14: the checksum gate by the shape of the buffer, the flips by `headerDecode_flipBit`. -/
theorem headerSingleBitFlipIsDetected : Obligations.HeaderSingleBitFlipIsDetected := by
  refine fun s b => ⟨?_, fun h decoded k j byte bit => ?_⟩
  · rw [raises_hdrDecode, headerDecode_eq_badChecksum_iff]
    refine and_congr_right fun long => and_congr_right fun _ => not_congr ?_
    obtain ⟨m, lo, hi, sequence, crc, rest, rfl⟩ := exists_five_of_length long
    exact crc8_take_five_eq_zero_iff m lo hi sequence crc rest
  · rw [answers_hdrDecode] at decoded
    exact (raises_hdrDecode ..).mpr (headerDecode_flipBit decoded byte bit)

/-- Settles O11: the encoding's five bytes, of which an inconsistent record's fail at the checksum gate. -/
theorem hdrEncodeAnswersFiveBytes : Obligations.HdrEncodeAnswersFiveBytes := by
  rintro s h four rfl
  have bytes : headerBytes h = [magic, h.payloadLength.extractLsb' 0 8, h.payloadLength.extractLsb' 8 8, h.sequence]
      ++ [h.crc8] := by
    rw [headerBytes_eq, lo8_eq_extractLsb', hi8_eq_extractLsb']
    rfl
  refine ⟨bytes ▸ answers_hdrEncode s h, fun inconsistent => ?_⟩
  rw [raises_hdrDecode]
  exact (headerDecode_cons ..).trans ((if_neg (not_not.mpr rfl)).trans (if_pos inconsistent))

/-- Settles O12: the recomputed header holds the CRC-8 of its four bytes. -/
theorem hdrRecomputeAnswersConsistentHeader : Obligations.HdrRecomputeAnswersConsistentHeader := by
  intro s len sequence
  rw [← lo8_eq_extractLsb', ← hi8_eq_extractLsb']
  exact answers_hdrRecompute s len sequence

end Sys2Proof.Machine
end

section
/-! The bit cursor: what BITS_PACK puts at a bit position and what BITS_UNPACK reads there (`42_payload.md` rules
R96, R97, R104, R105). -/

namespace Sys2Proof.Machine

/-- Each bit of a field read is the byte sequence's bit it comes from, MSB first (R96). -/
theorem testBit_getBits {g : Bytes} {p w i : Nat} (hi : i < w) :
    (getBits g p w).testBit (w - 1 - i) = bitAt g (p + i) := by
  induction w with
  | zero => omega
  | succ w ih =>
    show (2 * getBits g p w + (bitAt g (p + w)).toNat).testBit (w + 1 - 1 - i) = _
    rcases Nat.lt_succ_iff_lt_or_eq.mp hi with earlier | rfl
    · rw [show w + 1 - 1 - i = (w - 1 - i) + 1 by omega, Nat.testBit_succ, ← ih earlier]
      congr 1
      have := Bool.toNat_lt (bitAt g (p + w))
      omega
    · rw [show i + 1 - 1 - i = 0 by omega, Nat.testBit_zero]
      cases bitAt g (p + i) <;> simp

/-! ## The two operations -/

theorem answers_bitsUnpack (s : State) (b : Bytes) (bitpos : U32) (width : U8) (v : U32) :
    s.answers (.bitsUnpack b bitpos width) (.value v) ↔ bitsUnpack b bitpos width = .ok v := by
  rw [answers_outcome, outcome]
  cases bitsUnpack b bitpos width <;> simp [Except.map]

theorem raises_bitsUnpack (s : State) (b : Bytes) (bitpos : U32) (width : U8) (e : Error) :
    s.raises (.bitsUnpack b bitpos width) e ↔ bitsUnpack b bitpos width = .error e := by
  rw [raises_outcome, outcome]
  cases bitsUnpack b bitpos width <;> simp [Except.map]

theorem answers_bitsPack (s : State) (fields : List (U8 × U32)) (b : Bytes) :
    s.answers (.bitsPack fields) (.bytes b) ↔ bitsPack fields = .ok b := by
  rw [answers_outcome, outcome]
  cases bitsPack fields <;> simp [Except.map]

theorem raises_bitsPack (s : State) (fields : List (U8 × U32)) (e : Error) :
    s.raises (.bitsPack fields) e ↔ bitsPack fields = .error e := by
  rw [raises_outcome, outcome]
  cases bitsPack fields <;> simp [Except.map]

/-- A field of a legal width inside the bytes is read (R104). -/
theorem bitsUnpack_of_inside {b : Bytes} {bitpos : U32} {width : U8} (wide : 1 ≤ width.toNat)
    (narrow : width.toNat ≤ 32) (inside : bitpos.toNat + width.toNat ≤ 8 * b.length) :
    bitsUnpack b bitpos width = .ok (BitVec.ofNat 32 (getBits b bitpos.toNat width.toNat)) := by
  unfold bitsUnpack
  rw [if_neg (by omega), if_neg (by omega)]

/-- A field of a legal width fits the u32 of the answer. -/
theorem toNat_ofNat_getBits (b : Bytes) (p : Nat) {w : Nat} (narrow : w ≤ 32) :
    (BitVec.ofNat 32 (getBits b p w)).toNat = getBits b p w :=
  Nat.mod_eq_of_lt ((getBits_lt b p w).trans_le (Nat.pow_le_pow_right (by decide) narrow))

theorem packable_iff (f : U8 × U32) :
    packable f = true ↔ 1 ≤ f.1.toNat ∧ f.1.toNat ≤ 32 ∧ f.2.toNat < 2 ^ f.1.toNat := by
  simp [packable, and_assoc]

/-! ## The bits of a field list -/

/-- The bits of a field list: those of its fields one after the other (R105). -/
def fieldListBits (fields : List (U8 × U32)) : List Bool :=
  fields.flatMap fun f => putBits f.1.toNat f.2.toNat

@[simp] theorem fieldListBits_length (fields : List (U8 × U32)) :
    (fieldListBits fields).length = fieldBits fields := by
  simp [fieldListBits, fieldBits, List.length_flatMap]

theorem fieldListBits_split (pre post : List (U8 × U32)) (f : U8 × U32) :
    fieldListBits (pre ++ f :: post) =
      fieldListBits pre ++ putBits f.1.toNat f.2.toNat ++ fieldListBits post := by
  simp [fieldListBits]

theorem fieldBits_split (pre post : List (U8 × U32)) (f : U8 × U32) :
    fieldBits (pre ++ f :: post) = fieldBits pre + f.1.toNat + fieldBits post := by
  simp [fieldBits, Nat.add_assoc]

theorem bitsPack_of_packable {fields : List (U8 × U32)} (ok : ∀ f ∈ fields, packable f = true) :
    bitsPack fields = .ok (bitsToBytes (fieldListBits fields)) :=
  if_pos (List.all_eq_true.mpr ok)

theorem bitsPack_of_not_packable {fields : List (U8 × U32)} {f : U8 × U32} (mem : f ∈ fields)
    (bad : ¬ packable f = true) : bitsPack fields = .error .contractViolation :=
  if_neg fun ok => bad (List.all_eq_true.mp ok f mem)

/-- A packed field is unpacked at the sum of the widths before it. -/
theorem bitsUnpack_packed {pre post : List (U8 × U32)} {f : U8 × U32} (ok : packable f = true)
    (addressed : fieldBits pre < 2 ^ 32) :
    bitsUnpack (bitsToBytes (fieldListBits (pre ++ f :: post))) (BitVec.ofNat 32 (fieldBits pre)) f.1 =
      .ok f.2 := by
  obtain ⟨wide, narrow, fits⟩ := (packable_iff f).mp ok
  have start : (BitVec.ofNat 32 (fieldBits pre)).toNat = fieldBits pre := Nat.mod_eq_of_lt addressed
  have value := getBits_packed (fieldListBits pre) (fieldListBits post) fits
  rw [← fieldListBits_split, fieldListBits_length] at value
  rw [bitsUnpack_of_inside wide narrow, start, value, BitVec.ofNat_toNat, BitVec.setWidth_eq]
  rw [start, bitsToBytes_length, fieldListBits_length, fieldBits_split]
  omega

/-! ## The obligations -/

/-- Settles O30: the fields before and after one are the bits before and after its own, and the padding is past
the end of all of them. -/
theorem bitsPackIsUnpackedFieldByField : Obligations.BitsPackIsUnpackedFieldByField := by
  refine fun s fields => ⟨fun f mem bad => ?_, fun ok => ?_⟩
  · rw [raises_bitsPack]
    exact bitsPack_of_not_packable mem (by rw [packable_iff]; omega)
  · have ok : ∀ f ∈ fields, packable f = true := fun f mem => (packable_iff f).mpr (ok f mem)
    refine ⟨_, (answers_bitsPack ..).mpr (bitsPack_of_packable ok), by simp, ?_, fun q past inside => ?_⟩
    · rintro pre f post rfl
      refine ⟨fun i hi => ?_, fun short => (answers_bitsUnpack ..).mpr ?_⟩
      · have bit := bitAt_putBits (fieldListBits pre) (fieldListBits post) (v := f.2.toNat) hi
        rw [← fieldListBits_split, fieldListBits_length] at bit
        exact bit
      · rw [fieldBits_split] at short
        exact bitsUnpack_packed (ok f (by simp)) (by omega)
    · rw [bitsToBytes_length] at inside
      refine (bitAt_bitsToBytes (fieldListBits fields) (by omega)).trans ?_
      exact List.getD_eq_default _ _ (by rwa [fieldListBits_length])

/-- Settles O29: the two gates in order, and the bits of the field read. -/
theorem bitsUnpackAnswersTheBits : Obligations.BitsUnpackAnswersTheBits := by
  intro s bytes bitpos width
  simp only [raises_bitsUnpack, answers_bitsUnpack]
  refine ⟨fun bad => if_pos bad, fun wide narrow past => ?_, fun wide narrow inside => ?_⟩
  · exact (if_neg (by omega)).trans (if_pos past)
  · have value := toNat_ofNat_getBits bytes bitpos.toNat narrow
    refine ⟨_, bitsUnpack_of_inside wide narrow inside, value.trans_lt (getBits_lt ..), fun i hi => ?_⟩
    rw [← BitVec.testBit_toNat, value]
    exact testBit_getBits hi

end Sys2Proof.Machine
end

section
/-! Integer and enumeration items: the word read is the one its bytes spell, least significant first
(`20_memory.md` rule R35, `42_payload.md` rules R94 and R95). -/

namespace Sys2Proof.Machine

/-- Byte `j` of a little-endian value is the sequence's byte `j`. -/
theorem littleEndian_byte (b : Bytes) (j : Nat) :
    littleEndian b / 2 ^ (8 * j) % 2 ^ 8 = (b.getD j 0).toNat := by
  induction b generalizing j with
  | nil => simp [littleEndian]
  | cons x xs ih =>
    have byte : x.toNat < 256 := x.isLt
    cases j with
    | zero =>
      show (x.toNat + 256 * littleEndian xs) / 2 ^ 0 % 2 ^ 8 = x.toNat
      omega
    | succ j =>
      have rest : (x.toNat + 256 * littleEndian xs) / 256 = littleEndian xs := by omega
      show (x.toNat + 256 * littleEndian xs) / 2 ^ (8 * (j + 1)) % 2 ^ 8 = (xs.getD j 0).toNat
      rw [← ih j, show 2 ^ (8 * (j + 1)) = 256 * 2 ^ (8 * j) by ring, ← Nat.div_div_eq_div_mul, rest]

/-- A word wide enough for the `n` bytes at `pos` has them as its bytes, least significant first. -/
theorem extractLsb'_ofNat_memRead {b : Bytes} {pos n m j : Nat} (wide : 8 * n ≤ m)
    (inside : pos + n ≤ b.length) (hj : j < n) :
    (BitVec.ofNat m (memRead b pos n)).extractLsb' (8 * j) 8 = b.getD (pos + j) 0 := by
  have small : memRead b pos n < 2 ^ m := calc
    memRead b pos n < 2 ^ (8 * n) := by rw [pow_mul]; exact memRead_lt inside
    _ ≤ 2 ^ m := Nat.pow_le_pow_right (by decide) wide
  apply BitVec.eq_of_toNat_eq
  rw [BitVec.extractLsb'_toNat, BitVec.toNat_ofNat, Nat.mod_eq_of_lt small, Nat.shiftRight_eq_div_pow,
    memRead, littleEndian_byte]
  simp [slice, List.getD_eq_getElem?_getD, hj]

/-- The two's-complement reading of R55 is the signed value of the word. -/
theorem signedOf_toNat {k : Nat} (x : BitVec (8 * k)) (positive : 1 ≤ k) : signedOf k x.toNat = x.toInt := by
  have half : 2 ^ (8 * k) = 2 * 2 ^ (8 * k - 1) := by
    rw [← pow_succ']
    congr 1
    omega
  rw [BitVec.toInt_eq_toNat_cond, signedOf]
  refine if_congr ?_ rfl (by push_cast; rfl)
  omega

/-! ## Decoding one item -/

section
variable {c : Config} {b : Bytes} {pos k : Nat} {path : FieldPath}

theorem decodeLeaf_u (inside : pos + k ≤ b.length) :
    decodeLeaf c b (.u k) pos path = .ok (.int (memRead b pos k), pos + k) := by
  simp only [decodeLeaf, need_ok inside]
  rfl

theorem decodeLeaf_i (inside : pos + k ≤ b.length) :
    decodeLeaf c b (.i k) pos path = .ok (.int (signedOf k (memRead b pos k)), pos + k) := by
  simp only [decodeLeaf, need_ok inside]
  rfl

theorem decodeLeaf_enum {e : EnumName} (inside : pos + k ≤ b.length) :
    decodeLeaf c b (.enum e k) pos path =
      if c.enumLegal e (memRead b pos k) then .ok (.enum e (memRead b pos k), pos + k)
      else .error (.invalidEnumValue path (BitVec.ofNat 32 (memRead b pos k))) := by
  simp only [decodeLeaf, need_ok inside]
  rfl

/-- An item with a byte missing is truncated, whatever its kind. -/
theorem decodeLeaf_of_short {it : LeafItem} (short : b.length < pos + it.size) :
    decodeLeaf c b it pos path = .error .truncatedPayload := by
  have missing := need_error short
  cases it <;> simp only [LeafItem.size] at missing <;> simp only [decodeLeaf, missing] <;> rfl

end

/-! ## The obligations -/

/-- Settles O18: both items read the word of `memRead`. -/
theorem integerItemsReadLittleEndian : Obligations.IntegerItemsReadLittleEndian := by
  intro c b k pos path size
  refine ⟨fun inside => ?_, fun short => ⟨decodeLeaf_of_short short, decodeLeaf_of_short short⟩⟩
  have positive : 1 ≤ k := Nat.pos_of_ne_zero (by rintro rfl; simp at size)
  have value : (BitVec.ofNat (8 * k) (memRead b pos k)).toNat = memRead b pos k :=
    Nat.mod_eq_of_lt (by rw [pow_mul]; exact memRead_lt inside)
  refine ⟨BitVec.ofNat (8 * k) (memRead b pos k), fun j hj => extractLsb'_ofNat_memRead le_rfl inside hj, ?_, ?_⟩
  · rw [decodeLeaf_u inside, value]
  · rw [decodeLeaf_i inside, ← signedOf_toNat _ positive, value]

/-- Settles O19: an enumeration item's one or two bytes fit the u32 of the error's raw value. -/
theorem enumItemsAreCheckedAgainstTheirSet : Obligations.EnumItemsAreCheckedAgainstTheirSet := by
  intro s e k b pos path ok
  refine ⟨fun short => decodeLeaf_of_short short, fun inside => ?_⟩
  have narrow : 8 * k ≤ 32 := by
    simp [LeafItem.ok] at ok
    omega
  have small : memRead b pos k < 2 ^ (8 * k) := by
    rw [pow_mul]
    exact memRead_lt inside
  have value : (BitVec.ofNat 32 (memRead b pos k)).toNat = memRead b pos k :=
    Nat.mod_eq_of_lt (small.trans_le (Nat.pow_le_pow_right (by decide) narrow))
  refine ⟨BitVec.ofNat 32 (memRead b pos k), fun j hj => extractLsb'_ofNat_memRead narrow inside hj, ?_⟩
  rw [value, decodeLeaf_enum inside]
  exact ⟨small, fun legal => if_pos legal, fun illegal => if_neg (by simp [illegal])⟩

end Sys2Proof.Machine
end

section
/-! Whole payloads: PAY_DECODE dispatches on the tag, its answers fit the layout, and it gives back what PAY_ENCODE
wrote (`42_payload.md` rules R92, R101 to R103, R106, R110). -/

namespace Sys2Proof.Machine

/-! ## The two operations -/

theorem answers_payDecode (s : State) (tag : U16) (b : Bytes) (declared : U16) (v : Variant) :
    s.answers (.payDecode tag b declared) (.variant v) ↔
      payloadDecode s.config.config tag b declared = .ok v := by
  rw [answers_outcome, outcome]
  cases payloadDecode s.config.config tag b declared <;> simp [Except.map]

theorem raises_payDecode (s : State) (tag : U16) (b : Bytes) (declared : U16) (e : Error) :
    s.raises (.payDecode tag b declared) e ↔ payloadDecode s.config.config tag b declared = .error e := by
  rw [raises_outcome, outcome]
  cases payloadDecode s.config.config tag b declared <;> simp [Except.map]

theorem answers_payEncode (s : State) (v : Variant) (p : Bytes) :
    s.answers (.payEncode v) (.bytes p) ↔ payloadBytes s.config.config v = .ok p := by
  rw [answers_outcome, outcome]
  cases payloadBytes s.config.config v <;> simp [Except.map]

/-! ## PAY_DECODE by layout -/

theorem payloadDecode_of_unknown {c : Config} {tag : U16} (unknown : tag ∉ c.tags) (b : Bytes) (declared : U16) :
    payloadDecode c tag b declared = .error (.unknownCommand tag) := by
  have noLayout : c.layoutOf tag = none := by
    rw [← Option.not_isSome_iff_eq_none, layoutOf_isSome]
    exact unknown
  simp only [payloadDecode, noLayout]

theorem payloadDecode_of_fixed {c : Config} {tag : U16} {items : List (FieldName × Item)}
    (fixed : c.layoutOf tag = some (.fixed items)) (b : Bytes) (declared : U16) :
    payloadDecode c tag b declared = decodeFixed c items tag b := by
  simp only [payloadDecode, fixed]

theorem payloadDecode_tagRid (c : Config) (b : Bytes) (declared : U16) :
    payloadDecode c c.tagRid b declared = decodeRid c b declared := by
  simp only [payloadDecode, layoutOf_rid.mpr rfl]

section
variable {c : Config} {items : List (FieldName × Item)} {b : Bytes} {vals : List Value} {p : Nat} {e : Error}

/-- Once a fixed-size body has decoded, only the length gate is left (R101). -/
theorem decodeFixed_of_ok (tag : U16) (body : decodeBody c items b = .ok (vals, p)) :
    decodeFixed c items tag b =
      if p < b.length then .error .trailingBytes else .ok { tag := tag, values := vals } := by
  simp only [decodeFixed, body]
  rfl

theorem decodeFixed_of_error (tag : U16) (body : decodeBody c items b = .error e) :
    decodeFixed c items tag b = .error e := by
  simp only [decodeFixed, body]
  rfl

/-- Once the items of RID before its tail have decoded, the number of bytes is compared with `declared` (R102). -/
theorem decodeRid_of_ok {declared : U16} (long : ridPrefixLen ≤ declared.toNat)
    (body : decodeBody c ridItems b = .ok (vals, p)) :
    decodeRid c b declared =
      if b.length < declared.toNat then .error .truncatedPayload
      else if declared.toNat < b.length then .error .trailingBytes
      else .ok { tag := c.tagRid, values := vals ++ [.bytes (b.drop ridPrefixLen)] } := by
  have whole : ridPrefixLen + (declared.toNat - ridPrefixLen) = declared.toNat := Nat.add_sub_cancel' long
  rw [decodeRid, if_neg (Nat.not_lt.mpr long), body]
  simp only [bind, Except.bind, whole]
  refine if_ctx_congr Iff.rfl (fun _ => rfl) fun enough => if_ctx_congr Iff.rfl (fun _ => rfl) fun _ => ?_
  rw [slice, List.take_of_length_le (by rw [List.length_drop]; omega)]

theorem decodeRid_of_error {declared : U16} (long : ridPrefixLen ≤ declared.toNat)
    (body : decodeBody c ridItems b = .error e) : decodeRid c b declared = .error e := by
  rw [decodeRid, if_neg (Nat.not_lt.mpr long), body]
  rfl

/-- A body decodes to values of the layout's shape in the layout's size, or is too short, or holds an illegal
enumeration value. -/
theorem decodeBody_cases (hc : c.legal = true) (ok : ∀ it ∈ items, it.2.ok c = true) (b : Bytes) :
    (∃ vals, decodeBody c items b = .ok (vals, sizeOfItems Item.size items) ∧
      sizeOfItems Item.size items ≤ b.length ∧ fitsItems itemReserved (fitsItem c) items vals = true) ∨
    (decodeBody c items b = .error .truncatedPayload ∧ b.length < sizeOfItems Item.size items) ∨
    ∃ field raw, decodeBody c items b = .error (.invalidEnumValue field raw) := by
  have cases := body_decodesAs hc ok b
  match decodeBody c items b, cases with
  | .ok (vals, _), ⟨rfl, inside, fits⟩ =>
    rw [Nat.zero_add] at inside ⊢
    exact .inl ⟨vals, rfl, inside, fits⟩
  | .error .truncatedPayload, short =>
    have short : b.length < 0 + sizeOfItems Item.size items := short
    exact .inr (.inl ⟨rfl, by omega⟩)
  | .error (.invalidEnumValue field raw), _ => exact .inr (.inr ⟨field, raw, rfl⟩)

/-! ## The values of RID -/

/-- As many values fit a list of items as it has items with a value. -/
theorem fitsItems_length {ι α : Type} {reserved : ι → Bool} {fits : ι → Option α → Bool}
    {items : List (FieldName × ι)} {vs : List α} (h : fitsItems reserved fits items vs = true) :
    vs.length = (items.filter fun x => !reserved x.2).length := by
  induction items generalizing vs with
  | nil => cases vs <;> simp_all [fitsItems]
  | cons x items ih =>
    cases hr : reserved x.2 with
    | true =>
      simp only [fitsItems, hr, if_true, Bool.and_eq_true] at h
      simpa [hr] using ih h.2
    | false =>
      cases vs with
      | nil => simp [fitsItems, hr] at h
      | cons v vs =>
        simp only [fitsItems, hr, Bool.false_eq_true, if_false, Bool.and_eq_true] at h
        simpa [hr] using ih h.2

/-- The items before the tail of RID have three values. -/
theorem fits_ridItems (fits : fitsItems itemReserved (fitsItem c) ridItems vals = true) :
    ∃ subtag sender receiver, vals = [subtag, sender, receiver] :=
  List.length_eq_three.mp (fitsItems_length fits)

/-- The values of RID are those of its items and then the bytes of its tail. -/
theorem fitsLayout_rid_iff :
    fitsLayout c .rid vals = true ↔ ∃ front data, vals = front ++ [.bytes data] ∧
      fitsItems itemReserved (fitsItem c) ridItems front = true ∧
      ridPrefixLen + data.length ≤ maxPayloadLength := by
  constructor
  · intro fits
    unfold fitsLayout at fits
    split at fits
    · contradiction
    · next subtag sender receiver data _ =>
      rw [Bool.and_eq_true, decide_eq_true_eq] at fits
      exact ⟨[subtag, sender, receiver], data, rfl, fits⟩
    · contradiction
  · rintro ⟨front, data, rfl, fits, small⟩
    obtain ⟨subtag, sender, receiver, rfl⟩ := fits_ridItems fits
    exact Bool.and_eq_true_iff.mpr ⟨fits, decide_eq_true small⟩

/-- The tail of RID is appended as it is (R108). -/
theorem encodeBody_rid (fits : fitsItems itemReserved (fitsItem c) ridItems vals = true) (data : Bytes) :
    encodeBody c .rid (vals ++ [.bytes data]) =
      (encodeItems itemReserved (encodeItem c) ridItems vals).map (· ++ data) := by
  obtain ⟨subtag, sender, receiver, rfl⟩ := fits_ridItems fits
  rfl

end

/-! ## What PAY_DECODE can do -/

/-- Under a known tag PAY_DECODE answers a variant of that tag whose values fit its layout, or raises an error that
is not of the tag. -/
theorem payloadDecode_cases {c : Config} (hc : c.legal = true) {tag : U16} {layout : Layout}
    (known : c.layoutOf tag = some layout) (b : Bytes) (declared : U16) :
    (∃ vals, payloadDecode c tag b declared = .ok { tag := tag, values := vals } ∧
      fitsLayout c layout vals = true) ∨
    ∃ e, payloadDecode c tag b declared = .error e ∧ ∀ t, e ≠ .unknownCommand t := by
  cases layout with
  | fixed items =>
    rw [payloadDecode_of_fixed known]
    rcases decodeBody_cases hc (layoutOf_fixed_ok hc known) b with
      ⟨vals, body, -, fits⟩ | ⟨body, -⟩ | ⟨field, raw, body⟩
    · rw [decodeFixed_of_ok tag body]
      split
      · exact .inr ⟨_, rfl, nofun⟩
      · exact .inl ⟨vals, rfl, fits⟩
    · exact .inr ⟨_, decodeFixed_of_error tag body, nofun⟩
    · exact .inr ⟨_, decodeFixed_of_error tag body, nofun⟩
  | rid =>
    obtain rfl := layoutOf_rid.mp known
    rw [payloadDecode_tagRid]
    rcases Nat.lt_or_ge declared.toNat ridPrefixLen with under | long
    · exact .inr ⟨_, if_pos under, nofun⟩
    · rcases decodeBody_cases hc (ridItems_ok hc) b with
        ⟨vals, body, -, fits⟩ | ⟨body, -⟩ | ⟨field, raw, body⟩
      · rw [decodeRid_of_ok long body]
        split_ifs with missing left
        · exact .inr ⟨_, rfl, nofun⟩
        · exact .inr ⟨_, rfl, nofun⟩
        · refine .inl ⟨_, rfl, fitsLayout_rid_iff.mpr ⟨vals, _, rfl, fits, ?_⟩⟩
          have range := declared.isLt
          rw [List.length_drop, maxPayloadLength]
          omega
      · exact .inr ⟨_, decodeRid_of_error long body, nofun⟩
      · exact .inr ⟨_, decodeRid_of_error long body, nofun⟩

/-- Settles O15: a tag outside TAGS has no layout, and the others are those of `payloadDecode_cases`. -/
theorem payDecodeDispatchesOnTheTag : Obligations.PayDecodeDispatchesOnTheTag := by
  intro s tag bytes declared
  simp only [raises_payDecode, answers_payDecode]
  refine ⟨fun unknown => payloadDecode_of_unknown unknown bytes declared, fun known => ?_⟩
  obtain ⟨layout, known⟩ := Option.isSome_iff_exists.mp (layoutOf_isSome.mpr known)
  refine ⟨layout, known, ?_⟩
  rcases payloadDecode_cases s.config.legal known bytes declared with ⟨vals, decoded, fits⟩ | ⟨e, failed, other⟩
  · rw [decoded]
    refine ⟨nofun, ?_⟩
    rintro v ⟨⟩
    exact ⟨rfl, fits⟩
  · rw [failed]
    refine ⟨?_, nofun⟩
    rintro t ⟨⟩
    exact other t rfl

/-! ## The round trip -/

/-- Values of a layout's shape are encoded to a body that PAY_DECODE reads back, with the body's length declared. -/
theorem payloadDecode_encodeBody {c : Config} (hc : c.legal = true) {tag : U16} {layout : Layout}
    (known : c.layoutOf tag = some layout) {vals : List Value} (fits : fitsLayout c layout vals = true) :
    ∃ body, encodeBody c layout vals = some body ∧
      payloadDecode c tag body (BitVec.ofNat 16 body.length) = .ok { tag := tag, values := vals } := by
  cases layout with
  | fixed items =>
    obtain ⟨body, enc, -, back⟩ := body_codesBack hc (layoutOf_fixed_ok hc known) fits
    have read : decodeBody c items body = .ok (vals, body.length) := by
      simpa [decodeBody] using back [] [] []
    refine ⟨body, enc, ?_⟩
    rw [payloadDecode_of_fixed known, decodeFixed_of_ok tag read, if_neg (Nat.lt_irrefl _)]
  | rid =>
    obtain rfl := layoutOf_rid.mp known
    obtain ⟨front, data, rfl, fits, small⟩ := fitsLayout_rid_iff.mp fits
    obtain ⟨start, enc, size, back⟩ := body_codesBack hc (ridItems_ok hc) fits
    have size : start.length = ridPrefixLen := size
    have read : decodeBody c ridItems (start ++ data) = .ok (front, start.length) := by
      simpa [decodeBody] using back [] data []
    have declared : (BitVec.ofNat 16 (start ++ data).length).toNat = (start ++ data).length := by
      rw [maxPayloadLength] at small
      rw [List.length_append]
      exact Nat.mod_eq_of_lt (by omega)
    refine ⟨start ++ data, by rw [encodeBody_rid fits, enc, Option.map_some], ?_⟩
    rw [payloadDecode_tagRid, decodeRid_of_ok (by rw [declared, List.length_append]; omega) read, declared,
      if_neg (Nat.lt_irrefl _), if_neg (Nat.lt_irrefl _), List.drop_left' size]

/-- What PAY_ENCODE answers for a well-formed variant: the tag's two bytes and the body of its layout (R106). -/
theorem payloadBytes_of_encodeBody {c : Config} {v : Variant} {layout : Layout} {body : Bytes}
    (ok : variantOk c v = true) (known : c.layoutOf v.tag = some layout)
    (enc : encodeBody c layout v.values = some body) :
    payloadBytes c v = .ok (memWrite 2 v.tag.toNat ++ body) := by
  simp only [payloadBytes, ok, known, Option.bind_some, enc]
  rfl

/-- A well-formed variant's values fit the layout of its tag. -/
theorem variantOk_iff {c : Config} {v : Variant} :
    variantOk c v = true ↔ ∃ layout, c.layoutOf v.tag = some layout ∧ fitsLayout c layout v.values = true := by
  unfold variantOk
  cases c.layoutOf v.tag <;> simp

/-- Settles O26: the tag is read from the first two bytes, and the body by `payloadDecode_encodeBody`. -/
theorem payloadRoundTrips : Obligations.PayloadRoundTrips := by
  intro s v ok
  obtain ⟨layout, known, fits⟩ := variantOk_iff.mp ok
  obtain ⟨body, enc, back⟩ := payloadDecode_encodeBody s.config.legal known fits
  refine ⟨_, (answers_payEncode ..).mpr (payloadBytes_of_encodeBody ok known enc), (answers_payDecode ..).mpr ?_⟩
  have tag : memRead (memWrite 2 v.tag.toNat ++ body) 0 2 = v.tag.toNat :=
    memRead_memWrite [] body (by have := v.tag.isLt; omega)
  have two := memWrite_length 2 v.tag.toNat
  rw [tag, BitVec.ofNat_toNat, BitVec.setWidth_eq, List.drop_left' two, List.length_append, two,
    Nat.add_sub_cancel_left]
  exact back

end Sys2Proof.Machine
end

section
/-! The length gates of a fixed-size body: bytes after an item do not change what it decodes to, and the first item
that fails decides the error (`42_payload.md` rules R93, R101). -/

namespace Sys2Proof.Machine

/-! ## More bytes -/

/-- `long`, the outcome of a decoder over more bytes, is its outcome `short` over fewer, unless they were too few. -/
def ExtendsTo {α : Type} (short long : Except Error α) : Prop :=
  short = .error .truncatedPayload ∨ long = short

theorem ExtendsTo.refl {α : Type} (r : Except Error α) : ExtendsTo r r := .inr rfl

theorem ExtendsTo.map {α β : Type} {r r' : Except Error α} (f : α → β) (h : ExtendsTo r r') :
    ExtendsTo (r.map f) (r'.map f) := by
  rcases h with rfl | rfl
  · exact .inl rfl
  · exact .refl _

theorem ExtendsTo.bind {α β : Type} {r r' : Except Error α} {f f' : α → Except Error β} (h : ExtendsTo r r')
    (hf : ∀ x, ExtendsTo (f x) (f' x)) : ExtendsTo (r >>= f) (r' >>= f') := by
  rcases h with rfl | same
  · exact .inl rfl
  · subst r'
    cases r with
    | error e => exact .refl _
    | ok x => exact hf x

theorem ExtendsTo.ok {α : Type} {r : Except Error α} {x : α} (h : ExtendsTo (.ok x) r) : r = .ok x := by
  rcases h with h | h
  · cases h
  · exact h

theorem ExtendsTo.invalidEnumValue {α : Type} {r : Except Error α} {field : FieldPath} {raw : U32}
    (h : ExtendsTo (.error (.invalidEnumValue field raw)) r) : r = .error (.invalidEnumValue field raw) := by
  rcases h with h | h
  · cases h
  · exact h

theorem decodeLeaf_extends (c : Config) (b more : Bytes) (it : LeafItem) (pos : Nat) (path : FieldPath) :
    ExtendsTo (decodeLeaf c b it pos path) (decodeLeaf c (b ++ more) it pos path) := by
  rcases Nat.lt_or_ge b.length (pos + it.size) with short | inside
  · exact .inl (decodeLeaf_of_short short)
  · have inside' : pos + it.size ≤ (b ++ more).length := by
      rw [List.length_append]
      omega
    refine .inr ?_
    cases it
    all_goals
      simp only [LeafItem.size] at inside inside'
      simp only [decodeLeaf, need_ok inside, need_ok inside', memRead_append_left more inside,
        slice_append_left more inside]

theorem decodeArray_extends {α : Type} {dec dec' : Nat → FieldPath → Except Error (α × Nat)}
    (h : ∀ pos path, ExtendsTo (dec pos path) (dec' pos path)) (path : FieldPath) (n j pos : Nat) :
    ExtendsTo (decodeArray dec path n j pos) (decodeArray dec' path n j pos) := by
  induction n generalizing j pos with
  | zero => exact .refl _
  | succ n ih => exact (h pos _).bind fun x => (ih (j + 1) x.2).bind fun xs => .refl _

theorem decodeItems_extends {ι α : Type} {dec dec' : ι → Nat → FieldPath → Except Error (Option α × Nat)}
    (h : ∀ it pos path, ExtendsTo (dec it pos path) (dec' it pos path)) (path : FieldPath)
    (items : List (FieldName × ι)) (pos : Nat) :
    ExtendsTo (decodeItems dec path items pos) (decodeItems dec' path items pos) := by
  induction items generalizing pos with
  | nil => exact .refl _
  | cons it items ih => exact (h it.2 pos _).bind fun v => (ih v.2).bind fun vs => .refl _

theorem need_extends (b more : Bytes) (pos n : Nat) : ExtendsTo (need b pos n) (need (b ++ more) pos n) := by
  rcases need_cases b pos n with ⟨inside, -⟩ | ⟨-, short⟩
  · rw [need_ok inside, need_ok (by rw [List.length_append]; omega)]
    exact .refl _
  · exact .inl short

theorem decodePlain_extends (c : Config) (b more : Bytes) (it : PlainItem) (pos : Nat) (path : FieldPath) :
    ExtendsTo (decodePlain c b it pos path) (decodePlain c (b ++ more) it pos path) := by
  cases it with
  | leaf it => exact (decodeLeaf_extends c b more it pos path).map _
  | rsv k => exact (need_extends b more pos k).map _
  | arr e n => exact (decodeArray_extends (decodeLeaf_extends c b more e) path n 0 pos).map _

theorem decodeFigure_extends (c : Config) (b more : Bytes) (pos : Nat) (path : FieldPath) :
    ExtendsTo (decodeFigure c b pos path) (decodeFigure c (b ++ more) pos path) :=
  decodeItems_extends (decodePlain_extends c b more) path c.figureLayout pos

theorem decodeItem_extends (c : Config) (b more : Bytes) (it : Item) (pos : Nat) (path : FieldPath) :
    ExtendsTo (decodeItem c b it pos path) (decodeItem c (b ++ more) it pos path) := by
  cases it with
  | plain it => exact (decodePlain_extends c b more it pos path).map _
  | figure => exact (decodeFigure_extends c b more pos path).map _
  | figures n => exact (decodeArray_extends (decodeFigure_extends c b more) path n 0 pos).map _

theorem decodeBody_extends (c : Config) (items : List (FieldName × Item)) (b more : Bytes) :
    ExtendsTo (decodeBody c items b) (decodeBody c items (b ++ more)) :=
  decodeItems_extends (decodeItem_extends c b more) [] items 0

/-! ## The first failing item -/

/-- An item that fails where the items before it end decides the error, whatever stands after it. -/
theorem decodeItems_first_error {ι α : Type} {dec : ι → Nat → FieldPath → Except Error (Option α × Nat)}
    {path : FieldPath} {pre : List (FieldName × ι)} {n : FieldName} {it : ι} (post : List (FieldName × ι))
    {pos p : Nat} {vals : List α} {e : Error} (before : decodeItems dec path pre pos = .ok (vals, p))
    (fails : dec it p (path ++ [.name n]) = .error e) :
    decodeItems dec path (pre ++ (n, it) :: post) pos = .error e := by
  induction pre generalizing pos vals with
  | nil =>
    obtain ⟨rfl, rfl⟩ : [] = vals ∧ pos = p := by simpa [decodeItems] using before
    simp only [List.nil_append, decodeItems, fails]
    rfl
  | cons x pre ih =>
    simp only [decodeItems] at before
    cases first : dec x.2 pos (path ++ [.name x.1]) with
    | error e' => rw [first] at before; cases before
    | ok r =>
      rw [first] at before
      simp only [bind, Except.bind] at before
      cases rest : decodeItems dec path pre r.2 with
      | error e' => rw [rest] at before; cases before
      | ok q =>
        rw [rest] at before
        obtain ⟨-, rfl⟩ : r.1.toList ++ q.1 = vals ∧ q.2 = p := by simpa using before
        simp only [List.cons_append, decodeItems, first, bind, Except.bind, ih rest]

/-! ## The gates -/

section
variable {c : Config} {items : List (FieldName × Item)}

/-- A body that is too short raises `TruncatedPayload`, or the error of an illegal value it holds, which more bytes
do not change. -/
theorem decodeFixed_of_short (hc : c.legal = true) (ok : ∀ it ∈ items, it.2.ok c = true) (tag : U16) {b : Bytes}
    (short : b.length < sizeOfItems Item.size items) :
    decodeFixed c items tag b = .error .truncatedPayload ∨
      ∃ field raw, ∀ more, decodeFixed c items tag (b ++ more) = .error (.invalidEnumValue field raw) := by
  rcases decodeBody_cases hc ok b with ⟨vals, -, inside, -⟩ | ⟨body, -⟩ | ⟨field, raw, body⟩
  · omega
  · exact .inl (decodeFixed_of_error tag body)
  · refine .inr ⟨field, raw, fun more => decodeFixed_of_error tag ?_⟩
    exact (body ▸ decodeBody_extends c items b more).invalidEnumValue

/-- A body of the exact size raises the enumeration error of its decode, or is answered with the values its items
decode to, each where the ones before it end. -/
theorem decodeFixed_of_exact (hc : c.legal = true) (ok : ∀ it ∈ items, it.2.ok c = true) (tag : U16) {b : Bytes}
    (exact : b.length = sizeOfItems Item.size items) :
    (∃ vals, decodeFixed c items tag b = .ok { tag := tag, values := vals } ∧
      decodeItems (decodeItem c b) [] items 0 = .ok (vals, sizeOfItems Item.size items) ∧
      ∀ pre n it post, items = pre ++ (n, it) :: post →
        decodeItem c b it (sizeOfItems Item.size pre) [.name n] =
          .ok (valueAfter itemReserved pre it vals, sizeOfItems Item.size pre + it.size)) ∨
    ∃ field raw, decodeFixed c items tag b = .error (.invalidEnumValue field raw) ∧
      decodeItems (decodeItem c b) [] items 0 = .error (.invalidEnumValue field raw) := by
  rcases decodeBody_cases hc ok b with ⟨vals, body, -, -⟩ | ⟨-, short⟩ | ⟨field, raw, body⟩
  · refine .inl ⟨vals, by rw [decodeFixed_of_ok tag body, if_neg (by omega)], body, fun pre n it post split => ?_⟩
    have parts := (decodeItems_ok_iff (fun it _ => decodeItem_movesBy hc b it.2) [] 0 vals _).mp body
    simpa using parts.2.2 pre n it post split
  · omega
  · exact .inr ⟨field, raw, decodeFixed_of_error tag body, body⟩

/-- A body that is too long raises `TrailingBytes` where its first bytes of the exact size are answered, and their
error where it is not. -/
theorem decodeFixed_of_long (hc : c.legal = true) (ok : ∀ it ∈ items, it.2.ok c = true) (tag : U16) {b : Bytes}
    (long : sizeOfItems Item.size items < b.length) :
    (∀ v, decodeFixed c items tag (b.take (sizeOfItems Item.size items)) = .ok v →
      decodeFixed c items tag b = .error .trailingBytes) ∧
    ∀ e, decodeFixed c items tag (b.take (sizeOfItems Item.size items)) = .error e →
      decodeFixed c items tag b = .error e := by
  have exact : (b.take (sizeOfItems Item.size items)).length = sizeOfItems Item.size items :=
    List.length_take_of_le long.le
  have more := decodeBody_extends c items (b.take (sizeOfItems Item.size items))
    (b.drop (sizeOfItems Item.size items))
  rw [List.take_append_drop] at more
  rcases decodeBody_cases hc ok (b.take (sizeOfItems Item.size items)) with
    ⟨vals, body, -, -⟩ | ⟨-, short⟩ | ⟨field, raw, body⟩
  · rw [body] at more
    rw [decodeFixed_of_ok tag body, decodeFixed_of_ok tag more.ok, if_neg (by omega), if_pos long]
    exact ⟨fun _ _ => rfl, nofun⟩
  · omega
  · rw [body] at more
    rw [decodeFixed_of_error tag body, decodeFixed_of_error tag more.invalidEnumValue]
    exact ⟨nofun, fun _ same => same⟩

end

/-- Settles O16: the gates by the body's length; `declared` is not read. -/
theorem fixedBodyLengthGates : Obligations.FixedBodyLengthGates := by
  intro s tag items bytes declared fixed
  have ok := layoutOf_fixed_ok s.config.legal fixed
  simp only [raises_payDecode, answers_payDecode, payloadDecode_of_fixed fixed]
  refine ⟨fun declared' => exec_congr ?_, decodeFixed_of_short s.config.legal ok tag,
    decodeFixed_of_exact s.config.legal ok tag, decodeFixed_of_long s.config.legal ok tag, ?_⟩
  · simp only [outcome, payloadDecode_of_fixed fixed]
  · rintro pre n it post vals p e rfl before fails
    exact decodeFixed_of_error tag (decodeItems_first_error post before fails)

end Sys2Proof.Machine
end

section
/-! The payload of RID: its two endpoints are checked in order, and then its length against `declared`
(`42_payload.md` rule R102). -/

namespace Sys2Proof.Machine

/-! ## The items of RID before its tail -/

/-- Two bytes are read as the number of the word they are, low byte first. -/
theorem littleEndian_pair (lo hi : Byte) : littleEndian [lo, hi] = (hi ++ lo).toNat := by
  have read := littleEndian_u16 (hi ++ lo)
  rwa [lo8_append, hi8_append] at read

theorem decodeItem_leaf (c : Config) (b : Bytes) (it : LeafItem) (pos : Nat) (path : FieldPath) :
    decodeItem c b (.plain (.leaf it)) pos path =
      (decodeLeaf c b it pos path).map fun r => (some (.plain (.leaf r.1)), r.2) := by
  simp only [decodeItem, decodePlain]
  cases decodeLeaf c b it pos path <;> rfl

/-- The sub-tag, the sender and the receiver, decoded one after the other (R61). -/
theorem decodeBody_ridItems (c : Config) (b : Bytes) :
    decodeBody c ridItems b =
      (decodeLeaf c b (.u 2) 0 [.name "sub_tag"]).bind fun subtag =>
        (decodeLeaf c b (.enum .endpointId 2) subtag.2 [.name "sender"]).bind fun sender =>
          (decodeLeaf c b (.enum .endpointId 2) sender.2 [.name "receiver"]).map fun receiver =>
            ([.plain (.leaf subtag.1), .plain (.leaf sender.1), .plain (.leaf receiver.1)], receiver.2) := by
  simp only [decodeBody, ridItems, decodeItems, decodeItem_leaf, List.nil_append]
  cases decodeLeaf c b (.u 2) 0 [.name "sub_tag"] with
  | error e => rfl
  | ok subtag =>
    simp only [bind, Except.bind, Except.map]
    cases decodeLeaf c b (.enum .endpointId 2) subtag.2 [.name "sender"] with
    | error e => rfl
    | ok sender =>
      simp only
      cases decodeLeaf c b (.enum .endpointId 2) sender.2 [.name "receiver"] <;> rfl

theorem decodeBody_ridItems_of_short {c : Config} {b : Bytes} (short : b.length < 4) :
    decodeBody c ridItems b = .error .truncatedPayload := by
  rw [decodeBody_ridItems]
  rcases Nat.lt_or_ge b.length (0 + 2) with missing | subtag
  · rw [decodeLeaf_of_short missing]
    rfl
  · rw [decodeLeaf_u subtag]
    show (decodeLeaf c b (.enum .endpointId 2) (0 + 2) [.name "sender"]).bind _ = _
    rw [decodeLeaf_of_short short]
    rfl

/-- With the sub-tag and the sender present: the sender's check, and then the receiver. -/
theorem decodeBody_ridItems_cons (c : Config) (t0 t1 s0 s1 : Byte) (rest : Bytes) :
    decodeBody c ridItems (t0 :: t1 :: s0 :: s1 :: rest) =
      if c.enumLegal .endpointId (s1 ++ s0).toNat then
        (decodeLeaf c (t0 :: t1 :: s0 :: s1 :: rest) (.enum .endpointId 2) 4 [.name "receiver"]).map fun receiver =>
          ([.plain (.leaf (.int (t1 ++ t0).toNat)), .plain (.leaf (.enum .endpointId (s1 ++ s0).toNat)),
            .plain (.leaf receiver.1)], receiver.2)
      else .error (.invalidEnumValue [.name "sender"] ((s1 ++ s0).setWidth 32)) := by
  have subtag := decodeLeaf_u (c := c) (b := t0 :: t1 :: s0 :: s1 :: rest) (pos := 0) (k := 2)
    (path := [.name "sub_tag"]) (by simp)
  have sender := decodeLeaf_enum (c := c) (b := t0 :: t1 :: s0 :: s1 :: rest) (pos := 2) (k := 2)
    (path := [.name "sender"]) (e := .endpointId) (by simp)
  have subtagWord : memRead (t0 :: t1 :: s0 :: s1 :: rest) 0 2 = (t1 ++ t0).toNat := littleEndian_pair t0 t1
  have senderWord : memRead (t0 :: t1 :: s0 :: s1 :: rest) 2 2 = (s1 ++ s0).toNat := littleEndian_pair s0 s1
  rw [subtagWord] at subtag
  rw [senderWord, BitVec.ofNat_toNat] at sender
  rw [decodeBody_ridItems, subtag]
  show (decodeLeaf c _ (.enum .endpointId 2) 2 [.name "sender"]).bind _ = _
  rw [sender]
  split <;> rfl

/-- The receiver, where all six bytes are present. -/
theorem decodeLeaf_receiver (c : Config) (t0 t1 s0 s1 r0 r1 : Byte) (data : Bytes) :
    decodeLeaf c (t0 :: t1 :: s0 :: s1 :: r0 :: r1 :: data) (.enum .endpointId 2) 4 [.name "receiver"] =
      if c.enumLegal .endpointId (r1 ++ r0).toNat then .ok (.enum .endpointId (r1 ++ r0).toNat, 6)
      else .error (.invalidEnumValue [.name "receiver"] ((r1 ++ r0).setWidth 32)) := by
  have word : memRead (t0 :: t1 :: s0 :: s1 :: r0 :: r1 :: data) 4 2 = (r1 ++ r0).toNat :=
    littleEndian_pair r0 r1
  rw [decodeLeaf_enum (by simp), word, BitVec.ofNat_toNat]

/-! ## The gates -/

/-- Settles O17: the gate of `declared`, the items before the tail one by one, and the tail's length. -/
theorem ridDecodeGatesAndValues : Obligations.RidDecodeGatesAndValues := by
  intro s bytes declared
  simp only [raises_payDecode, answers_payDecode, payloadDecode_tagRid]
  refine ⟨fun under => if_pos under, fun long short => ?_, ?_⟩
  · exact decodeRid_of_error long (decodeBody_ridItems_of_short short)
  rintro long t0 t1 s0 s1 rest rfl
  have body := decodeBody_ridItems_cons s.config.config t0 t1 s0 s1 rest
  refine ⟨fun illegal => ?_, fun legal => ?_⟩
  · rw [if_neg (by simp [illegal])] at body
    exact decodeRid_of_error long body
  rw [if_pos legal] at body
  refine ⟨fun short => ?_, ?_⟩
  · rw [decodeLeaf_of_short (by simp [LeafItem.size]; omega)] at body
    exact decodeRid_of_error long body
  rintro r0 r1 data rfl
  rw [decodeLeaf_receiver] at body
  refine ⟨fun illegal => ?_, fun legal' => ?_⟩
  · rw [if_neg (by simp [illegal])] at body
    exact decodeRid_of_error long body
  rw [if_pos legal'] at body
  rw [decodeRid_of_ok long body]
  simp only [List.length_cons]
  have atLeastSix : 6 ≤ declared.toNat := long
  refine ⟨fun few => if_pos (by omega), fun many => ?_, fun same => ?_⟩
  · exact (if_neg (by omega)).trans (if_pos (by omega))
  · exact (if_neg (by omega)).trans (if_neg (by omega))

end Sys2Proof.Machine
end

section
/-! The frame tail: the CRC-16 gate over the bytes before it, and the flips it detects (`43_frame.md` rule R115). -/

namespace Sys2Proof.Machine

/-! ## What the CRC-16 tells apart -/

theorem crcInput_crc16_inj {x y : Byte} : crcInput crc16Cfg x = crcInput crc16Cfg y ↔ x = y := by
  rw [← BitVec.toNat_inj, toNat_crcInput_crc16, toNat_crcInput_crc16, ← BitVec.toNat_inj]
  omega

/-- The CRC-16 tells apart messages that differ in one byte. -/
theorem crc16_replace_byte_inj (front back : Bytes) {x y : Byte} :
    crc16 (front ++ x :: back) = crc16 (front ++ y :: back) ↔ x = y := by
  have odd : crc16Cfg.poly.getLsbD 0 = true := by decide
  simp only [crc16_eq_foldl, List.foldl_append, List.foldl_cons, foldl_crcByte_inj odd, crcByte,
    crcShift8_inj odd, BitVec.xor_right_inj, crcInput_crc16_inj]

/-- The CRC-16 detects every single-bit error. -/
theorem crc16_flipBit_ne {b : Bytes} {k j : Nat} (byte : k < b.length) (bit : j < 8) :
    crc16 (flipBit b k j) ≠ crc16 b := by
  have parts : b = b.take k ++ b[k] :: b.drop (k + 1) := by simp
  rw [flipBit_eq_append j byte]
  conv_rhs => rw [parts]
  exact mt (crc16_replace_byte_inj _ _).mp (xor_twoPow_ne_self _ bit)

/-! ## An inverted bit of a concatenation -/

theorem flipBit_append_left {front : Bytes} (back : Bytes) {k : Nat} (j : Nat) (inside : k < front.length) :
    flipBit (front ++ back) k j = flipBit front k j ++ back := by
  rw [flipBit, flipBit, List.set_append_left _ _ inside, List.getD_append _ _ _ _ inside]

theorem flipBit_append_right (front back : Bytes) (k j : Nat) :
    flipBit (front ++ back) (front.length + k) j = front ++ flipBit back k j := by
  rw [flipBit, flipBit, List.set_append_right _ _ (Nat.le_add_right ..),
    List.getD_append_right _ _ _ _ (Nat.le_add_right ..), Nat.add_sub_cancel_left]

/-- Two words are equal when both their bytes are. -/
theorem append_byte_inj {hi lo hi' lo' : Byte} : hi ++ lo = hi' ++ lo' ↔ hi = hi' ∧ lo = lo' := by
  constructor
  · intro same
    exact ⟨by simpa using congrArg hi8 same, by simpa using congrArg lo8 same⟩
  · rintro ⟨rfl, rfl⟩
    rfl

/-! ## TAIL_CHECK's gates -/

theorem tailCheck_of_short {b : Bytes} (short : b.length < 2) : tailCheck b = .error .truncatedPayload :=
  if_pos short

/-- Two bytes are read as the word they are, wherever they stand. -/
theorem ofNat_memRead_pair (front : Bytes) (lo hi : Byte) (back : Bytes) :
    BitVec.ofNat 16 (memRead (front ++ [lo, hi] ++ back) front.length 2) = hi ++ lo := by
  have pair := slice_middle front [lo, hi] back
  rw [memRead, ← ofNat_littleEndian_pair]
  exact congrArg (BitVec.ofNat 16 <| littleEndian ·) pair

/-- With two bytes present: the CRC-16 gate over the bytes before them (R115). -/
theorem tailCheck_append (d : Bytes) (lo hi : Byte) :
    tailCheck (d ++ [lo, hi]) =
      if crc16 d ≠ hi ++ lo then .error .badFrameChecksum else .ok (hi ++ lo) := by
  have size : (d ++ [lo, hi]).length - tailLen = d.length := by simp [tailLen]
  have present : ¬ (d ++ [lo, hi]).length < tailLen := by simp [tailLen]
  have tail : BitVec.ofNat 16 (memRead (d ++ [lo, hi]) d.length tailLen) = hi ++ lo := by
    simpa [tailLen] using ofNat_memRead_pair d lo hi []
  have before : slice (d ++ [lo, hi]) 0 d.length = d := by simp [slice]
  rw [tailCheck, if_neg present, size, tail, before]

/-- A sequence of two bytes or more has the shape of `tailCheck_append`. -/
theorem exists_tail_of_length {b : Bytes} (long : 2 ≤ b.length) : ∃ d lo hi, b = d ++ [lo, hi] := by
  obtain ⟨lo, hi, tail⟩ := List.length_eq_two.mp (show (b.drop (b.length - 2)).length = 2 by
    rw [List.length_drop]
    omega)
  exact ⟨b.take (b.length - 2), lo, hi, by rw [← tail, List.take_append_drop]⟩

/-- The sequences that pass: their last two bytes are the CRC-16 of all before them. -/
theorem tailCheck_eq_ok_iff (b : Bytes) (t : U16) :
    tailCheck b = .ok t ↔ ∃ d lo hi, b = d ++ [lo, hi] ∧ crc16 d = hi ++ lo ∧ hi ++ lo = t := by
  constructor
  · intro passes
    rcases Nat.lt_or_ge b.length 2 with short | long
    · rw [tailCheck_of_short short] at passes
      cases passes
    · obtain ⟨d, lo, hi, rfl⟩ := exists_tail_of_length long
      rw [tailCheck_append] at passes
      split_ifs at passes with same
      cases passes
      exact ⟨d, lo, hi, rfl, not_not.mp same, rfl⟩
  · rintro ⟨d, lo, hi, rfl, same, rfl⟩
    rw [tailCheck_append, if_neg (not_not.mpr same)]

/-- A flipped bit in a sequence that passes changes the CRC-16, or one of the two bytes it is compared with. -/
theorem tailCheck_flipBit {b : Bytes} {t : U16} (passes : tailCheck b = .ok t) {k j : Nat} (byte : k < b.length)
    (bit : j < 8) : tailCheck (flipBit b k j) = .error .badFrameChecksum := by
  obtain ⟨d, lo, hi, rfl, same, -⟩ := (tailCheck_eq_ok_iff b t).mp passes
  rcases Nat.lt_or_ge k d.length with before | inTail
  · rw [flipBit_append_left _ j before, tailCheck_append, ← same]
    exact if_pos (crc16_flipBit_ne before bit)
  · obtain ⟨i, rfl⟩ := Nat.exists_eq_add_of_le inTail
    rw [flipBit_append_right]
    have inside : i < 2 := by simpa using byte
    match i with
    | 0 =>
      refine (tailCheck_append d (lo ^^^ BitVec.twoPow 8 j) hi).trans (if_pos ?_)
      rw [same, ne_eq, append_byte_inj]
      exact fun equal => xor_twoPow_ne_self lo bit equal.2.symm
    | 1 =>
      refine (tailCheck_append d lo (hi ^^^ BitVec.twoPow 8 j)).trans (if_pos ?_)
      rw [same, ne_eq, append_byte_inj]
      exact fun equal => xor_twoPow_ne_self hi bit equal.1.symm

/-! ## The obligation -/

theorem answers_tailCheck (s : State) (b : Bytes) (t : U16) :
    s.answers (.tailCheck b) (.tail t) ↔ tailCheck b = .ok t := by
  rw [answers_outcome, outcome]
  cases tailCheck b <;> simp [Except.map]

theorem raises_tailCheck (s : State) (b : Bytes) (e : Error) :
    s.raises (.tailCheck b) e ↔ tailCheck b = .error e := by
  rw [raises_outcome, outcome]
  cases tailCheck b <;> simp [Except.map]

/-- Settles O38: the length gate, the branches of `tailCheck_append`, and the flips by `tailCheck_flipBit`. -/
theorem tailCheckComparesTheCrc : Obligations.TailCheckComparesTheCrc := by
  intro s
  simp only [raises_tailCheck, answers_tailCheck, tailCheck_append]
  refine ⟨fun b short => tailCheck_of_short short, fun d lo hi => ⟨fun same => ?_, fun differs => ?_⟩,
    fun b t passes k j byte bit => tailCheck_flipBit passes byte bit⟩
  · rw [same, if_neg (not_not.mpr rfl)]
  · exact if_pos differs.symm

end Sys2Proof.Machine
end

section
/-! Whole frames: what FRAME_BUILD and FRAME_ENCODE answer, the gates of FRAME_DECODE, and the round trip
(`43_frame.md` rules R113 to R118, R121, R122). -/

namespace Sys2Proof.Machine

/-! ## The three operations -/

theorem answers_frameBuild (s : State) (sequence : U8) (v : Variant) (f : Frame) :
    s.answers (.frameBuild sequence v) (.frame f) ↔ frameBuild s.config.config sequence v = .ok f := by
  rw [answers_outcome, outcome]
  cases frameBuild s.config.config sequence v <;> simp [Except.map]

theorem raises_frameBuild (s : State) (sequence : U8) (v : Variant) (e : Error) :
    s.raises (.frameBuild sequence v) e ↔ frameBuild s.config.config sequence v = .error e := by
  rw [raises_outcome, outcome]
  cases frameBuild s.config.config sequence v <;> simp [Except.map]

theorem answers_frameEncode (s : State) (f : Frame) (b : Bytes) :
    s.answers (.frameEncode f) (.bytes b) ↔ frameEncode s.config.config f = .ok b := by
  rw [answers_outcome, outcome]
  cases frameEncode s.config.config f <;> simp [Except.map]

theorem answers_frameDecode (s : State) (b : Bytes) (f : Frame) (n : U32) :
    s.answers (.frameDecode b) (.decoded f n) ↔ frameDecode s.config.config b = .ok (f, n) := by
  rw [answers_outcome, outcome]
  cases frameDecode s.config.config b <;> simp [Except.map, Prod.ext_iff]

theorem raises_frameDecode (s : State) (b : Bytes) (e : Error) :
    s.raises (.frameDecode b) e ↔ frameDecode s.config.config b = .error e := by
  rw [raises_outcome, outcome]
  cases frameDecode s.config.config b <;> simp [Except.map]

/-! ## The payload's bytes -/

/-- What PAY_ENCODE answers of a variant: the two bytes of its tag, and a body that decodes back to it. -/
theorem payloadBytes_eq_ok {c : Config} (hc : c.legal = true) {v : Variant} {p : Bytes}
    (written : payloadBytes c v = .ok p) :
    ∃ body, p = [lo8 v.tag, hi8 v.tag] ++ body ∧
      payloadDecode c v.tag body (BitVec.ofNat 16 body.length) = .ok v := by
  cases ok : variantOk c v with
  | false => simp [payloadBytes, ok] at written
  | true =>
    obtain ⟨layout, known, fits⟩ := variantOk_iff.mp ok
    obtain ⟨body, enc, back⟩ := payloadDecode_encodeBody hc known fits
    rw [payloadBytes_of_encodeBody ok known enc, memWrite_u16] at written
    cases written
    exact ⟨body, rfl, back⟩

theorem payloadBytes_of_not_variantOk {c : Config} {v : Variant} (bad : variantOk c v = false) :
    payloadBytes c v = .error .contractViolation :=
  if_neg (by simp [bad])

/-! ## FRAME_BUILD -/

/-- The frame of a payload with the bytes `p` (R113). -/
def consistentFrame (sequence : U8) (v : Variant) (p : Bytes) : Frame where
  header := headerRecompute (BitVec.ofNat 16 (p.length - 2)) sequence
  payload := v
  tail := frameCrc (headerRecompute (BitVec.ofNat 16 (p.length - 2)) sequence) p

section
variable {c : Config} {sequence : U8} {v : Variant} {p : Bytes} {f : Frame}

/-- Once the payload is encoded, only the length gate is left (R113). -/
theorem frameBuild_of_ok (sequence : U8) (written : payloadBytes c v = .ok p) :
    frameBuild c sequence v =
      if 0xFFFF < p.length - 2 then .error .contractViolation else .ok (consistentFrame sequence v p) := by
  simp only [frameBuild, written]
  rfl

theorem frameBuild_of_error {e : Error} (sequence : U8) (failed : payloadBytes c v = .error e) :
    frameBuild c sequence v = .error e := by
  simp only [frameBuild, failed]
  rfl

theorem frameBuild_eq_ok_iff :
    frameBuild c sequence v = .ok f ↔
      ∃ p, payloadBytes c v = .ok p ∧ p.length - 2 ≤ 0xFFFF ∧ f = consistentFrame sequence v p := by
  cases written : payloadBytes c v with
  | error e => simp [frameBuild_of_error sequence written]
  | ok p =>
    rw [frameBuild_of_ok sequence written]
    split_ifs with long
    · simp only [Except.ok.injEq, exists_eq_left', Nat.not_le.mpr long, false_and]
    · simp only [Except.ok.injEq, exists_eq_left', Nat.not_lt.mp long, true_and, eq_comm]

theorem consistentFrame_payloadLength (fits : p.length - 2 ≤ 0xFFFF) :
    (consistentFrame sequence v p).header.payloadLength.toNat = p.length - 2 :=
  Nat.mod_eq_of_lt (by omega)

/-! ## FRAME_ENCODE -/

/-- The frames FRAME_ENCODE takes, those of R31's three invariants, and the bytes it answers (R114). -/
theorem frameEncode_eq_ok_iff {b : Bytes} :
    frameEncode c f = .ok b ↔ ∃ p, payloadBytes c f.payload = .ok p ∧
      f.header.payloadLength.toNat = p.length - 2 ∧
      f.header.crc8 = headerCrc f.header.payloadLength f.header.sequence ∧
      f.tail = crc16 (headerBytes f.header ++ p) ∧
      b = headerBytes f.header ++ p ++ [lo8 f.tail, hi8 f.tail] := by
  cases written : payloadBytes c f.payload with
  | error e => simp [frameEncode, written, bind, Except.bind]
  | ok p =>
    simp only [frameEncode, written, bind, Except.bind, tagLen, tailLen, frameCrc, memWrite_u16]
    split_ifs with length crc tail
    · simp [length]
    · simp [crc]
    · simp [tail]
    · simp [not_not.mp length, not_not.mp crc, ← not_not.mp tail, eq_comm]

/-- The frame of a payload that fits is encoded: it is consistent. -/
theorem frameEncode_consistentFrame (written : payloadBytes c v = .ok p) (fits : p.length - 2 ≤ 0xFFFF) :
    ∃ b, frameEncode c (consistentFrame sequence v p) = .ok b :=
  ⟨_, frameEncode_eq_ok_iff.mpr ⟨p, written, consistentFrame_payloadLength fits, rfl, rfl, rfl⟩⟩

/-! ## FRAME_DECODE -/

theorem frameDecode_of_header_error {b : Bytes} {e : Error} (failed : headerDecode b = .error e) :
    frameDecode c b = .error e := by
  simp only [frameDecode, failed]
  rfl

theorem frameDecode_of_short {b : Bytes} {h : FrameHeader} (valid : headerDecode b = .ok h)
    (short : b.length < h.payloadLength.toNat + 9) : frameDecode c b = .error .truncatedPayload := by
  simp only [frameDecode, valid]
  exact if_pos short

/-- All bytes of a frame before its tail. -/
def frameFront (h : FrameHeader) (tag0 tag1 : Byte) (body : Bytes) : Bytes :=
  headerBytes h ++ [tag0, tag1] ++ body

theorem frameFront_length (h : FrameHeader) (tag0 tag1 : Byte) (body : Bytes) :
    (frameFront h tag0 tag1 body).length = body.length + 7 := by
  simp [frameFront, headerBytes_length]
  omega

/-- Behind a valid header, with `L + 9` bytes present: the payload's decode, and the tail gate over all bytes before
the tail (R116 to R118). -/
theorem frameDecode_append {h : FrameHeader} (consistent : h.crc8 = headerCrc h.payloadLength h.sequence)
    {body : Bytes} (size : body.length = h.payloadLength.toNat) (tag0 tag1 tail0 tail1 : Byte) (rest : Bytes) :
    frameDecode c (frameFront h tag0 tag1 body ++ [tail0, tail1] ++ rest) =
      (payloadDecode c (tag1 ++ tag0) body h.payloadLength).bind fun v =>
        if crc16 (frameFront h tag0 tag1 body) ≠ tail1 ++ tail0 then .error .badFrameChecksum
        else .ok ({ header := h, payload := v, tail := tail1 ++ tail0 },
          BitVec.ofNat 32 (h.payloadLength.toNat + 9)) := by
  have five := headerBytes_length h
  have front := frameFront_length h tag0 tag1 body
  generalize whole : frameFront h tag0 tag1 body ++ [tail0, tail1] ++ rest = b
  have valid : headerDecode b = .ok h :=
    (headerDecode_eq_ok_iff b h).mpr ⟨consistent, [tag0, tag1] ++ body ++ [tail0, tail1] ++ rest, by
      rw [← whole]
      simp [frameFront]⟩
  have present : ¬ b.length < h.payloadLength.toNat + frameOverhead := by
    rw [← whole]
    simp [front, size, frameOverhead]
    omega
  have tag : BitVec.ofNat 16 (memRead b hdrLen tagLen) = tag1 ++ tag0 := by
    have read := ofNat_memRead_pair (headerBytes h) tag0 tag1 (body ++ [tail0, tail1] ++ rest)
    rw [five] at read
    rw [← whole, ← read]
    simp [frameFront, hdrLen, tagLen]
  have payload : slice b (hdrLen + tagLen) h.payloadLength.toNat = body := by
    have middle := slice_middle (headerBytes h ++ [tag0, tag1]) body ([tail0, tail1] ++ rest)
    rw [List.length_append, five, size] at middle
    rw [← whole]
    simpa [frameFront, hdrLen, tagLen] using middle
  have before : slice b 0 (hdrLen + tagLen + h.payloadLength.toNat) = frameFront h tag0 tag1 body := by
    rw [← whole, slice, List.drop_zero, List.append_assoc]
    exact List.take_left' (by rw [front, size, hdrLen, tagLen]; omega)
  have tail : BitVec.ofNat 16 (memRead b (hdrLen + tagLen + h.payloadLength.toNat) tailLen) = tail1 ++ tail0 := by
    have read := ofNat_memRead_pair (frameFront h tag0 tag1 body) tail0 tail1 rest
    rw [whole, front, size] at read
    rw [← read, hdrLen, tagLen, tailLen, Nat.add_comm]
  simp only [frameDecode, valid, bind, Except.bind, if_neg present, tag, payload, before, tail]
  rfl

/-- What a frame was read from: a tag and a body of the header's length that decode to its payload, under its own
consistent header and before the CRC-16 of all of them. -/
structure ReadFrom (c : Config) (f : Frame) (tag : U16) (body : Bytes) : Prop where
  consistent : f.header.crc8 = headerCrc f.header.payloadLength f.header.sequence
  size : body.length = f.header.payloadLength.toNat
  payload : payloadDecode c tag body f.header.payloadLength = .ok f.payload
  tail : f.tail = crc16 (frameFront f.header (lo8 tag) (hi8 tag) body)

/-- The bytes of a frame read from a tag and a body. -/
def frameBytes (f : Frame) (tag : U16) (body : Bytes) : Bytes :=
  frameFront f.header (lo8 tag) (hi8 tag) body ++ [lo8 f.tail, hi8 f.tail]

theorem frameBytes_length (f : Frame) (tag : U16) (body : Bytes) :
    (frameBytes f tag body).length = body.length + 9 := by
  simp [frameBytes, frameFront_length]

/-- The bytes behind a header that are a tag, a body of length `n` and a tail, and more. -/
theorem exists_body_of_length {b : Bytes} {n : Nat} (long : n + 4 ≤ b.length) :
    ∃ tag0 tag1 body tail0 tail1 rest, b = [tag0, tag1] ++ body ++ [tail0, tail1] ++ rest ∧ body.length = n := by
  match b, long with
  | tag0 :: tag1 :: more, long =>
    have long : n + 2 ≤ more.length := by simpa using long
    match behind : more.drop n, (show 2 ≤ (more.drop n).length by rw [List.length_drop]; omega) with
    | tail0 :: tail1 :: rest, _ =>
      refine ⟨tag0, tag1, more.take n, tail0, tail1, rest, ?_, List.length_take_of_le (by omega)⟩
      conv_lhs => rw [← List.take_append_drop n more, behind]
      simp

/-- All that FRAME_DECODE answers: the frame the buffer begins with, and that frame's number of bytes. -/
theorem frameDecode_eq_ok_iff {b : Bytes} {n : U32} :
    frameDecode c b = .ok (f, n) ↔ n = BitVec.ofNat 32 (f.header.payloadLength.toNat + 9) ∧
      ∃ tag body rest, ReadFrom c f tag body ∧ b = frameBytes f tag body ++ rest := by
  constructor
  · intro decoded
    cases valid : headerDecode b with
    | error e => simp [frameDecode_of_header_error valid] at decoded
    | ok h =>
      rcases Nat.lt_or_ge b.length (h.payloadLength.toNat + 9) with short | long
      · simp [frameDecode_of_short valid short] at decoded
      obtain ⟨consistent, behind, rfl⟩ := (headerDecode_eq_ok_iff b h).mp valid
      obtain ⟨tag0, tag1, body, tail0, tail1, rest, rfl, size⟩ :=
        exists_body_of_length (b := behind) (n := h.payloadLength.toNat) (by
          rw [List.length_append, headerBytes_length] at long
          omega)
      have whole : headerBytes h ++ ([tag0, tag1] ++ body ++ [tail0, tail1] ++ rest) =
          frameFront h tag0 tag1 body ++ [tail0, tail1] ++ rest := by simp [frameFront]
      rw [whole] at decoded ⊢
      rw [frameDecode_append consistent size] at decoded
      cases payload : payloadDecode c (tag1 ++ tag0) body h.payloadLength with
      | error e => simp [payload, Except.bind] at decoded
      | ok v =>
        simp only [payload, Except.bind] at decoded
        split_ifs at decoded with same
        cases decoded
        exact ⟨rfl, tag1 ++ tag0, body, rest, ⟨consistent, size, payload, by simpa using (not_not.mp same).symm⟩,
          by simp [frameBytes]⟩
  · rintro ⟨rfl, tag, body, rest, ⟨consistent, size, payload, tail⟩, rfl⟩
    rw [frameBytes, frameDecode_append consistent size, hi8_append_lo8, hi8_append_lo8, payload]
    exact if_neg (not_not.mpr tail.symm)

/-- The bytes FRAME_ENCODE answers are those FRAME_DECODE reads the frame from. -/
theorem readFrom_of_frameEncode (hc : c.legal = true) {b : Bytes} (encoded : frameEncode c f = .ok b) :
    ∃ tag body, ReadFrom c f tag body ∧ b = frameBytes f tag body := by
  obtain ⟨p, written, length, consistent, tail, rfl⟩ := frameEncode_eq_ok_iff.mp encoded
  obtain ⟨body, rfl, back⟩ := payloadBytes_eq_ok hc written
  have size : body.length = f.header.payloadLength.toNat := by simpa using length.symm
  rw [size, BitVec.ofNat_toNat, BitVec.setWidth_eq] at back
  rw [← List.append_assoc] at tail ⊢
  exact ⟨f.payload.tag, body, ⟨consistent, size, back, tail⟩, rfl⟩

end

/-! ## Building a frame -/

/-- Settles O31: the length gate of `frameBuild_of_ok`, and the error of a payload that is not encoded. -/
theorem frameBuildAnswersConsistentFrame : Obligations.FrameBuildAnswersConsistentFrame := by
  intro s sequence v
  simp only [answers_frameBuild, raises_frameBuild]
  refine ⟨?_, fun p written long => ?_, fun bad => ?_⟩
  · rintro p written fits len crc rfl rfl
    rw [frameBuild_of_ok sequence written, if_neg (Nat.not_lt.mpr fits)]
    simp only [consistentFrame, frameCrc, headerBytes_eq, headerRecompute, headerCrc, lo8_eq_extractLsb',
      hi8_eq_extractLsb', magic]
  · rw [frameBuild_of_ok sequence written, if_pos long]
  · exact frameBuild_of_error sequence (payloadBytes_of_not_variantOk bad)

/-! ## Decoding a frame -/

/-- Settles O33: the header's errors, the length gate, and the two gates of `frameDecode_append`. -/
theorem frameDecodeRunsItsGatesInOrder : Obligations.FrameDecodeRunsItsGatesInOrder := by
  intro s bytes
  simp only [raises_hdrDecode, answers_hdrDecode, raises_payDecode, answers_payDecode, raises_frameDecode,
    answers_frameDecode]
  refine ⟨fun e => frameDecode_of_header_error, fun h valid => ⟨frameDecode_of_short valid, ?_⟩⟩
  rintro header body rest tag0 tag1 tail0 tail1 five size rfl
  obtain ⟨consistent, behind, whole⟩ := (headerDecode_eq_ok_iff _ h).mp valid
  simp only [List.append_assoc] at whole
  obtain ⟨rfl, -⟩ := List.append_inj whole (by rw [five, headerBytes_length])
  have gates := frameDecode_append (c := s.config.config) consistent size tag0 tag1 tail0 tail1 rest
  rw [frameFront] at gates
  rw [gates]
  refine ⟨fun e failed => by rw [failed]; rfl, fun v decoded => ?_⟩
  rw [decoded]
  exact ⟨fun differs => if_pos differs.symm, fun same => if_neg (not_not.mpr same.symm)⟩

/-- Settles O35: the built frame is consistent, so it is encoded, and its encoding is what it is read from. -/
theorem frameRoundTrips : Obligations.FrameRoundTrips := by
  intro s sequence v p rest written fits
  obtain ⟨b, encoded⟩ := frameEncode_consistentFrame (sequence := sequence) written fits
  have built := frameBuild_eq_ok_iff (sequence := sequence).mpr ⟨p, written, fits, rfl⟩
  obtain ⟨tag, body, read, rfl⟩ := readFrom_of_frameEncode s.config.legal encoded
  have size := read.size
  rw [consistentFrame_payloadLength fits] at size
  obtain ⟨_, rfl, -⟩ := payloadBytes_eq_ok s.config.legal written
  refine ⟨_, _, (answers_frameBuild ..).mpr built, rfl, rfl, (answers_frameEncode ..).mpr encoded, ?_,
    (answers_frameDecode ..).mpr (frameDecode_eq_ok_iff.mpr ⟨?_, tag, body, rest, read, rfl⟩)⟩
  · rw [frameBytes_length, size]
    simp
  · rw [frameBytes_length, read.size]

/-- Settles O37: the tail gate of `frameDecode_append` where the payload still decodes, and the header's gates. -/
theorem frameTamperingIsDetected : Obligations.FrameTamperingIsDetected := by
  intro s sequence v f b _ encoded
  simp only [raises_frameDecode]
  rw [answers_frameEncode] at encoded
  obtain ⟨tag, body, read, rfl⟩ := readFrom_of_frameEncode s.config.legal encoded
  have valid : headerDecode (frameBytes f tag body) = .ok f.header :=
    (headerDecode_eq_ok_iff ..).mpr ⟨read.consistent, _, by
      rw [frameBytes, frameFront, List.append_assoc, List.append_assoc]⟩
  refine ⟨fun j bit => ?_, fun j bit => ?_, fun x other => ?_⟩
  · have last : (frameBytes f tag body).length - 1 = (frameFront f.header (lo8 tag) (hi8 tag) body).length + 1 := by
      rw [frameBytes_length, frameFront_length]
      omega
    rw [last, frameBytes, flipBit_append_right]
    have gates := frameDecode_append (c := s.config.config) read.consistent read.size (lo8 tag) (hi8 tag)
      (lo8 f.tail) (hi8 f.tail ^^^ BitVec.twoPow 8 j) []
    rw [List.append_nil, hi8_append_lo8, read.payload] at gates
    refine gates.trans (if_pos fun same => ?_)
    rw [← read.tail, ← hi8_append_lo8 f.tail, append_byte_inj] at same
    exact xor_twoPow_ne_self (hi8 f.tail) bit (by simpa using same.1.symm)
  · exact frameDecode_of_header_error (headerDecode_flipBit valid (by decide) bit)
  · refine frameDecode_of_header_error ?_
    rw [frameBytes, frameFront, headerBytes_eq]
    exact (headerDecode_cons ..).trans (if_pos other)

end Sys2Proof.Machine
end

section
/-! Encode after decode: the bytes a value was decoded from, with the bits of its reserved fields cleared
(`42_payload.md` rules R108, R109, R111). -/

namespace Sys2Proof.Machine

/-! ## Masked bits and bytes -/

/-- The bits of `g` from bit `s` on, as far as `kept` goes, those not kept as 0. -/
def maskedBits (kept : List Bool) (g : Bytes) (s : Nat) : List Bool :=
  kept.mapIdx fun i keep => keep && bitAt g (s + i)

/-- The bytes of `b` from `pos` on, as far as `mask` goes, under that mask. -/
def maskedAt (mask b : Bytes) (pos : Nat) : Bytes :=
  mask.mapIdx fun i m => m &&& b.getD (pos + i) 0

@[simp] theorem maskedBits_length (kept : List Bool) (g : Bytes) (s : Nat) :
    (maskedBits kept g s).length = kept.length :=
  List.length_mapIdx

@[simp] theorem maskedAt_length (mask b : Bytes) (pos : Nat) : (maskedAt mask b pos).length = mask.length :=
  List.length_mapIdx

theorem maskedBits_append (kept kept' : List Bool) (g : Bytes) (s : Nat) :
    maskedBits (kept ++ kept') g s = maskedBits kept g s ++ maskedBits kept' g (s + kept.length) := by
  simp only [maskedBits, List.mapIdx_append, Nat.add_assoc, Nat.add_comm kept.length]

theorem maskedAt_append (mask mask' b : Bytes) (pos : Nat) :
    maskedAt (mask ++ mask') b pos = maskedAt mask b pos ++ maskedAt mask' b (pos + mask.length) := by
  simp only [maskedAt, List.mapIdx_append, Nat.add_assoc, Nat.add_comm mask.length]

/-- Reserved bits are written as 0 (R109). -/
theorem maskedBits_reserved (w : Nat) (g : Bytes) (s : Nat) :
    maskedBits (List.replicate w false) g s = putBits w 0 := by
  apply List.ext_getElem <;> simp [maskedBits, putBits]

/-- The bits of a field are those of its value. -/
theorem maskedBits_field (w : Nat) (g : Bytes) (s : Nat) :
    maskedBits (List.replicate w true) g s = putBits w (getBits g s w) := by
  refine List.ext_getElem (by simp) fun i hi _ => ?_
  have inside : i < w := by simpa using hi
  simp [maskedBits, putBits, testBit_getBits inside]

/-- Reserved bytes are written as 0 (R109). -/
theorem maskedAt_reserved (k : Nat) (b : Bytes) (pos : Nat) :
    maskedAt (List.replicate k 0) b pos = memWrite k 0 := by
  rw [memWrite_zero]
  apply List.ext_getElem <;> simp [maskedAt]

/-- Bytes with no reserved bit are those of `b`. -/
theorem maskedAt_kept {k : Nat} {b : Bytes} {pos : Nat} (inside : pos + k ≤ b.length) :
    maskedAt (List.replicate k 0xFF) b pos = slice b pos k := by
  refine List.ext_getElem (by simp [slice_length inside]) fun i hi _ => ?_
  have below : i < k := by simpa using hi
  have ones : ∀ x : Byte, 255#8 &&& x = x := fun x => BitVec.allOnes_and
  simp [maskedAt, slice, ones, List.getElem?_eq_getElem (show pos + i < b.length by omega)]

/-- The bits of a group, packed, are its bytes under the packed mask. -/
theorem bitsToBytes_maskedBits (kept : List Bool) (g : Bytes) :
    bitsToBytes (maskedBits kept g 0) = maskedAt (bitsToBytes kept) g 0 := by
  refine List.ext_getElem (by simp) fun n _ _ => BitVec.eq_of_getMsbD_eq fun i hi => ?_
  have byte : (8 * n + i) / 8 = n := by omega
  have bit : (8 * n + i) % 8 = i := by omega
  simp only [bitsToBytes, maskedAt, List.getElem_map, List.getElem_range, List.getElem_mapIdx,
    BitVec.getMsbD_and, byteOfBits_getMsbD _ n hi, Nat.zero_add]
  simp only [maskedBits, List.getD_eq_getElem?_getD, List.getElem?_mapIdx, Nat.zero_add, bitAt, byte, bit]
  cases kept[8 * n + i]? <;> simp

/-- The bytes of a slice under a mask that goes as far. -/
theorem maskedAt_slice {mask : Bytes} {k : Nat} (size : mask.length = k) (b : Bytes) (pos : Nat) :
    maskedAt mask (slice b pos k) 0 = maskedAt mask b pos := by
  refine List.ext_getElem (by simp) fun i hi _ => ?_
  have below : i < k := by simpa [size] using hi
  simp [maskedAt, slice, below]

/-! ## Re-encoding -/

/-- What a decoder gives is encoded to the bytes it was read from, under the mask of its bits that are not reserved. -/
def Reencodes {α : Type} (mask : Bytes) (enc : α → Option Bytes) (b : Bytes) (pos : Nat) :
    Except Error (α × Nat) → Prop
  | .ok (v, p) => p = pos + mask.length ∧ enc v = some (maskedAt mask b pos)
  | .error _ => True

/-- A decoder whose value is rewritten. -/
theorem Reencodes.map {α β : Type} {mask b : Bytes} {encA : α → Option Bytes} {encB : β → Option Bytes} {pos : Nat}
    {r : Except Error (α × Nat)} (g : α → β) (h : Reencodes mask encA b pos r) (hg : ∀ x, encB (g x) = encA x) :
    Reencodes mask encB b pos (r.map fun x => (g x.1, x.2)) := by
  match r, h with
  | .ok (x, p), ⟨cursor, enc⟩ => exact ⟨cursor, (hg x).trans enc⟩
  | .error e, _ => trivial

/-- One decoder and then another, their values put together where their bytes are. -/
theorem Reencodes.andThen {α β γ : Type} {mask mask' b : Bytes} {encA : α → Option Bytes} {encB : β → Option Bytes}
    {encC : γ → Option Bytes} {pos : Nat} {r : Except Error (α × Nat)} {tail : Nat → Except Error (β × Nat)}
    (g : α → β → γ) (h : Reencodes mask encA b pos r)
    (ht : Reencodes mask' encB b (pos + mask.length) (tail (pos + mask.length)))
    (hg : ∀ x p y ex ey, r = .ok (x, p) → encA x = some ex → encB y = some ey → encC (g x y) = some (ex ++ ey)) :
    Reencodes (mask ++ mask') encC b pos (r >>= fun x => tail x.2 >>= fun y => .ok (g x.1 y.1, y.2)) := by
  match r, h with
  | .ok (x, p), ⟨cursor, enc⟩ =>
    subst cursor
    show Reencodes _ _ b pos (tail (pos + mask.length) >>= _)
    match tail (pos + mask.length), ht with
    | .ok (y, q), ⟨cursor', enc'⟩ =>
      refine ⟨by rw [List.length_append, cursor', Nat.add_assoc], ?_⟩
      rw [maskedAt_append]
      exact hg x _ y _ _ rfl enc enc'
    | .error e, _ => trivial
  | .error e, _ => trivial

/-! ## Item by item -/

theorem exists_of_map_eq_ok {α β : Type} {f : α → β} {r : Except Error α} {y : β} (h : r.map f = .ok y) :
    ∃ x, r = .ok x ∧ f x = y := by
  match r, h with
  | .ok x, h => exact ⟨x, rfl, by simpa [Except.map] using h⟩

/-- The values of a group are encoded to its bits, the reserved ones cleared. -/
theorem encodeBits_of_decodeBits {c : Config} {g : Bytes} {path : FieldPath} {gs : List (FieldName × BitItem)}
    {s : Nat} {vs : List BitValue} (decoded : decodeBits c g path gs s = .ok vs) :
    encodeBits gs vs = some (maskedBits (keptBits gs) g s) := by
  induction gs generalizing s vs with
  | nil =>
    cases decoded
    rfl
  | cons it gs ih =>
    obtain ⟨n, it⟩ := it
    cases it with
    | rb w =>
      simp [encodeBits, ih decoded, keptBits, maskedBits_append, maskedBits_reserved]
    | ub w =>
      obtain ⟨vs, rest, rfl⟩ := exists_of_map_eq_ok decoded
      simp [encodeBits, ih rest, keptBits, maskedBits_append, maskedBits_field]
    | eb e w =>
      simp only [decodeBits] at decoded
      split_ifs at decoded
      obtain ⟨vs, rest, rfl⟩ := exists_of_map_eq_ok decoded
      simp [encodeBits, ih rest, keptBits, maskedBits_append, maskedBits_field]

theorem keptBits_length (gs : List (FieldName × BitItem)) : (keptBits gs).length = groupBits gs := by
  induction gs with
  | nil => rfl
  | cons it gs ih =>
    obtain ⟨n, it⟩ := it
    cases it <;> simp [keptBits, groupBits, BitItem.width, ih]

/-- A leaf item's mask goes as far as the item: the bits of a group fill its bytes. -/
theorem leafMask_length {c : Config} {it : LeafItem} (ok : it.ok c = true) : (leafMask it).length = it.size := by
  cases it with
  | bits gs =>
    simp only [LeafItem.ok, Bool.and_eq_true, beq_iff_eq] at ok
    simp only [leafMask, bitsToBytes_length, keptBits_length, LeafItem.size]
    omega
  | _ => simp [leafMask, LeafItem.size]

theorem decodeLeaf_bits {c : Config} {b : Bytes} {gs : List (FieldName × BitItem)} {pos : Nat} {path : FieldPath}
    (inside : pos + groupBits gs / 8 ≤ b.length) :
    decodeLeaf c b (.bits gs) pos path =
      (decodeBits c (slice b pos (groupBits gs / 8)) path gs 0).map fun vs =>
        (.group vs, pos + groupBits gs / 8) := by
  simp only [decodeLeaf, need_ok inside]
  cases decodeBits c (slice b pos (groupBits gs / 8)) path gs 0 <;> rfl

theorem leaf_reencodes {c : Config} {it : LeafItem} (ok : it.ok c = true) (b : Bytes) (pos : Nat)
    (path : FieldPath) : Reencodes (leafMask it) (encodeLeaf it) b pos (decodeLeaf c b it pos path) := by
  have size := leafMask_length ok
  rcases Nat.lt_or_ge b.length (pos + it.size) with short | inside
  · rw [decodeLeaf_of_short short]
    trivial
  -- the items without reserved bits are written as the bytes they were read from
  have word : ∀ {k}, pos + k ≤ b.length →
      memWrite k (memRead b pos k) = maskedAt (List.replicate k 0xFF) b pos := fun inside => by
    rw [memWrite_memRead inside, maskedAt_kept inside]
  cases it with
  | u k =>
    rw [decodeLeaf_u (k := k) inside]
    exact ⟨congrArg (pos + ·) size.symm, congrArg some (word inside)⟩
  | i k =>
    have small : memRead b pos k < 2 ^ (8 * k) := by
      rw [pow_mul]
      exact memRead_lt inside
    rw [decodeLeaf_i (k := k) inside]
    refine ⟨congrArg (pos + ·) size.symm, ?_⟩
    rw [encodeLeaf, rawOfSigned_signedOf small]
    exact congrArg some (word inside)
  | enum e k =>
    rw [decodeLeaf_enum (k := k) inside]
    split
    · exact ⟨congrArg (pos + ·) size.symm, congrArg some (word inside)⟩
    · trivial
  | bits gs =>
    rw [decodeLeaf_bits inside]
    cases decoded : decodeBits c (slice b pos (groupBits gs / 8)) path gs 0 with
    | error e => trivial
    | ok vs =>
      refine ⟨congrArg (pos + ·) size.symm, ?_⟩
      rw [encodeLeaf, encodeBits_of_decodeBits decoded, Option.map_some, bitsToBytes_maskedBits]
      exact congrArg some (maskedAt_slice size b pos)

theorem array_reencodes {α : Type} {mask b : Bytes} {enc : α → Option Bytes}
    {dec : Nat → FieldPath → Except Error (α × Nat)} (h : ∀ pos path, Reencodes mask enc b pos (dec pos path))
    (path : FieldPath) (n j pos : Nat) :
    Reencodes (List.replicate n mask).flatten (encodeArray enc) b pos (decodeArray dec path n j pos) := by
  induction n generalizing j pos with
  | zero => exact ⟨rfl, rfl⟩
  | succ n ih =>
    refine (h pos (path ++ [.index j])).andThen (tail := decodeArray dec path n (j + 1)) (· :: ·)
      (ih (j + 1) (pos + mask.length)) fun x p xs ex exs _ first rest => ?_
    simp [encodeArray, first, rest]

/-- The value of the first item, absent where it is reserved, is encoded before those of the other items. -/
theorem encodeItems_cons {ι α : Type} {reserved : ι → Bool} {enc : ι → Option α → Option Bytes} {n : FieldName}
    {it : ι} {items : List (FieldName × ι)} {v : Option α} {vs : List α} {e es : Bytes}
    (absent : v.isNone = reserved it) (first : enc it v = some e) (rest : encodeItems reserved enc items vs = some es) :
    encodeItems reserved enc ((n, it) :: items) (v.toList ++ vs) = some (e ++ es) := by
  cases v <;> simp [encodeItems, ← absent, first, rest]

theorem items_reencode {ι α : Type} {reserved : ι → Bool} {enc : ι → Option α → Option Bytes} {mask : ι → Bytes}
    {size : ι → Nat} {b : Bytes} {dec : ι → Nat → FieldPath → Except Error (Option α × Nat)}
    {items : List (FieldName × ι)} (moves : ∀ it, MovesBy (size it) (reserved it) (dec it))
    (h : ∀ it ∈ items, ∀ pos path, Reencodes (mask it.2) (enc it.2) b pos (dec it.2 pos path)) (path : FieldPath)
    (pos : Nat) :
    Reencodes (items.flatMap fun it => mask it.2) (encodeItems reserved enc items) b pos
      (decodeItems dec path items pos) := by
  induction items generalizing pos with
  | nil => exact ⟨rfl, rfl⟩
  | cons it items ih =>
    obtain ⟨n, it⟩ := it
    refine (h (n, it) (by simp) pos (path ++ [.name n])).andThen (tail := decodeItems dec path items)
      (fun v vs => v.toList ++ vs) (ih (fun it' mem => h it' (List.mem_cons_of_mem _ mem)) _)
      fun v p vs e es decoded first rest => ?_
    exact encodeItems_cons (moves it _ _ _ _ decoded).2 first rest

theorem plain_reencodes {c : Config} {it : PlainItem} (ok : it.ok c = true) (b : Bytes) (pos : Nat)
    (path : FieldPath) : Reencodes (plainMask it) (encodePlain it) b pos (decodePlain c b it pos path) := by
  cases it with
  | leaf it => exact (leaf_reencodes ok b pos path).map (fun v => some (PlainValue.leaf v)) fun v => rfl
  | rsv k =>
    rcases need_cases b pos k with ⟨-, present⟩ | ⟨-, missing⟩
    · simp only [decodePlain, present]
      exact ⟨by simp [plainMask], congrArg some (maskedAt_reserved k b pos).symm⟩
    · simp only [decodePlain, missing]
      trivial
  | arr e n =>
    simp only [PlainItem.ok, Bool.and_eq_true] at ok
    exact (array_reencodes (leaf_reencodes ok.1 b) path n 0 pos).map (fun xs => some (PlainValue.list xs)) fun xs => rfl

theorem figure_reencodes {c : Config} (hc : c.legal = true) (b : Bytes) (pos : Nat) (path : FieldPath) :
    Reencodes (figureMask c) (encodeFigure c) b pos (decodeFigure c b pos path) := by
  have legal := legal_figureOk hc
  simp only [Config.figureOk, itemsOk, Bool.and_eq_true, List.all_eq_true] at legal
  obtain ⟨⟨ok, -⟩, -⟩ := legal
  exact items_reencode (decodePlain_movesBy c b) (fun it mem => plain_reencodes (ok it mem) b) path pos

theorem item_reencodes {c : Config} (hc : c.legal = true) {it : Item} (ok : it.ok c = true) (b : Bytes) (pos : Nat)
    (path : FieldPath) : Reencodes (itemMask c it) (encodeItem c it) b pos (decodeItem c b it pos path) := by
  cases it with
  | plain it => exact (plain_reencodes ok b pos path).map (Option.map Value.plain) fun v => by cases v <;> rfl
  | figure => exact (figure_reencodes hc b pos path).map (fun vs => some (Value.record vs)) fun vs => rfl
  | figures n =>
    exact (array_reencodes (figure_reencodes hc b) path n 0 pos).map (fun xs => some (Value.records xs)) fun xs => rfl

theorem body_reencodes {c : Config} (hc : c.legal = true) {items : List (FieldName × Item)}
    (ok : ∀ it ∈ items, it.2.ok c = true) (b : Bytes) :
    Reencodes (items.flatMap fun it => itemMask c it.2) (encodeItems itemReserved (encodeItem c) items) b 0
      (decodeBody c items b) :=
  items_reencode (decodeItem_movesBy hc b) (fun it mem => item_reencodes hc (ok it mem) b) [] 0

/-! ## Whole payloads -/

section
variable {c : Config} {b : Bytes} {declared : U16} {v : Variant}

/-- A fixed-size body that is answered is decoded to its end. -/
theorem decodeBody_of_decodeFixed (hc : c.legal = true) {items : List (FieldName × Item)}
    (ok : ∀ it ∈ items, it.2.ok c = true) {tag : U16} (decoded : decodeFixed c items tag b = .ok v) :
    decodeBody c items b = .ok (v.values, b.length) := by
  rcases decodeBody_cases hc ok b with ⟨vals, body, inside, -⟩ | ⟨body, -⟩ | ⟨field, raw, body⟩
  · rw [decodeFixed_of_ok tag body] at decoded
    split_ifs at decoded with longer
    cases decoded
    rw [body, Nat.le_antisymm inside (Nat.not_lt.mp longer)]
  · rw [decodeFixed_of_error tag body] at decoded
    cases decoded
  · rw [decodeFixed_of_error tag body] at decoded
    cases decoded

/-- A body of RID that is answered is its items and then its tail. -/
theorem decodeBody_of_decodeRid (hc : c.legal = true) (decoded : decodeRid c b declared = .ok v) :
    ridPrefixLen ≤ b.length ∧ ∃ front, decodeBody c ridItems b = .ok (front, ridPrefixLen) ∧
      fitsItems itemReserved (fitsItem c) ridItems front = true ∧
      v.values = front ++ [.bytes (b.drop ridPrefixLen)] := by
  rcases Nat.lt_or_ge declared.toNat ridPrefixLen with under | long
  · rw [decodeRid, if_pos under] at decoded
    cases decoded
  rcases decodeBody_cases hc (ridItems_ok hc) b with ⟨front, body, inside, fits⟩ | ⟨body, -⟩ | ⟨field, raw, body⟩
  · rw [decodeRid_of_ok long body] at decoded
    split_ifs at decoded with missing left
    cases decoded
    exact ⟨inside, front, body, fits, rfl⟩
  · rw [decodeRid_of_error long body] at decoded
    cases decoded
  · rw [decodeRid_of_error long body] at decoded
    cases decoded

/-- The fixed-size body under its layout's mask is its body cleared (R111). -/
theorem maskedAt_eq_clearReserved {items : List (FieldName × Item)}
    (whole : b.length = (items.flatMap fun it => itemMask c it.2).length) :
    maskedAt (items.flatMap fun it => itemMask c it.2) b 0 = clearReserved c (.fixed items) b := by
  refine List.ext_getElem (by simp [clearReserved, whole]) fun i hi _ => ?_
  have inside : i < b.length := by simpa [whole] using hi
  simp [maskedAt, clearReserved, inside]

/-- The values of a body are encoded to that body, its reserved fields cleared, in as many bytes (R111). -/
theorem encodeBody_of_payloadDecode (hc : c.legal = true) {tag : U16} {layout : Layout}
    (known : c.layoutOf tag = some layout) (decoded : payloadDecode c tag b declared = .ok v) :
    encodeBody c layout v.values = some (clearReserved c layout b) ∧ (clearReserved c layout b).length = b.length := by
  cases layout with
  | fixed items =>
    have ok := layoutOf_fixed_ok hc known
    rw [payloadDecode_of_fixed known] at decoded
    have back := body_reencodes hc ok b
    rw [decodeBody_of_decodeFixed hc ok decoded] at back
    obtain ⟨whole, enc⟩ := back
    rw [Nat.zero_add] at whole
    rw [← maskedAt_eq_clearReserved whole, maskedAt_length, whole]
    exact ⟨enc, rfl⟩
  | rid =>
    obtain rfl := layoutOf_rid.mp known
    rw [payloadDecode_tagRid] at decoded
    obtain ⟨six, front, body, fits, values⟩ := decodeBody_of_decodeRid hc decoded
    have back := body_reencodes hc (ridItems_ok hc) b
    rw [body] at back
    obtain ⟨-, enc⟩ := back
    have noReserved : (ridItems.flatMap fun it => itemMask c it.2) = List.replicate ridPrefixLen 0xFF := rfl
    rw [noReserved, maskedAt_kept (by omega)] at enc
    refine ⟨?_, rfl⟩
    rw [values, encodeBody_rid fits, enc, Option.map_some, slice, List.drop_zero, List.take_append_drop]
    rfl

/-- What PAY_ENCODE answers of a decoded variant: the tag it was decoded under, and the body it was decoded from with
its reserved fields cleared (R111). -/
theorem payloadBytes_of_payloadDecode (hc : c.legal = true) {tag : U16} {layout : Layout}
    (known : c.layoutOf tag = some layout) (decoded : payloadDecode c tag b declared = .ok v) :
    v.tag = tag ∧ payloadBytes c v = .ok ([lo8 tag, hi8 tag] ++ clearReserved c layout b) := by
  obtain ⟨enc, -⟩ := encodeBody_of_payloadDecode hc known decoded
  rcases payloadDecode_cases hc known b declared with ⟨vals, decoded', fits⟩ | ⟨e, failed, -⟩
  · rw [decoded'] at decoded
    cases decoded
    have ok : variantOk c { tag := tag, values := vals } = true := variantOk_iff.mpr ⟨layout, known, fits⟩
    exact ⟨rfl, by rw [payloadBytes_of_encodeBody ok known enc, memWrite_u16]⟩
  · rw [failed] at decoded
    cases decoded

/-- A tag under which a body is decoded has a layout. -/
theorem layoutOf_of_payloadDecode {tag : U16} (decoded : payloadDecode c tag b declared = .ok v) :
    ∃ layout, c.layoutOf tag = some layout := by
  by_contra unknown
  have unknown : tag ∉ c.tags := fun mem => unknown (Option.isSome_iff_exists.mp (layoutOf_isSome.mpr mem))
  rw [payloadDecode_of_unknown unknown] at decoded
  cases decoded

end

end Sys2Proof.Machine
end

section
/-! The invariants of answered frames: what a decoded frame's payload is encoded to, and which bytes its tail is over
(`43_frame.md` rule R120). -/

namespace Sys2Proof.Machine

/-- The bytes of a frame before its tail, in a buffer that begins with it. -/
theorem take_frameBytes (f : Frame) (tag : U16) (body rest : Bytes) :
    (frameBytes f tag body ++ rest).take (body.length + 7) = frameFront f.header (lo8 tag) (hi8 tag) body := by
  rw [frameBytes, List.append_assoc]
  exact List.take_left' (frameFront_length ..)

/-- The body of a frame, in a buffer that begins with it. -/
theorem slice_frameBytes (f : Frame) (tag : U16) (body rest : Bytes) :
    slice (frameBytes f tag body ++ rest) 7 body.length = body := by
  have middle := slice_middle (headerBytes f.header ++ [lo8 tag, hi8 tag]) body ([lo8 f.tail, hi8 f.tail] ++ rest)
  rw [List.length_append, headerBytes_length] at middle
  simpa [frameBytes, frameFront] using middle

/-- A decoded frame's payload is encoded to its tag and as many bytes as it was read from, with the reserved fields
cleared; where they were clear, the tail is over the re-encoding too. -/
theorem ReadFrom.reencodes {c : Config} (hc : c.legal = true) {f : Frame} {tag : U16} {body : Bytes}
    (read : ReadFrom c f tag body) :
    ∃ layout p, c.layoutOf f.payload.tag = some layout ∧ payloadBytes c f.payload = .ok p ∧
      f.header.payloadLength.toNat = p.length - 2 ∧
      (clearReserved c layout body = body → f.tail = crc16 (headerBytes f.header ++ p)) := by
  obtain ⟨layout, known⟩ := layoutOf_of_payloadDecode read.payload
  obtain ⟨-, length⟩ := encodeBody_of_payloadDecode hc known read.payload
  obtain ⟨sameTag, written⟩ := payloadBytes_of_payloadDecode hc known read.payload
  refine ⟨layout, _, sameTag ▸ known, written, ?_, fun clear => ?_⟩
  · simp [length, read.size]
  · rw [clear, read.tail, frameFront, List.append_assoc]

/-- Settles O36: a built frame is the consistent one, and a decoded frame is read from the bytes it begins with. -/
theorem answeredFramesKeepTheirInvariants : Obligations.AnsweredFramesKeepTheirInvariants := by
  refine fun s => ⟨fun sequence v f built => ?_, fun bytes f consumed decoded => ?_⟩
  · rw [answers_frameBuild] at built
    obtain ⟨p, written, fits, rfl⟩ := frameBuild_eq_ok_iff.mp built
    exact ⟨p, written, consistentFrame_payloadLength fits, rfl, rfl⟩
  · rw [answers_frameDecode] at decoded
    obtain ⟨rfl, tag, body, rest, read, rfl⟩ := frameDecode_eq_ok_iff.mp decoded
    obtain ⟨layout, p, known, written, length, reencoded⟩ := read.reencodes s.config.legal
    have range := f.header.payloadLength.isLt
    refine ⟨p, written, length, read.consistent, Nat.mod_eq_of_lt (by omega), ?_, fun layout' known' clear => ?_⟩
    · rw [← read.size, take_frameBytes, read.tail]
    · rw [known, Option.some.injEq] at known'
      rw [← read.size, slice_frameBytes, ← known'] at clear
      exact reencoded clear

end Sys2Proof.Machine
end

section
/-! The nested dispatcher: what IX_DISPATCH reads of a RID variant, which variant a sub-tag selects, and when its
data are interpreted (`44_interaction.md` rules R123 to R128). -/

namespace Sys2Proof.Machine

/-! ## The operation -/

theorem answers_ixDispatch (s : State) (rid : Variant) (x : Interaction) :
    s.answers (.ixDispatch rid) (.interaction x) ↔ ixDispatch s.config.config rid = .ok x := by
  rw [answers_outcome, outcome]
  cases ixDispatch s.config.config rid <;> simp [Except.map]

theorem raises_ixDispatch (s : State) (rid : Variant) (e : Error) :
    s.raises (.ixDispatch rid) e ↔ ixDispatch s.config.config rid = .error e := by
  rw [raises_outcome, outcome]
  cases ixDispatch s.config.config rid <;> simp [Except.map]

/-! ## The operands -/

/-- The value of a leaf item is a leaf value of its shape. -/
theorem fitsItem_leaf {c : Config} {it : LeafItem} {v : Value} (h : fitsItem c (.plain (.leaf it)) (some v) = true) :
    ∃ x, v = .plain (.leaf x) ∧ fitsLeaf c it x = true := by
  cases v with
  | plain v =>
    cases v with
    | leaf x => exact ⟨x, rfl, h⟩
    | list xs => cases h
  | record fields => cases h
  | records figures => cases h
  | bytes d => cases h

/-- The value of an unsigned item is a number of its width. -/
theorem fitsLeaf_u {c : Config} {k : Nat} {v : LeafValue} (h : fitsLeaf c (.u k) v = true) :
    ∃ x : BitVec (8 * k), v = .int x.toNat := by
  cases v with
  | int v =>
    simp only [fitsLeaf, inUnsigned, Bool.and_eq_true, decide_eq_true_eq] at h
    obtain ⟨natural, small⟩ := h
    lift v to Nat using natural
    exact ⟨BitVec.ofNatLT v (by exact_mod_cast small), rfl⟩
  | enum e raw => cases h
  | group fields => cases h

theorem fitsLeaf_enum {c : Config} {e : EnumName} {k : Nat} {v : LeafValue} (h : fitsLeaf c (.enum e k) v = true) :
    ∃ raw, v = .enum e raw := by
  cases v with
  | int v => cases h
  | enum e' raw =>
    simp only [fitsLeaf, Bool.and_eq_true, beq_iff_eq] at h
    exact ⟨raw, by rw [h.1]⟩
  | group fields => cases h

/-- Every well-formed variant with `TAG_RID` is written as `ridVariant` (R123). -/
theorem exists_ridVariant {c : Config} {v : Variant} (tag : v.tag = c.tagRid) (ok : variantOk c v = true) :
    ∃ subtag sender receiver data, v = ridVariant c subtag sender receiver data := by
  obtain ⟨t, vals⟩ := v
  obtain rfl : t = c.tagRid := tag
  obtain ⟨layout, known, fits⟩ := variantOk_iff.mp ok
  obtain rfl : layout = .rid := by simpa [layoutOf_rid.mpr rfl] using known.symm
  obtain ⟨front, data, rfl, fits, -⟩ := fitsLayout_rid_iff.mp fits
  obtain ⟨subtag, sender, receiver, rfl⟩ := fits_ridItems fits
  simp only [ridItems, fitsItems, itemReserved, plainReserved, Bool.false_eq_true, if_false, Bool.and_eq_true,
    and_true] at fits
  obtain ⟨subtagFits, senderFits, receiverFits⟩ := fits
  obtain ⟨_, rfl, subtagFits⟩ := fitsItem_leaf subtagFits
  obtain ⟨_, rfl, senderFits⟩ := fitsItem_leaf senderFits
  obtain ⟨_, rfl, receiverFits⟩ := fitsItem_leaf receiverFits
  obtain ⟨subtag, rfl⟩ := fitsLeaf_u subtagFits
  obtain ⟨sender, rfl⟩ := fitsLeaf_enum senderFits
  obtain ⟨receiver, rfl⟩ := fitsLeaf_enum receiverFits
  exact ⟨subtag, sender, receiver, data, rfl⟩

/-- What the dispatcher answers for a sub-tag and its data; the sender and the receiver are no operands of it. -/
def interactionFor (c : Config) (subtag : U16) (data : Bytes) : Interaction :=
  if c.inR2r subtag then .robotToRobot data else (ixVariantOf c subtag).elim .none fun v => interpret c v data

theorem ixDispatch_ridVariant {c : Config} {subtag : U16} {sender receiver : Nat} {data : Bytes}
    (ok : variantOk c (ridVariant c subtag sender receiver data) = true) :
    ixDispatch c (ridVariant c subtag sender receiver data) = .ok (interactionFor c subtag data) := by
  have reads : ridOperands c (ridVariant c subtag sender receiver data) = some (subtag, data) := by
    rw [ridOperands, if_pos ⟨rfl, ok⟩]
    simp [ridVariant]
  simp only [ixDispatch, reads, interactionFor]
  cases c.inR2r subtag with
  | true => rfl
  | false => cases ixVariantOf c subtag <;> rfl

theorem ixDispatch_of_not_rid {c : Config} {v : Variant} (bad : ¬ (v.tag = c.tagRid ∧ variantOk c v = true)) :
    ixDispatch c v = .error .contractViolation := by
  simp only [ixDispatch, ridOperands, if_neg bad]

/-! ## The sub-tag (`30_encoding.md` rule R63 item 7) -/

/-- Every variant is in the list that R63 item 7 speaks of. -/
theorem mem_ixVariant_all (v : IxVariant) : v ∈ IxVariant.all := by
  cases v <;> decide

section
variable {c : Config} (hc : c.legal = true)
include hc

theorem legal_subtagsOk : c.subtagsOk = true := by
  simp only [Config.legal, Config.wellFormed, Bool.and_eq_true] at hc
  tauto

theorem subtagOf_injective : Function.Injective c.subtagOf := by
  have ok := legal_subtagsOk hc
  simp only [Config.subtagsOk, Bool.and_eq_true, decide_eq_true_eq] at ok
  exact fun v v' same => List.inj_on_of_nodup_map ok.1 (mem_ixVariant_all v) (mem_ixVariant_all v') same

theorem inR2r_subtagOf (v : IxVariant) : c.inR2r (c.subtagOf v) = false := by
  have ok := legal_subtagsOk hc
  simp only [Config.subtagsOk, Bool.and_eq_true, List.all_eq_true, Bool.not_eq_true'] at ok
  exact ok.2 v (mem_ixVariant_all v)

/-- A mapped sub-tag selects its variant, the only one it can. -/
theorem ixVariantOf_subtagOf (v : IxVariant) : ixVariantOf c (c.subtagOf v) = some v := by
  have found : (ixVariantOf c (c.subtagOf v)).isSome := by
    rw [ixVariantOf, List.find?_isSome]
    exact ⟨v, mem_ixVariant_all v, beq_self_eq_true _⟩
  obtain ⟨v', selected⟩ := Option.isSome_iff_exists.mp found
  have same : c.subtagOf v' = c.subtagOf v := by simpa using List.find?_some selected
  rw [selected, subtagOf_injective hc same]

theorem interactionFor_subtagOf (v : IxVariant) (data : Bytes) :
    interactionFor c (c.subtagOf v) data = interpret c v data := by
  rw [interactionFor, inR2r_subtagOf hc, ixVariantOf_subtagOf hc]
  rfl

end

theorem interactionFor_of_inR2r {c : Config} {subtag : U16} (inside : c.inR2r subtag = true) (data : Bytes) :
    interactionFor c subtag data = .robotToRobot data :=
  if_pos inside

theorem interactionFor_of_unmapped {c : Config} {subtag : U16} (outside : c.inR2r subtag = false)
    (unmapped : ∀ v, c.subtagOf v ≠ subtag) (data : Bytes) : interactionFor c subtag data = .none := by
  have selects : ixVariantOf c subtag = none := List.find?_eq_none.mpr fun v _ => by simp [unmapped v]
  rw [interactionFor, outside, selects]
  rfl

/-! ## The data -/

theorem interpret_of_error {c : Config} {v : IxVariant} {data : Bytes} {e : Error}
    (failed : decodeBody c (c.ixLayout v) data = .error e) :
    interpret c v data = .none := by
  rw [interpret, failed, ite_self]

section
variable {c : Config} (hc : c.legal = true) {v : IxVariant} {data : Bytes}
include hc

theorem interpret_of_wrong_size (wrong : data.length ≠ ixSize v) : interpret c v data = .none := by
  rw [interpret, if_pos (by rwa [ixLayout_size hc])]

theorem interpret_of_ok (exact : data.length = ixSize v) {vals : List Value} {p : Nat}
    (decoded : decodeBody c (c.ixLayout v) data = .ok (vals, p)) : interpret c v data = interactionOf v vals := by
  rw [interpret, if_neg (by rw [ixLayout_size hc]; exact not_not_intro exact), decoded]

/-- Data of the exact size decode to values of the layout's shape, all of them read, or hold an illegal value. -/
theorem decodeBody_ixLayout_cases (exact : data.length = ixSize v) :
    (∃ vals, decodeBody c (c.ixLayout v) data = .ok (vals, data.length) ∧
      fitsItems itemReserved (fitsItem c) (c.ixLayout v) vals = true) ∨
    ∃ field raw, decodeBody c (c.ixLayout v) data = .error (.invalidEnumValue field raw) := by
  have size : sizeOfItems Item.size (c.ixLayout v) = data.length := (ixLayout_size hc v).trans exact.symm
  rcases decodeBody_cases hc (ixLayout_ok hc v) data with ⟨vals, body, -, fits⟩ | ⟨-, short⟩ | illegal
  · exact .inl ⟨vals, size ▸ body, fits⟩
  · omega
  · exact .inr illegal

end

/-! ## The obligations -/

/-- Settles O39: a well-formed RID is a `ridVariant`, whose answer is a function of the sub-tag and the data. -/
theorem ixDispatchTakesExactlyWellFormedRid : Obligations.IxDispatchTakesExactlyWellFormedRid := by
  refine fun s rid => ⟨?_, fun bad => ?_, fun subtag sender receiver sender' receiver' data ok ok' => ?_⟩
  · rintro ⟨tag, ok⟩
    obtain ⟨subtag, sender, receiver, data, rfl⟩ := exists_ridVariant tag ok
    exact ⟨_, (answers_ixDispatch ..).mpr (ixDispatch_ridVariant ok)⟩
  · exact (raises_ixDispatch ..).mpr (ixDispatch_of_not_rid bad)
  · exact exec_congr (by rw [outcome, outcome, ixDispatch_ridVariant ok, ixDispatch_ridVariant ok'])

/-- Settles O40: the range comes before the mapped sub-tags, and none of those is in it. -/
theorem ixRobotToRobotPassesDataThrough : Obligations.IxRobotToRobotPassesDataThrough := by
  intro s subtag sender receiver data ok low high
  have inside : s.config.config.inR2r subtag = true := by simp [Config.inR2r, low, high]
  refine ⟨?_, ?_⟩
  · rw [answers_ixDispatch, ixDispatch_ridVariant ok, interactionFor_of_inR2r inside]
  · rintro v rfl
    simp [inR2r_subtagOf s.config.legal v] at inside

/-- Settles O41: the sub-tags are distinct, and the size is tested before the data are decoded. -/
theorem ixUnmappedOrWrongSizeGivesNone : Obligations.IxUnmappedOrWrongSizeGivesNone := by
  intro s subtag sender receiver data ok
  rw [answers_ixDispatch, ixDispatch_ridVariant ok, Except.ok.injEq]
  refine ⟨?_, fun outside unmapped => interactionFor_of_unmapped outside unmapped data, ?_⟩
  · rintro v v' rfl same
    exact subtagOf_injective s.config.legal same.symm
  · rintro v rfl wrong
    rw [interactionFor_subtagOf s.config.legal, interpret_of_wrong_size s.config.legal wrong]

/-- Settles O42: the answer follows the decode of the data, which is one of `decodeBody_ixLayout_cases`. -/
theorem ixInnerEnumFailureGivesNone : Obligations.IxInnerEnumFailureGivesNone := by
  intro s v sender receiver data ok exact
  have hc := s.config.legal
  simp only [answers_ixDispatch, ixDispatch_ridVariant ok, Except.ok.injEq, interactionFor_subtagOf hc]
  rcases decodeBody_ixLayout_cases hc exact with ⟨vals, body, fits⟩ | ⟨field, raw, body⟩
  · refine ⟨by rw [body]; nofun, fun vals' pos decoded => ?_⟩
    obtain ⟨rfl, rfl⟩ : vals = vals' ∧ data.length = pos := by simpa [body] using decoded
    exact ⟨rfl, interactionOf_ne_none fits, interpret_of_ok hc exact body⟩
  · refine ⟨fun e failed => ?_, by rw [body]; nofun⟩
    obtain rfl : .invalidEnumValue field raw = e := by simpa [body] using failed
    exact ⟨⟨field, raw, rfl⟩, interpret_of_error body⟩

end Sys2Proof.Machine
end

section
/-! Decoding where the bytes stand: bytes before an item move its cursor and do not change its value
(`42_payload.md` rule R93). -/

namespace Sys2Proof.Machine

/-! ## Bytes before -/

theorem slice_append_right (front b : Bytes) (off n : Nat) :
    slice (front ++ b) (front.length + off) n = slice b off n := by
  rw [slice, List.drop_length_add_append, slice]

theorem memRead_append_right (front b : Bytes) (off n : Nat) :
    memRead (front ++ b) (front.length + off) n = memRead b off n := by
  rw [memRead, memRead, slice_append_right]

/-- Where the decode `r` gives a value, `r'` gives it too, with the cursor `n` bytes further. -/
def Relocates {α : Type} (n : Nat) (r r' : Except Error (α × Nat)) : Prop :=
  ∀ x p, r = .ok (x, p) → r' = .ok (x, n + p)

theorem Relocates.ok {α : Type} (n : Nat) (x : α) (p : Nat) : Relocates n (.ok (x, p)) (.ok (x, n + p)) := by
  rintro _ _ ⟨⟩
  rfl

theorem Relocates.of_error {α : Type} {n : Nat} {e : Error} {r : Except Error (α × Nat)} :
    Relocates n (.error e) r :=
  nofun

theorem Relocates.map {α β : Type} {n : Nat} {r r' : Except Error (α × Nat)} (g : α → β)
    (h : Relocates n r r') :
    Relocates n (r.map fun x => (g x.1, x.2)) (r'.map fun x => (g x.1, x.2)) := by
  match r, h with
  | .error e, _ => exact .of_error
  | .ok (x, p), h =>
    rw [h x p rfl]
    exact .ok n (g x) p

theorem Relocates.bind {α β : Type} {n : Nat} {r r' : Except Error (α × Nat)}
    {f f' : α × Nat → Except Error (β × Nat)} (h : Relocates n r r')
    (hf : ∀ x p, Relocates n (f (x, p)) (f' (x, n + p))) : Relocates n (r >>= f) (r' >>= f') := by
  match r, h with
  | .error e, _ => exact .of_error
  | .ok (x, p), h =>
    rw [h x p rfl]
    exact hf x p

/-- The values of a group do not depend on its path; only an error names it. -/
theorem decodeBits_path {c : Config} {grp : Bytes} {path : FieldPath} {gs : List (FieldName × BitItem)} {s : Nat}
    {vs : List BitValue} (decoded : decodeBits c grp path gs s = .ok vs) (path' : FieldPath) :
    decodeBits c grp path' gs s = .ok vs := by
  induction gs generalizing s vs with
  | nil => exact decoded
  | cons g gs ih =>
    obtain ⟨n, g⟩ := g
    cases g with
    | ub w =>
      obtain ⟨vs', rest, rfl⟩ := exists_of_map_eq_ok decoded
      rw [decodeBits, ih rest]
      rfl
    | eb e w =>
      by_cases legal : c.enumLegal e (getBits grp s w) = true
      · rw [decodeBits, if_pos legal] at decoded ⊢
        obtain ⟨vs', rest, rfl⟩ := exists_of_map_eq_ok decoded
        rw [ih rest]
        rfl
      · rw [decodeBits, if_neg legal] at decoded
        cases decoded
    | rb w => exact ih decoded

theorem decodeLeaf_relocates (c : Config) (front b : Bytes) (it : LeafItem) (pos : Nat) (path path' : FieldPath) :
    Relocates front.length (decodeLeaf c b it pos path) (decodeLeaf c (front ++ b) it (front.length + pos) path') := by
  rcases Nat.lt_or_ge b.length (pos + it.size) with short | inside
  · rw [decodeLeaf_of_short short]
    exact .of_error
  have inside' : front.length + pos + it.size ≤ (front ++ b).length := by
    rw [List.length_append]
    omega
  cases it with
  | u k =>
    rw [decodeLeaf_u (k := k) inside, decodeLeaf_u (k := k) inside', memRead_append_right, Nat.add_assoc]
    exact .ok _ _ _
  | i k =>
    rw [decodeLeaf_i (k := k) inside, decodeLeaf_i (k := k) inside', memRead_append_right, Nat.add_assoc]
    exact .ok _ _ _
  | enum e k =>
    rw [decodeLeaf_enum (k := k) inside, decodeLeaf_enum (k := k) inside', memRead_append_right, Nat.add_assoc]
    split
    · exact .ok _ _ _
    · exact .of_error
  | bits gs =>
    rw [decodeLeaf_bits inside, decodeLeaf_bits inside', slice_append_right, Nat.add_assoc]
    intro v p decoded
    obtain ⟨vs, fields, ⟨⟩⟩ := exists_of_map_eq_ok decoded
    rw [decodeBits_path fields path']
    rfl

theorem decodeArray_relocates {α : Type} {n : Nat} {dec dec' : Nat → FieldPath → Except Error (α × Nat)}
    (h : ∀ pos path path', Relocates n (dec pos path) (dec' (n + pos) path')) (path path' : FieldPath)
    (count j pos : Nat) :
    Relocates n (decodeArray dec path count j pos) (decodeArray dec' path' count j (n + pos)) := by
  induction count generalizing j pos with
  | zero => exact .ok _ _ _
  | succ count ih => exact (h pos _ _).bind fun x p => (ih (j + 1) p).bind fun xs q => .ok _ _ _

theorem decodeItems_relocates {ι α : Type} {n : Nat}
    {dec dec' : ι → Nat → FieldPath → Except Error (Option α × Nat)}
    (h : ∀ it pos path path', Relocates n (dec it pos path) (dec' it (n + pos) path')) (path path' : FieldPath)
    (items : List (FieldName × ι)) (pos : Nat) :
    Relocates n (decodeItems dec path items pos) (decodeItems dec' path' items (n + pos)) := by
  induction items generalizing pos with
  | nil => exact .ok _ _ _
  | cons it items ih => exact (h it.2 pos _ _).bind fun v p => (ih p).bind fun vs q => .ok _ _ _

theorem decodePlain_relocates (c : Config) (front b : Bytes) (it : PlainItem) (pos : Nat) (path path' : FieldPath) :
    Relocates front.length (decodePlain c b it pos path) (decodePlain c (front ++ b) it (front.length + pos) path') := by
  cases it with
  | leaf it => exact (decodeLeaf_relocates c front b it pos path path').map fun v => some (PlainValue.leaf v)
  | rsv k =>
    rcases need_cases b pos k with ⟨inside, present⟩ | ⟨-, missing⟩
    · have present' : need (front ++ b) (front.length + pos) k = .ok () :=
        need_ok (by rw [List.length_append]; omega)
      rw [decodePlain, decodePlain, present, present', Nat.add_assoc]
      exact Relocates.ok front.length none (pos + k)
    · rw [decodePlain, missing]
      exact .of_error
  | arr e n =>
    exact (decodeArray_relocates (decodeLeaf_relocates c front b e) path path' n 0 pos).map
      fun xs => some (PlainValue.list xs)

theorem decodeFigure_relocates (c : Config) (front b : Bytes) (pos : Nat) (path path' : FieldPath) :
    Relocates front.length (decodeFigure c b pos path) (decodeFigure c (front ++ b) (front.length + pos) path') :=
  decodeItems_relocates (decodePlain_relocates c front b) path path' c.figureLayout pos

end Sys2Proof.Machine
end

section
/-! The answered interactions: the values of each variant's layout at their bytes and bits
(`44_interaction.md` rules R129 to R133). -/

namespace Sys2Proof.Machine

/-! ## Items one after the other -/

theorem decodeItems_cons_of_ok {ι α : Type} {dec : ι → Nat → FieldPath → Except Error (Option α × Nat)}
    {path : FieldPath} {n : FieldName} {it : ι} {items : List (FieldName × ι)} {pos p q : Nat} {v : Option α}
    {vs : List α} (first : dec it pos (path ++ [.name n]) = .ok (v, p))
    (rest : decodeItems dec path items p = .ok (vs, q)) :
    decodeItems dec path ((n, it) :: items) pos = .ok (v.toList ++ vs, q) := by
  simp only [decodeItems, first, bind, Except.bind, rest]

/-- A layout of one leaf item has the values of that item. -/
theorem decodeBody_leaf {c : Config} {n : FieldName} {it : LeafItem} {b : Bytes} {v : LeafValue} {p : Nat}
    (decoded : decodeLeaf c b it 0 [.name n] = .ok (v, p)) :
    decodeBody c [(n, .plain (.leaf it))] b = .ok ([.plain (.leaf v)], p) := by
  refine decodeItems_cons_of_ok (v := some (Value.plain (.leaf v))) ?_ rfl
  rw [decodeItem_leaf, List.nil_append, decoded]
  rfl

/-! ## Figures (R131) -/

/-- A figure record that decodes in its own bytes decodes where they stand in the data. -/
theorem decodeFigure_of_slice {c : Config} {data : Bytes} {off : Nat} {f : Fig} (inside : off ≤ data.length)
    (decoded : decodeFigure c (slice data off 15) 0 [] = .ok (f, 15)) (path : FieldPath) :
    decodeFigure c data off path = .ok (f, off + 15) := by
  have behind := decodeFigure_extends c (slice data off 15) ((data.drop off).drop 15) 0 []
  rw [decoded, slice, List.take_append_drop] at behind
  have moved := decodeFigure_relocates c (data.take off) (data.drop off) 0 [] path f 15 behind.ok
  rwa [List.take_append_drop, List.length_take_of_le inside] at moved

/-- Records that each decode at their 15 bytes are the values of the array of them, in order. -/
theorem decodeBody_figures {c : Config} (hc : c.legal = true) {data : Bytes} {figs : List Fig}
    (length : data.length = 15 * figs.length)
    (decoded : ∀ j f, figs[j]? = some f → decodeFigure c (slice data (15 * j) 15) 0 [] = .ok (f, 15)) :
    decodeBody c [("f", .figures figs.length)] data = .ok ([.records figs], figs.length * 15) := by
  have cursor : ∀ pos path f p, decodeFigure c data pos path = .ok (f, p) → p = pos + figureSize :=
    fun _ _ _ _ h => ((decodeFigure_ok_iff hc _ _ _ _ _).mp h).1
  have array : decodeArray (decodeFigure c data) [.name "f"] figs.length 0 0 = .ok (figs, 0 + figs.length * 15) := by
    refine (decodeArray_ok_iff cursor _ _ _ _ _ _).mpr ⟨rfl, rfl, fun j f hj => ?_⟩
    have before : j < figs.length := (List.getElem?_eq_some_iff.mp hj).1
    have record := decodeFigure_of_slice (by omega) (decoded j f hj) ([.name "f"] ++ [.index (0 + j)])
    rwa [show 0 + j * figureSize = 15 * j by rw [figureSize]; omega,
      show 0 + (j + 1) * figureSize = 15 * j + 15 by rw [figureSize]; omega]
  refine decodeItems_cons_of_ok (v := some (Value.records figs)) (p := figs.length * 15) ?_ rfl
  rw [decodeItem, List.nil_append, array, Nat.zero_add]
  rfl

/-! ## Raw bytes (R132) -/

theorem memRead_one {b : Bytes} {pos : Nat} (inside : pos < b.length) : memRead b pos 1 = b[pos].toNat := by
  rw [memRead, slice, List.drop_eq_getElem_cons inside]
  rfl

/-- An array of `u(1)` decodes to the numbers of the bytes it stands on. -/
theorem decodeArray_bytes (c : Config) {b : Bytes} {pos n : Nat} (inside : pos + n ≤ b.length) (path : FieldPath) :
    decodeArray (decodeLeaf c b (.u 1)) path n 0 pos =
      .ok ((slice b pos n).map fun x => .int x.toNat, pos + n) := by
  refine (decodeArray_ok_iff (size := 1) (fun _ _ _ _ h => decodeLeaf_cursor h) _ _ _ _ _ _).mpr
    ⟨by omega, by rw [List.length_map, slice_length inside], fun i x hi => ?_⟩
  obtain ⟨y, hy, rfl⟩ := Option.map_eq_some_iff.mp (List.getElem?_map ▸ hi)
  obtain ⟨before, rfl⟩ := List.getElem?_eq_some_iff.mp hy
  rw [slice_length inside] at before
  have value : memRead b (pos + i) 1 = (slice b pos n)[i].toNat := by
    rw [memRead_one (by omega)]
    simp [slice]
  rw [Nat.mul_one, Nat.mul_one, decodeLeaf_u (by omega), value, Nat.add_assoc]

theorem bytesOfLeaves_map (b : Bytes) : bytesOfLeaves (b.map fun x => .int x.toNat) = some b := by
  induction b with
  | nil => rfl
  | cons x xs ih => simp [bytesOfLeaves, ih]

theorem decodeBody_customChar {c : Config} {data : Bytes} {fig : Fig} (length : data.length = 45)
    (decoded : decodeFigure c (slice data 0 15) 0 [] = .ok (fig, 15)) :
    decodeBody c (c.ixLayout .customChar) data =
      .ok ([.record fig, .plain (.list ((slice data 15 30).map fun x => .int x.toNat))], 45) := by
  have figure := decodeFigure_of_slice (Nat.zero_le _) decoded [.name "fig"]
  have chars := decodeArray_bytes c (pos := 15) (n := 30) length.ge [.name "chars"]
  refine decodeItems_cons_of_ok (v := some (Value.record fig)) (p := 15) ?_
    (decodeItems_cons_of_ok (v := some (Value.plain (.list _))) (p := 45) (vs := []) ?_ rfl)
  · rw [decodeItem, List.nil_append, figure]
    rfl
  · rw [decodeItem, decodePlain, List.nil_append, chars]
    rfl

/-! ## Layer deletion (R133) -/

/-- Plain items decode to the same values as items of a command layout. -/
theorem decodeItems_plain (c : Config) (b : Bytes) (path : FieldPath) (items : List (FieldName × PlainItem))
    (pos : Nat) :
    decodeItems (decodeItem c b) path (items.map fun p => (p.1, .plain p.2)) pos =
      (decodeItems (decodePlain c b) path items pos).map fun r => (r.1.map .plain, r.2) := by
  induction items generalizing pos with
  | nil => rfl
  | cons it items ih =>
    simp only [List.map_cons, decodeItems, decodeItem]
    cases decodePlain c b it.2 pos (path ++ [.name it.1]) with
    | error e => rfl
    | ok r =>
      simp only [bind, Except.bind, Except.map, ih]
      cases decodeItems (decodePlain c b) path items r.2 with
      | error e => rfl
      | ok q => cases r.1 <;> rfl

/-! ## The sentry command (R129) -/

/-- Bit `q` of four bytes is bit `q` of the word they are, from the most significant bit. -/
theorem bitAt_word (b0 b1 b2 b3 : Byte) {q : Nat} (hq : q < 32) :
    bitAt [b0, b1, b2, b3] q = (b0 ++ b1 ++ b2 ++ b3).getMsbD q := by
  have place : q / 8 = 0 ∨ q / 8 = 1 ∨ q / 8 = 2 ∨ q / 8 = 3 := by omega
  have within : q % 8 = q - 8 * (q / 8) := by omega
  simp only [bitAt, BitVec.getMsbD_append]
  rcases place with byte | byte | byte | byte <;> rw [within, byte]
  · rw [if_neg (by omega), if_neg (by omega), if_neg (by omega)]
    rfl
  · rw [if_neg (by omega), if_neg (by omega), if_pos (by omega)]
    rfl
  · rw [if_neg (by omega), if_pos (by omega)]
    rfl
  · rw [if_pos (by omega)]
    rfl

/-- A field of four bytes is a slice of the word they are. -/
theorem ofInt_getBits_word (b0 b1 b2 b3 : Byte) {p w : Nat} (inside : p + w ≤ 32) :
    BitVec.ofInt w (getBits [b0, b1, b2, b3] p w) = (b0 ++ b1 ++ b2 ++ b3).extractLsb' (32 - p - w) w := by
  refine BitVec.eq_of_getLsbD_eq fun i hi => ?_
  have bit := testBit_getBits (g := [b0, b1, b2, b3]) (p := p) (show w - 1 - i < w by omega)
  rw [bitAt_word _ _ _ _ (by omega), show w - 1 - (w - 1 - i) = i by omega] at bit
  have fromRight : (b0 ++ b1 ++ b2 ++ b3).getMsbD (p + (w - 1 - i)) =
      (b0 ++ b1 ++ b2 ++ b3).getLsbD (32 - p - w + i) := by
    rw [BitVec.getMsbD, decide_eq_true (by omega), Bool.true_and]
    congr 1
    omega
  rw [BitVec.ofInt_natCast, BitVec.getLsbD_ofNat, bit, fromRight, BitVec.getLsbD_extractLsb']

theorem decodeBody_sentryLayout (c : Config) {g : Bytes} (length : g.length = 4) :
    decodeBody c sentryLayout g =
      .ok ([.plain (.leaf (.group [.int (getBits g 0 1), .int (getBits g 1 1), .int (getBits g 2 11),
        .int (getBits g 13 4), .int (getBits g 17 4)]))], 4) := by
  have whole : slice g 0 4 = g := List.take_of_length_le length.le
  refine decodeBody_leaf ?_
  rw [decodeLeaf_bits (by rw [length]; decide)]
  show (decodeBits c (slice g 0 4) _ _ 0).map _ = _
  rw [whole]
  rfl

/-! ## The radar command (R130) -/

theorem decodeBody_radarLayout (c : Config) (cmd : Byte) :
    decodeBody c radarLayout [cmd] = .ok ([.plain (.leaf (.int cmd.toNat))], 1) := by
  refine decodeBody_leaf ?_
  rw [decodeLeaf_u le_rfl, memRead_one Nat.one_pos]
  rfl

/-! ## The obligations -/

/-- Data of the exact size that decode under a mapped sub-tag are answered with their interpretation. -/
theorem answers_interactionOf {s : State} {v : IxVariant} {sender receiver : Nat} {data : Bytes} {vals : List Value}
    {p : Nat}
    (ok : variantOk s.config.config
      (ridVariant s.config.config (s.config.config.subtagOf v) sender receiver data) = true)
    (exact : data.length = ixSize v)
    (decoded : decodeBody s.config.config (s.config.config.ixLayout v) data = .ok (vals, p)) :
    s.answers (.ixDispatch (ridVariant s.config.config (s.config.config.subtagOf v) sender receiver data))
      (.interaction (interactionOf v vals)) := by
  rw [answers_ixDispatch, ixDispatch_ridVariant ok, interactionFor_subtagOf s.config.legal,
    interpret_of_ok s.config.legal exact decoded]

/-- Settles O43: the records, decoded where they stand, are the elements of the variant's one array. -/
theorem ixFigureBatchesAreAnsweredInOrder : Obligations.IxFigureBatchesAreAnsweredInOrder := by
  intro s v sender receiver data figs
  refine ⟨figureLayout_size s.config.legal, fun ok length records => ?_⟩
  have decoded := decodeBody_figures s.config.legal length records
  refine ⟨?_, ?_, ?_, ?_⟩
  · rintro f0 rfl rfl
    exact answers_interactionOf ok length decoded
  · rintro f0 f1 rfl rfl
    exact answers_interactionOf ok length decoded
  · rintro f0 f1 f2 f3 f4 rfl rfl
    exact answers_interactionOf ok length decoded
  · rintro f0 f1 f2 f3 f4 f5 f6 rfl rfl
    exact answers_interactionOf ok length decoded

/-- Settles O44: the layouts' values, and the 30 bytes that the numbers of the character stand for. -/
theorem ixCustomCharAndLayerDeleteAreAnswered : Obligations.IxCustomCharAndLayerDeleteAreAnswered := by
  refine fun s sender receiver data => ⟨fun fig ok length figure => ?_, fun vals pos ok length items => ?_⟩
  · have answered := answers_interactionOf (v := .customChar) ok length (decodeBody_customChar length figure)
    rwa [interactionOf, bytesOfLeaves_map] at answered
  · refine answers_interactionOf (v := .layerDelete) (p := pos) ok length ?_
    rw [Config.ixLayout, decodeBody, decodeItems_plain, items]
    rfl

/-- Settles O45: the five fields of the group, each a slice of the word its four bytes are. -/
theorem ixSentryFieldsAreAtTheirBits : Obligations.IxSentryFieldsAreAtTheirBits := by
  rintro s sender receiver b0 b1 b2 b3 x ok rfl
  have answered := answers_interactionOf (v := .sentryCmd) ok rfl (decodeBody_sentryLayout _ rfl)
  simp (disch := decide) only [interactionOf, ofInt_getBits_word] at answered
  exact answered

/-- Settles O46: the one unsigned byte of the radar layout. -/
theorem ixRadarCarriesItsByte : Obligations.IxRadarCarriesItsByte := by
  intro s sender receiver cmd ok
  have answered := answers_interactionOf (v := .radarCmd) ok rfl (decodeBody_radarLayout _ cmd)
  rwa [interactionOf, BitVec.ofInt_natCast, BitVec.ofNat_toNat, BitVec.setWidth_eq] at answered

end Sys2Proof.Machine
end

section
/-! Noninterference: a pending request and the configuration alone decide what the step does (`70_reset_and_hazards.md`
rules R152, R154). -/

namespace Sys2Proof.Machine

/-! ## A step with a request pending -/

/-- All that a step can do with the request `r` pending under the configuration `c`. The response is chosen before the
state, so the old response register has no part in it. -/
theorem step_pending_cases (c : CheckedConfig) (r : Request) :
    (∃ x, ∀ s : State, s.config = c → s.request = some r → step s = .next (s.respond x)) ∨
      (∀ s : State, s.request = some r → step s = .refused (.illTypedOperands r.op)) := by
  cases decoded : decode r with
  | ok i =>
    refine .inl ⟨responseOf (outcome c.config i), ?_⟩
    rintro s rfl pending
    simp only [step, pending, decoded, exec_eq, complete_eq]
  | error e =>
    cases e with
    | unassignedOp =>
      refine .inl ⟨.error .illegalOperation, fun s _ pending => ?_⟩
      simp only [step, pending, decoded, State.raise]
    | illTypedOperands =>
      refine .inr fun s pending => ?_
      simp only [step, pending, decoded]

/-- The response after reset is the one with which the step answers in any state of that configuration. -/
theorem responseTo_eq_some_iff {s : State} {r : Request} (pending : s.request = some r) (x : Response) :
    responseTo s.config r = some x ↔ step s = .next (s.respond x) := by
  rcases step_pending_cases s.config r with ⟨y, answers⟩ | refuses
  · rw [responseTo, answers { State.resetWith s.config with request := some r } rfl rfl, answers s rfl pending]
    simp [State.respond]
  · rw [responseTo, refuses { State.resetWith s.config with request := some r } rfl, refuses s pending]
    simp

/-! ## The obligations -/

/-- Settles O58: the step responds as after reset, and responding changes the two registers only. -/
theorem responseDependsOnlyOnRequestAndConfiguration :
    Obligations.ResponseDependsOnlyOnRequestAndConfiguration :=
  fun _ _ x pending response => (responseTo_eq_some_iff pending x).mp response

/-- Settles O2: `State.constants` does not look at the state, and each constant is defined as its literal. -/
theorem constantRegistersReadTheirValues : Obligations.ConstantRegistersReadTheirValues :=
  fun _ => rfl

end Sys2Proof.Machine
end

section
/-! Encode after decode, of whole payloads: the operation's answers (`42_payload.md` rule R111). -/

namespace Sys2Proof.Machine

/-- Settles O27: a decoded variant is encoded to its body cleared, and to no other bytes. -/
theorem payloadReencodingClearsReserved : Obligations.PayloadReencodingClearsReserved := by
  intro s tag b declared v decoded
  rw [answers_payDecode] at decoded
  obtain ⟨layout, known⟩ := layoutOf_of_payloadDecode decoded
  obtain ⟨-, written⟩ := payloadBytes_of_payloadDecode s.config.legal known decoded
  rw [lo8_eq_extractLsb', hi8_eq_extractLsb'] at written
  refine ⟨layout, known, (answers_payEncode ..).mpr written, ?_⟩
  rw [answers_payEncode, written]
  simp

end Sys2Proof.Machine
end

section
/-! Requests and steps: decode and encode agree, all that a step can do, and what every step keeps (`30_encoding.md`
rules R65 to R67, `10_state.md` rules R21 to R25, `60_exceptions.md` rules R136 and R137). -/

namespace Sys2Proof.Machine

/-! ## Requests and operations -/

theorem decode_encode (i : Instr) : decode (encode i) = .ok i := by
  cases i <;> rfl

/-- All that the decoder can do: it finds the operation whose request it is given, or the operand record is of no
operation with that `op`, or there is no such operation. -/
theorem decode_cases (r : Request) :
    (∃ i, decode r = .ok i ∧ encode i = r) ∨
      (decode r = .error .illTypedOperands ∧ r.op ∈ assignedOps) ∨
      (decode r = .error .unassignedOp ∧ r.op ∉ assignedOps) := by
  obtain ⟨op, operands⟩ := r
  by_cases assigned : op ∈ assignedOps
  · rw [← or_assoc]
    refine .inl ?_
    generalize found : decode ⟨op, operands⟩ = d
    have members := assigned
    simp only [assignedOps, List.mem_cons, List.not_mem_nil, or_false] at members
    rcases members with
      rfl | rfl | rfl | rfl | rfl | rfl | rfl | rfl | rfl | rfl | rfl | rfl | rfl | rfl
    all_goals
      simp only [decode, BitVec.reduceToNat, BitVec.ofNat_eq_ofNat] at found
      split at found
      · exact .inl ⟨_, found.symm, rfl⟩
      · exact .inr ⟨found.symm, assigned⟩
  · exact .inr (.inr ⟨decode_of_unassigned assigned, assigned⟩)

theorem decode_eq_ok_iff {r : Request} {i : Instr} : decode r = .ok i ↔ encode i = r := by
  refine ⟨fun decoded => ?_, fun encoded => encoded ▸ decode_encode i⟩
  rcases decode_cases r with ⟨j, found, encoded⟩ | ⟨bad, -⟩ | ⟨bad, -⟩
  · rw [found, Except.ok.injEq] at decoded
    exact decoded ▸ encoded
  · simp [bad] at decoded
  · simp [bad] at decoded

theorem decode_eq_unassignedOp_iff {r : Request} : decode r = .error .unassignedOp ↔ r.op ∉ assignedOps := by
  refine ⟨fun unassigned => ?_, decode_of_unassigned⟩
  rcases decode_cases r with ⟨j, found, -⟩ | ⟨bad, -⟩ | ⟨-, outside⟩
  · simp [found] at unassigned
  · simp [bad] at unassigned
  · exact outside

/-- Settles O47: the three cases of the decoder exclude each other. -/
theorem decodeAndEncodeAgree : Obligations.DecodeAndEncodeAgree :=
  fun _ => ⟨fun _ => decode_eq_ok_iff, decode_eq_unassignedOp_iff⟩

/-- Settles O48: the decoder is run on each of the six. -/
theorem sampleRequestsDecode : Obligations.SampleRequestsDecode :=
  ⟨rfl, rfl, rfl, rfl, rfl, rfl⟩

/-! ## The registers -/

/-- Settles O1: a reset writes both registers and no more, whatever they held. -/
theorem resetEmptiesTheRegisters : Obligations.ResetEmptiesTheRegisters :=
  ⟨fun _ => rfl, fun _ => rfl, fun _ => rfl⟩

/-- Settles O3: the response is the one of the error, whose status is never OK. -/
theorem raiseDiscardsTheResult : Obligations.RaiseDiscardsTheResult :=
  fun _ e => ⟨.error e, rfl, error_status e, error_status_ne_ok e, error_info e, error_result e, rfl⟩

/-- Settles O4: the request register alone decides whether a request can be issued. -/
theorem submitTakesOneRequestAtATime : Obligations.SubmitTakesOneRequestAtATime := by
  refine fun s r => ⟨fun free => ?_, fun pending => ?_, fun x held => ?_⟩
  · rw [State.submit, free]
  · cases taken : s.submit r with
    | none => rfl
    | some t => exact absurd (submit_eq_some taken).1 pending
  · rcases readResponse_cases s with ⟨y, held', read⟩ | ⟨empty, -⟩
    · rw [held, Option.some.injEq] at held'
      rw [read, held']
    · simp [held] at empty

/-- Settles O5: the codes are the rows of the table, and the info is read off each error. -/
theorem statusCodesAndInfo : Obligations.StatusCodesAndInfo := by
  refine ⟨by decide, fun _ => rfl, fun _ _ => rfl, fun e carries => ?_⟩
  cases e with
  | unknownCommand tag => exact .inl rfl
  | invalidEnumValue field raw => exact .inr rfl
  | _ => exact absurd rfl carries

/-! ## The response of an operation -/

theorem responseOf_ok_iff (r : Except Error Result) : (responseOf r).status = .ok ↔ (responseOf r).result ≠ none := by
  cases r with
  | ok x => simp
  | error e => simp [error_status_ne_ok]

/-- Settles O52: the operation ends its request with the response of its outcome. -/
theorem everyOperationAnswersOnceAndChangesNothingElse :
    Obligations.EveryOperationAnswersOnceAndChangesNothingElse :=
  fun i s => ⟨responseOf (outcome s.config.config i), by rw [exec_eq, complete_eq]; rfl, responseOf_ok_iff _⟩

/-! ## All that a step can do -/

/-- The response of a step that gives one: an operation's outcome, or `IllegalOperation` for an unassigned `op`. -/
def IsResponseTo (c : Config) (r : Request) (x : Response) : Prop :=
  (∃ i, decode r = .ok i ∧ x = responseOf (outcome c i)) ∨
    decode r = .error .unassignedOp ∧ x = .error .illegalOperation

/-- Without a request a step is idle; with one it responds, or it refuses an operand record of no operation. -/
theorem step_cases (s : State) :
    (s.request = none ∧ step s = .next s) ∨
      (∃ r x, s.request = some r ∧ IsResponseTo s.config.config r x ∧ step s = .next (s.respond x)) ∨
      ∃ r, s.request = some r ∧ decode r = .error .illTypedOperands ∧ step s = .refused (.illTypedOperands r.op) := by
  cases pending : s.request with
  | none => exact .inl ⟨rfl, by simp only [step, pending]⟩
  | some r =>
    refine .inr ?_
    cases decoded : decode r with
    | ok i =>
      refine .inl ⟨r, _, rfl, .inl ⟨i, decoded, rfl⟩, ?_⟩
      simp only [step, pending, decoded, exec_eq, complete_eq]
    | error e =>
      cases e with
      | unassignedOp =>
        refine .inl ⟨r, _, rfl, .inr ⟨decoded, rfl⟩, ?_⟩
        simp only [step, pending, decoded, State.raise]
      | illTypedOperands => exact .inr ⟨r, rfl, decoded, by simp only [step, pending, decoded]⟩

/-- The next state of a step is the same state, or the state with a response to the request pending. -/
theorem step_eq_next {s t : State} (stepped : step s = .next t) :
    t = s ∨ ∃ r x, IsResponseTo s.config.config r x ∧ t = s.respond x := by
  rcases step_cases s with ⟨-, idle⟩ | ⟨r, x, -, response, responds⟩ | ⟨r, -, -, refuses⟩
  · rw [idle] at stepped
    cases stepped
    exact .inl rfl
  · rw [responds] at stepped
    cases stepped
    exact .inr ⟨r, x, response, rfl⟩
  · rw [refuses] at stepped
    cases stepped

/-- Settles O51: the idle case of a step. -/
theorem idleStepChangesNothing : Obligations.IdleStepChangesNothing := by
  intro s idle
  rw [step, idle]

/-- Settles O50: the step runs what the decoder finds. -/
theorem stepRunsTheDecodedOperation : Obligations.StepRunsTheDecodedOperation := by
  intro s r i pending decoded
  simp only [step, pending, decoded]

/-- Settles O54: of the cases of a step the last is the refusal, where the decoder finds no operation. -/
theorem stepStopsOnlyOnIllTypedOperands : Obligations.StepStopsOnlyOnIllTypedOperands := by
  intro s
  rcases step_cases s with ⟨-, idle⟩ | ⟨r, x, -, -, responds⟩ | ⟨r, pending, bad, refuses⟩
  · exact .inl ⟨s, idle⟩
  · exact .inl ⟨_, responds⟩
  · refine .inr ⟨r, pending, ?_, fun i encoded => ?_, refuses⟩
    · by_contra unassigned
      simp [decode_of_unassigned unassigned] at bad
    · simp [decode_eq_ok_iff.mpr encoded] at bad

/-! ## The invariant of the response register -/

/-- Every header, variant and frame that an operation answers obeys the rules on entities (R29 to R31). -/
theorem entityOk_of_answers {s : State} {i : Instr} {x : Result} (answered : s.answers i x) :
    x.entityOk s.config.config := by
  have found := (answers_outcome s i x).mp answered
  cases i with
  | hdrDecode bytes =>
    obtain ⟨h, decoded, rfl⟩ := exists_of_map_eq_ok found
    exact ((headerDecode_eq_ok_iff bytes h).mp decoded).1
  | hdrRecompute len sequence =>
    cases found
    rfl
  | payDecode tag bytes declared =>
    obtain ⟨v, decoded, rfl⟩ := exists_of_map_eq_ok found
    obtain ⟨layout, known⟩ := layoutOf_of_payloadDecode decoded
    rcases payloadDecode_cases s.config.legal known bytes declared with ⟨vals, decoded', fits⟩ | ⟨e, failed, -⟩
    · rw [decoded', Except.ok.injEq] at decoded
      exact decoded ▸ variantOk_iff.mpr ⟨layout, known, fits⟩
    · simp [failed] at decoded
  | frameBuild sequence payload =>
    obtain ⟨f, -, rfl⟩ := exists_of_map_eq_ok found
    exact (answeredFramesKeepTheirInvariants s).1 sequence payload f answered
  | frameDecode bytes =>
    obtain ⟨⟨f, consumed⟩, -, rfl⟩ := exists_of_map_eq_ok found
    obtain ⟨p, written, length, crc, size, -⟩ := (answeredFramesKeepTheirInvariants s).2 bytes f consumed answered
    exact ⟨p, written, length, crc, size⟩
  | crc8 _ | crc16 _ | hdrEncode _ =>
    cases found
    trivial
  | payEncode _ | bitsUnpack _ _ _ | bitsPack _ | frameEncode _ | tailCheck _ | ixDispatch _ =>
    obtain ⟨_, -, rfl⟩ := exists_of_map_eq_ok found
    trivial

/-- A state whose response register was just written meets the invariant if that response does. -/
theorem respond_inv {s : State} {x : Response} (wellFormed : x.wellFormed = true)
    (entityOk : ∀ y, x.result = some y → y.entityOk s.config.config) : (s.respond x).Inv := by
  rintro _ ⟨⟩
  exact ⟨wellFormed, entityOk⟩

/-- Settles O55: an empty response register holds nothing that could break the invariant. -/
theorem resetMeetsTheResponseInvariant : Obligations.ResetMeetsTheResponseInvariant :=
  ⟨nofun, fun _ => nofun⟩

/-- Settles O56: a step keeps the register or writes a response, whose entity an operation answered. -/
theorem everyStepKeepsTheResponseInvariant : Obligations.EveryStepKeepsTheResponseInvariant := by
  intro s t inv stepped
  rcases step_eq_next stepped with rfl | ⟨r, x, ⟨i, -, rfl⟩ | ⟨-, rfl⟩, rfl⟩
  · exact inv
  · refine respond_inv (responseOf_wellFormed _) fun y held => entityOk_of_answers (i := i) ?_
    rw [answers_outcome]
    cases found : outcome s.config.config i with
    | ok z => simpa [found] using held
    | error e => simp [found] at held
  · exact respond_inv (error_wellFormed _) (by simp)

end Sys2Proof.Machine
end

section
/-! The errors each operation raises (`60_exceptions.md` rule R136, column "raised by"). -/

namespace Sys2Proof.Machine

/-- Where `r` is an error, it has one of the statuses in `allowed`. -/
def RaisesOnly {α : Type} (allowed : List Status) (r : Except Error α) : Prop :=
  ∀ e, r = .error e → e.status ∈ allowed

section
variable {α β : Type} {allowed : List Status}

theorem RaisesOnly.ok (x : α) : RaisesOnly allowed (.ok x) := nofun

theorem RaisesOnly.error {e : Error} (listed : e.status ∈ allowed) :
    RaisesOnly allowed (.error e : Except Error α) := by
  rintro _ ⟨⟩
  exact listed

theorem RaisesOnly.mono {allowed' : List Status} {r : Except Error α} (h : RaisesOnly allowed r)
    (sub : allowed ⊆ allowed') : RaisesOnly allowed' r :=
  fun e raised => sub (h e raised)

theorem RaisesOnly.map {r : Except Error α} (f : α → β) (h : RaisesOnly allowed r) :
    RaisesOnly allowed (r.map f) := by
  cases r with
  | ok x => exact .ok _
  | error e => exact .error (h e rfl)

theorem RaisesOnly.bind {r : Except Error α} {f : α → Except Error β} (h : RaisesOnly allowed r)
    (hf : ∀ x, RaisesOnly allowed (f x)) : RaisesOnly allowed (r >>= f) := by
  cases r with
  | ok x => exact hf x
  | error e => exact .error (h e rfl)

theorem RaisesOnly.ite {p : Prop} [Decidable p] {r r' : Except Error α} (h : RaisesOnly allowed r)
    (h' : RaisesOnly allowed r') : RaisesOnly allowed (if p then r else r') := by
  split
  · exact h
  · exact h'

end

theorem headerDecode_raisesOnly (b : Bytes) :
    RaisesOnly [.badMagic, .badChecksum, .truncatedPayload] (headerDecode b) :=
  .ite (.error (by decide)) (.ite (.error (by decide)) (.ite (.error (by decide)) (.ok _)))

theorem decodeBody_raisesOnly {c : Config} (hc : c.legal = true) {items : List (FieldName × Item)}
    (ok : ∀ it ∈ items, it.2.ok c = true) (b : Bytes) :
    RaisesOnly [.truncatedPayload, .invalidEnumValue] (decodeBody c items b) := by
  rcases decodeBody_cases hc ok b with ⟨vals, body, -⟩ | ⟨body, -⟩ | ⟨field, raw, body⟩ <;> rw [body]
  · exact .ok _
  · exact .error (by decide)
  · exact .error (by simp [Error.status])

theorem payloadDecode_raisesOnly {c : Config} (hc : c.legal = true) (tag : U16) (b : Bytes) (declared : U16) :
    RaisesOnly [.unknownCommand, .truncatedPayload, .trailingBytes, .lengthUnderflow, .invalidEnumValue]
      (payloadDecode c tag b declared) := by
  cases known : c.layoutOf tag with
  | none =>
    simp only [payloadDecode, known]
    exact .error (by simp [Error.status])
  | some layout =>
    cases layout with
    | fixed items =>
      rw [payloadDecode_of_fixed known]
      exact ((decodeBody_raisesOnly hc (layoutOf_fixed_ok hc known) b).mono (by decide)).bind fun _ =>
        .ite (.error (by decide)) (.ok _)
    | rid =>
      obtain rfl := layoutOf_rid.mp known
      rw [payloadDecode_tagRid]
      exact .ite (.error (by decide)) <|
        ((decodeBody_raisesOnly hc (ridItems_ok hc) b).mono (by decide)).bind fun _ =>
          .ite (.error (by decide)) (.ite (.error (by decide)) (.ok _))

theorem payloadBytes_raisesOnly (c : Config) (v : Variant) : RaisesOnly [.contractViolation] (payloadBytes c v) := by
  refine .ite ?_ (.error (by decide))
  cases (c.layoutOf v.tag).bind fun layout => encodeBody c layout v.values with
  | none => exact .error (by decide)
  | some body => exact .ok _

theorem frameDecode_raisesOnly {c : Config} (hc : c.legal = true) (b : Bytes) :
    RaisesOnly [.badMagic, .badChecksum, .badFrameChecksum, .unknownCommand, .truncatedPayload, .trailingBytes,
      .lengthUnderflow, .invalidEnumValue] (frameDecode c b) :=
  ((headerDecode_raisesOnly b).mono (by decide)).bind fun _ =>
    .ite (.error (by decide)) <| ((payloadDecode_raisesOnly hc _ _ _).mono (by decide)).bind fun _ =>
      .ite (.error (by decide)) (.ok _)

theorem ixDispatch_raisesOnly (c : Config) (v : Variant) : RaisesOnly [.contractViolation] (ixDispatch c v) := by
  by_cases rid : v.tag = c.tagRid ∧ variantOk c v = true
  · obtain ⟨subtag, sender, receiver, data, rfl⟩ := exists_ridVariant rid.1 rid.2
    rw [ixDispatch_ridVariant rid.2]
    exact .ok _
  · rw [ixDispatch_of_not_rid rid]
    exact .error (by decide)

theorem bitsUnpack_raisesOnly (b : Bytes) (bitpos : U32) (width : U8) :
    RaisesOnly [.truncatedPayload, .contractViolation] (bitsUnpack b bitpos width) :=
  .ite (.error (by decide)) (.ite (.error (by decide)) (.ok _))

theorem bitsPack_raisesOnly (fields : List (U8 × U32)) : RaisesOnly [.contractViolation] (bitsPack fields) :=
  .ite (.ok _) (.error (by decide))

theorem frameBuild_raisesOnly (c : Config) (sequence : U8) (v : Variant) :
    RaisesOnly [.contractViolation] (frameBuild c sequence v) :=
  (payloadBytes_raisesOnly c v).bind fun _ => .ite (.error (by decide)) (.ok _)

theorem frameEncode_raisesOnly (c : Config) (f : Frame) : RaisesOnly [.contractViolation] (frameEncode c f) :=
  (payloadBytes_raisesOnly c f.payload).bind fun _ =>
    .ite (.error (by decide)) (.ite (.error (by decide)) (.ite (.error (by decide)) (.ok _)))

theorem tailCheck_raisesOnly (b : Bytes) : RaisesOnly [.badFrameChecksum, .truncatedPayload] (tailCheck b) :=
  .ite (.error (by decide)) (.ite (.error (by decide)) (.ok _))

/-- An operation raises only the errors listed for it after OK. -/
theorem outcome_raisesOnly {c : Config} (hc : c.legal = true) (i : Instr) :
    RaisesOnly (statusesOf i) (outcome c i) := by
  have listed : ∀ {α : Type} {r : Except Error α} {errors : List Status} (f : α → Result),
      RaisesOnly errors r → RaisesOnly (.ok :: errors) (r.map f) :=
    fun f raises => (raises.mono (List.subset_cons_self _ _)).map f
  cases i with
  | crc8 _ | crc16 _ | hdrEncode _ | hdrRecompute _ _ => exact .ok _
  | hdrDecode bytes => exact listed _ (headerDecode_raisesOnly bytes)
  | payDecode tag bytes declared => exact listed _ (payloadDecode_raisesOnly hc tag bytes declared)
  | payEncode v => exact listed _ (payloadBytes_raisesOnly c v)
  | bitsUnpack bytes bitpos width => exact listed _ (bitsUnpack_raisesOnly bytes bitpos width)
  | bitsPack fields => exact listed _ (bitsPack_raisesOnly fields)
  | frameBuild sequence payload => exact listed _ (frameBuild_raisesOnly c sequence payload)
  | frameEncode frame => exact listed _ (frameEncode_raisesOnly c frame)
  | frameDecode bytes => exact listed _ (frameDecode_raisesOnly hc bytes)
  | tailCheck bytes => exact listed _ (tailCheck_raisesOnly bytes)
  | ixDispatch rid => exact listed _ (ixDispatch_raisesOnly c rid)

theorem ok_mem_statusesOf (i : Instr) : .ok ∈ statusesOf i := by
  cases i <;> exact List.mem_cons_self

/-- Settles O53: the status is OK or the one of an error the operation raises. -/
theorem eachOperationWritesOnlyItsStatuses : Obligations.EachOperationWritesOnlyItsStatuses := by
  intro i s t r ended held
  rw [exec_eq, complete_eq] at ended
  cases ended
  rw [respond_response, Option.some.injEq] at held
  subst held
  cases found : outcome s.config.config i with
  | ok x => exact ok_mem_statusesOf i
  | error e => exact outcome_raisesOnly s.config.legal i e found

end Sys2Proof.Machine
end

section
/-! Programs: requests issued one after the other get the responses they would get alone (`20_memory.md` rule R44,
`10_state.md` rule R18). -/

namespace Sys2Proof.Machine

/-- The state after a program with the responses `xs`: only the response register changes, to the last of them. -/
def State.afterResponses (s : State) (xs : List Response) : State :=
  { s with response := xs.getLast?.or s.response }

theorem afterResponses_nil (s : State) : s.afterResponses [] = s := rfl

theorem afterResponses_cons {s : State} (free : s.request = none) (x : Response) (xs : List Response) :
    (s.respond x).afterResponses xs = s.afterResponses (x :: xs) := by
  simp only [State.afterResponses, State.respond, free, List.getLast?_cons]
  cases xs.getLast? <;> rfl

/-- A request issued when none is pending gets the response it would get alone, before the next is issued. -/
theorem runProgram_cons {s : State} (free : s.request = none) (r : Request) (rs : List Request) :
    s.runProgram (r :: rs) =
      (responseTo s.config r).bind fun x => ((s.respond x).runProgram rs).map fun y => (x :: y.1, y.2) := by
  have issued : s.submit r = some { s with request := some r } := by rw [State.submit, free]
  simp only [State.runProgram, issued, responseTo, bind, Option.bind_some]
  rcases step_pending_cases s.config r with ⟨x, responds⟩ | refuses
  · rw [responds { s with request := some r } rfl rfl,
      responds { State.resetWith s.config with request := some r } rfl rfl]
    exact Option.map_eq_bind.symm
  · rw [refuses { s with request := some r } rfl,
      refuses { State.resetWith s.config with request := some r } rfl]
    rfl

/-- All that a program from a state with no request pending does. -/
theorem runProgram_eq {s : State} (free : s.request = none) (rs : List Request) :
    s.runProgram rs = (rs.mapM (responseTo s.config)).map fun xs => (xs, s.afterResponses xs) := by
  induction rs generalizing s with
  | nil => rfl
  | cons r rs ih =>
    rw [runProgram_cons free, List.mapM_cons]
    cases responseTo s.config r with
    | none => rfl
    | some x =>
      simp only [Option.bind_some, ih (respond_request s x), respond_config, afterResponses_cons free]
      cases rs.mapM (responseTo s.config) <;> rfl

theorem runProgram_cons_of_pending {s : State} {q : Request} (pending : s.request = some q) (r : Request)
    (rs : List Request) : s.runProgram (r :: rs) = none := by
  have refused : s.submit r = none := by rw [State.submit, pending]
  rw [State.runProgram, refused]
  rfl

/-- Settles O57: a program that runs leaves `State.afterResponses`. -/
theorem programsNeverChangeTheConfiguration : Obligations.ProgramsNeverChangeTheConfiguration := by
  intro s t rs xs ran
  cases pending : s.request with
  | none =>
    rw [runProgram_eq pending] at ran
    obtain ⟨ys, -, ⟨⟩⟩ := Option.map_eq_some_iff.mp ran
    rfl
  | some q =>
    cases rs with
    | nil =>
      cases ran
      rfl
    | cons r rs =>
      rw [runProgram_cons_of_pending pending] at ran
      cases ran

/-- Inputs in another order give the same outputs, input by input. -/
theorem mapM_perm {α β : Type} {f : α → Option β} {as as' : List α} (perm : as'.Perm as) :
    ∀ {bs}, as.mapM f = some bs → ∃ bs', as'.mapM f = some bs' ∧ (as'.zip bs').Perm (as.zip bs) := by
  induction perm with
  | nil => exact fun h => ⟨_, h, .refl _⟩
  | cons a _ ih =>
    intro bs h
    simp only [List.mapM_cons, bind, pure, Option.bind_eq_some_iff, Option.some.injEq] at h ⊢
    obtain ⟨b, hb, bs, hbs, rfl⟩ := h
    obtain ⟨bs', hbs', p⟩ := ih hbs
    exact ⟨_, ⟨b, hb, bs', hbs', rfl⟩, p.cons _⟩
  | swap a a' as =>
    intro bs h
    simp only [List.mapM_cons, bind, pure, Option.bind_eq_some_iff, Option.some.injEq] at h ⊢
    obtain ⟨b, hb, _, ⟨b', hb', bs, hbs, rfl⟩, rfl⟩ := h
    exact ⟨_, ⟨b', hb', _, ⟨b, hb, bs, hbs, rfl⟩, rfl⟩, .swap _ _ _⟩
  | trans _ _ ih ih' =>
    intro bs h
    obtain ⟨bs', h', p'⟩ := ih' h
    obtain ⟨bs'', h'', p''⟩ := ih h'
    exact ⟨bs'', h'', p''.trans p'⟩

/-- Settles O59: a program's responses are the ones to its requests alone, of which each depends on no other. -/
theorem programsAnswerEachRequestAsIfAlone : Obligations.ProgramsAnswerEachRequestAsIfAlone := by
  intro s rs xs free alone
  refine ⟨⟨s.afterResponses xs, by rw [runProgram_eq free, alone]; rfl, free, rfl⟩, fun rs' perm => ?_⟩
  obtain ⟨xs', alone', paired⟩ := mapM_perm perm alone
  exact ⟨xs', s.afterResponses xs', by rw [runProgram_eq free, alone']; rfl, paired⟩

end Sys2Proof.Machine
end

section
/-! The first failing part: of a group's fields, of an array's elements, of a figure record's items (`42_payload.md`
rules R93, R98, R100, R112). -/

namespace Sys2Proof.Machine

/-! ## Groups -/

/-- The first illegal enumeration of a group decides the error, whatever stands after it. -/
theorem decodeBits_first_illegal {c : Config} {grp : Bytes} {path : FieldPath} {pre : List (FieldName × BitItem)}
    {n : FieldName} {e : EnumName} {w s : Nat} (post : List (FieldName × BitItem)) {vs : List BitValue}
    (before : decodeBits c grp path pre s = .ok vs)
    (illegal : c.enumLegal e (getBits grp (s + groupBits pre) w) = false) :
    decodeBits c grp path (pre ++ (n, .eb e w) :: post) s =
      .error (.invalidEnumValue (path ++ [.name n]) (BitVec.ofNat 32 (getBits grp (s + groupBits pre) w))) := by
  induction pre generalizing s vs with
  | nil => exact if_neg (by simpa [groupBits] using illegal)
  | cons x pre ih =>
    obtain ⟨m, x⟩ := x
    rw [groupBits, ← Nat.add_assoc] at illegal ⊢
    cases x with
    | rb w' => exact ih before illegal
    | ub w' =>
      obtain ⟨vs', rest, -⟩ := exists_of_map_eq_ok before
      exact congrArg (Except.map _) (ih rest illegal)
    | eb e' w' =>
      simp only [decodeBits] at before
      split_ifs at before with legal
      obtain ⟨vs', rest, -⟩ := exists_of_map_eq_ok before
      rw [List.cons_append, decodeBits, if_pos legal]
      exact congrArg (Except.map _) (ih rest illegal)

/-- The same of a group item whose bytes are present, under the item's path. -/
theorem decodeLeaf_bits_first_illegal {c : Config} {b : Bytes} {pos : Nat} {path : FieldPath}
    {gs pre post : List (FieldName × BitItem)} {n : FieldName} {e : EnumName} {w : Nat} {vs : List BitValue}
    (inside : pos + groupBits gs / 8 ≤ b.length) (split : gs = pre ++ (n, .eb e w) :: post)
    (before : decodeBits c (slice b pos (groupBits gs / 8)) path pre 0 = .ok vs)
    (illegal : c.enumLegal e (getBits (slice b pos (groupBits gs / 8)) (groupBits pre) w) = false) :
    decodeLeaf c b (.bits gs) pos path = .error (.invalidEnumValue (path ++ [.name n])
      (BitVec.ofNat 32 (getBits (slice b pos (groupBits gs / 8)) (groupBits pre) w))) := by
  rw [← Nat.zero_add (groupBits pre)] at illegal ⊢
  have fields := decodeBits_first_illegal (n := n) post before illegal
  rw [← split] at fields
  rw [decodeLeaf_bits inside, fields]
  rfl

/-- Settles O23: the presence of the bytes comes before the fields, and of these the first illegal one decides. -/
theorem groupReportsFirstIllegalEnum : Obligations.GroupReportsFirstIllegalEnum := by
  refine fun s b pos path gs => ⟨fun short => decodeLeaf_of_short short, ?_⟩
  rintro inside _ pre n e w post vs rfl split before illegal
  exact decodeLeaf_bits_first_illegal inside split before illegal

/-! ## Arrays -/

theorem map_eq_ok_iff {α β : Type} {f : α → β} {r : Except Error α} {y : β} :
    r.map f = .ok y ↔ ∃ x, r = .ok x ∧ f x = y := by
  cases r <;> simp [Except.map]

theorem map_eq_error_iff {α β : Type} {f : α → β} {r : Except Error α} {e : Error} :
    r.map f = .error e ↔ r = .error e := by
  cases r <;> simp [Except.map]

/-- An array's first element, and then the others where it ends (R100). -/
theorem decodeArray_succ {α : Type} (dec : Nat → FieldPath → Except Error (α × Nat)) (path : FieldPath)
    (n j pos : Nat) :
    decodeArray dec path (n + 1) j pos =
      (dec pos (path ++ [.index j])).bind fun x =>
        (decodeArray dec path n (j + 1) x.2).map fun y => (x.1 :: y.1, y.2) := by
  rw [decodeArray]
  cases dec pos (path ++ [.index j]) with
  | error e => rfl
  | ok x =>
    simp only [bind, Except.bind]
    cases decodeArray dec path n (j + 1) x.2 <;> rfl

/-- An array fails exactly with the error of its first failing element, decoded where the elements before it end. -/
theorem decodeArray_error_iff {α : Type} {dec : Nat → FieldPath → Except Error (α × Nat)} {size : Nat}
    (moves : ∀ pos path x p, dec pos path = .ok (x, p) → p = pos + size) (path : FieldPath) (n j pos : Nat)
    (e : Error) :
    decodeArray dec path n j pos = .error e ↔
      ∃ k xs, k < n ∧ xs.length = k ∧ decodeArray dec path k j pos = .ok (xs, pos + k * size) ∧
        dec (pos + k * size) (path ++ [.index (j + k)]) = .error e := by
  induction n generalizing j pos with
  | zero => simp [decodeArray]
  | succ n ih =>
    cases first : dec pos (path ++ [.index j]) with
    | error e' =>
      have fails : ∀ k, decodeArray dec path (k + 1) j pos = .error e' := fun k => by
        rw [decodeArray_succ, first]
        rfl
      rw [fails]
      constructor
      · rintro ⟨⟩
        exact ⟨0, [], n.succ_pos, rfl, by simp [decodeArray], by simpa using first⟩
      · rintro ⟨k, xs, -, -, before, here⟩
        cases k with
        | zero => simpa [first] using here
        | succ k => simp [fails] at before
    | ok r =>
      obtain ⟨x, p⟩ := r
      obtain rfl := moves _ _ _ _ first
      have rest : ∀ k, decodeArray dec path (k + 1) j pos =
          (decodeArray dec path k (j + 1) (pos + size)).map fun y => (x :: y.1, y.2) := fun k => by
        rw [decodeArray_succ, first]
        rfl
      have cursor : ∀ k, pos + size + k * size = pos + (k + 1) * size := fun k => by ring
      have index : ∀ k, j + 1 + k = j + (k + 1) := fun k => by ring
      rw [rest, map_eq_error_iff, ih]
      simp only [cursor, index]
      constructor
      · rintro ⟨k, xs, below, length, before, here⟩
        exact ⟨k + 1, x :: xs, by omega, by simp [length], by rw [rest, before]; rfl, here⟩
      · rintro ⟨k, xs, below, length, before, here⟩
        cases k with
        | zero => simp [first] at here
        | succ k =>
          rw [rest, map_eq_ok_iff] at before
          obtain ⟨⟨ys, p⟩, before, same⟩ := before
          obtain ⟨rfl, rfl⟩ := Prod.mk.inj same
          exact ⟨k, ys, by omega, by simpa using length, before, here⟩

/-- A figure record moves the cursor by 15 bytes. -/
theorem decodeFigure_cursor {c : Config} (hc : c.legal = true) {b : Bytes} {pos : Nat} {path : FieldPath} {vs : Fig}
    {p : Nat} (decoded : decodeFigure c b pos path = .ok (vs, p)) : p = pos + 15 :=
  ((decodeFigure_ok_iff hc b pos path vs p).mp decoded).1

/-- Settles O20: both kinds of array are `decodeArray` of an element that moves the cursor by its size. -/
theorem arraysReportTheFirstFailingIndex : Obligations.ArraysReportTheFirstFailingIndex := by
  refine fun s n b pos path err => ⟨fun elem => ?_, ?_⟩
  · have fails := decodeArray_error_iff (dec := decodeLeaf s.config.config b elem)
      (fun _ _ _ _ decoded => decodeLeaf_cursor decoded) path n 0 pos err
    simpa [decodePlain, map_eq_error_iff, map_eq_ok_iff] using fails
  · have fails := decodeArray_error_iff (dec := decodeFigure s.config.config b)
      (fun _ _ _ _ decoded => decodeFigure_cursor s.config.legal decoded) path n 0 pos err
    simpa [decodeItem, map_eq_error_iff, map_eq_ok_iff] using fails

/-! ## Figure records -/

/-- Settles O21: the record's items are decoded under the record's own path, and an illegal bit field in one of its
groups is named after that. -/
theorem figureRecordsAddNoNameToThePath : Obligations.FigureRecordsAddNoNameToThePath := by
  intro s pre post n it b pos p path vals layout before
  have fails : ∀ err, decodePlain s.config.config b it p (path ++ [.name n]) = .error err →
      decodeItem s.config.config b .figure pos path = .error err := fun err here => by
    rw [decodeItem, map_eq_error_iff, decodeFigure, layout]
    exact decodeItems_first_error post before here
  refine ⟨fails, ?_⟩
  rintro gpre gpost field e w vs name j rfl rfl inside fields illegal
  have group := decodeLeaf_bits_first_illegal (path := [.name name, .index j] ++ [.name n]) inside rfl fields illegal
  exact fails _ (map_eq_error_iff.mpr group)

end Sys2Proof.Machine
end

section
/-! What items are made of: arrays, figure records and reserved items as their parts in order (`42_payload.md` rules
R93, R99, R100, R108, R109). -/

namespace Sys2Proof.Machine

/-- A reserved item is only asked to be present (R99). -/
theorem decodePlain_rsv (c : Config) (b : Bytes) (k pos : Nat) (path : FieldPath) :
    decodePlain c b (.rsv k) pos path =
      if pos + k ≤ b.length then .ok (none, pos + k) else .error .truncatedPayload := by
  rcases need_cases b pos k with ⟨inside, present⟩ | ⟨short, missing⟩
  · rw [decodePlain, present, if_pos inside]
    rfl
  · rw [decodePlain, missing, if_neg (Nat.not_le.mpr short)]
    rfl

/-- A decoder whose value is rewritten, where it is known what the decoder gives. -/
theorem map_value_eq_ok_iff {α β : Type} (g : α → β) {r : Except Error (α × Nat)} {q : Nat} {gives : α → Prop}
    (h : ∀ x p, r = .ok (x, p) ↔ p = q ∧ gives x) (y : β × Nat) :
    (r.map fun x => (g x.1, x.2)) = .ok y ↔ ∃ x, y = (g x, q) ∧ gives x := by
  rw [map_eq_ok_iff]
  constructor
  · rintro ⟨⟨x, p⟩, decoded, rfl⟩
    obtain ⟨rfl, given⟩ := (h x p).mp decoded
    exact ⟨x, rfl, given⟩
  · rintro ⟨x, rfl, given⟩
    exact ⟨(x, q), (h x q).mpr ⟨rfl, given⟩, rfl⟩

theorem decodeItem_figure_eq_ok_iff {c : Config} {b : Bytes} {pos p : Nat} {path : FieldPath} {fig : Fig} :
    decodeItem c b .figure pos path = .ok (some (.record fig), p) ↔ decodeFigure c b pos path = .ok (fig, p) := by
  simp [decodeItem, map_eq_ok_iff]

/-- Settles O60: each clause is the definition of the item's decoder or encoder, or what `decodeArray`, `decodeItems`
and their encoders do part by part. -/
theorem itemsAreMadeOfTheirPartsInOrder : Obligations.ItemsAreMadeOfTheirPartsInOrder := by
  intro s b pos path
  refine ⟨fun _ => rfl, fun _ => rfl, fun k => decodePlain_rsv s.config.config b k pos path, fun elem n r => ?_,
    fun r => ?_, fun n r => ?_, fun it x => ?_, fun _ _ => rfl, fun k => congrArg some (memWrite_zero k),
    fun elem _ xs e => encodeArray_eq_some_iff (encodeLeaf elem) xs e,
    fun fig e => encodeItems_eq_some_iff plainReserved encodePlain s.config.config.figureLayout fig e,
    fun _ figs e => encodeArray_eq_some_iff (encodeFigure s.config.config) figs e⟩
  · refine map_value_eq_ok_iff (fun xs => some (PlainValue.list xs)) (fun xs p => ?_) r
    have array := decodeArray_ok_iff (dec := decodeLeaf s.config.config b elem)
      (fun _ _ _ _ decoded => decodeLeaf_cursor decoded) path n 0 pos xs p
    simpa only [Nat.zero_add] using array
  · exact map_value_eq_ok_iff (fun fig => some (Value.record fig)) (decodeFigure_ok_iff s.config.legal b pos path) r
  · refine map_value_eq_ok_iff (fun figs => some (Value.records figs)) (fun figs p => ?_) r
    have array := decodeArray_ok_iff (dec := decodeFigure s.config.config b)
      (fun _ _ _ _ decoded => decodeFigure_cursor s.config.legal decoded) path n 0 pos figs p
    simpa only [Nat.zero_add, decodeItem_figure_eq_ok_iff] using array
  · cases x <;> rfl

end Sys2Proof.Machine
end

section
/-! Noninterference of reserved content: a decoder reads only the bits its item's mask keeps (`42_payload.md` rule
R99). -/

namespace Sys2Proof.Machine

/-! ## What a mask shows of two byte sequences -/

theorem maskedBits_append_inj {kept kept' : List Bool} {g g' : Bytes} {s : Nat} :
    maskedBits (kept ++ kept') g s = maskedBits (kept ++ kept') g' s ↔
      maskedBits kept g s = maskedBits kept g' s ∧
        maskedBits kept' g (s + kept.length) = maskedBits kept' g' (s + kept.length) := by
  rw [maskedBits_append, maskedBits_append]
  exact List.append_eq_append_iff_of_size_eq_left (by simp)

theorem maskedAt_append_inj {mask mask' b b' : Bytes} {pos : Nat} :
    maskedAt (mask ++ mask') b pos = maskedAt (mask ++ mask') b' pos ↔
      maskedAt mask b pos = maskedAt mask b' pos ∧
        maskedAt mask' b (pos + mask.length) = maskedAt mask' b' (pos + mask.length) := by
  rw [maskedAt_append, maskedAt_append]
  exact List.append_eq_append_iff_of_size_eq_left (by simp)

/-- A field is read from its kept bits. -/
theorem getBits_of_maskedBits_eq {g g' : Bytes} {s w : Nat}
    (same : maskedBits (List.replicate w true) g s = maskedBits (List.replicate w true) g' s) :
    getBits g s w = getBits g' s w := by
  refine getBits_congr fun i hi => ?_
  have bit := congrArg (·[i]?) same
  simpa [maskedBits, hi] using bit

/-- Packed bits are read back, so no two bit sequences of one length are packed to the same bytes. -/
theorem bitsToBytes_inj {bs bs' : List Bool} (length : bs.length = bs'.length)
    (same : bitsToBytes bs = bitsToBytes bs') : bs = bs' := by
  refine List.ext_getElem length fun q hq hq' => ?_
  have bit := bitAt_bitsToBytes bs (q := q) (by omega)
  rw [same, bitAt_bitsToBytes bs' (by omega)] at bit
  simpa [List.getD_eq_getElem?_getD, hq, hq'] using bit.symm

/-! ## Item by item -/

theorem decodeBits_congr {c : Config} {g g' : Bytes} {path : FieldPath} {gs : List (FieldName × BitItem)} {s : Nat}
    (same : maskedBits (keptBits gs) g s = maskedBits (keptBits gs) g' s) :
    decodeBits c g path gs s = decodeBits c g' path gs s := by
  induction gs generalizing s with
  | nil => rfl
  | cons it gs ih =>
    obtain ⟨n, it⟩ := it
    cases it with
    | rb w =>
      obtain ⟨-, rest⟩ := maskedBits_append_inj.mp same
      rw [List.length_replicate] at rest
      exact ih rest
    | ub _ | eb _ _ =>
      obtain ⟨field, rest⟩ := maskedBits_append_inj.mp same
      rw [List.length_replicate] at rest
      rw [decodeBits, decodeBits, getBits_of_maskedBits_eq field, ih rest]

section
variable {c : Config} {b b' : Bytes}

/-- A number is read from its bytes, which have no reserved bit. -/
theorem memRead_of_maskedAt_eq {pos k : Nat} (length : b.length = b'.length) (inside : pos + k ≤ b.length)
    (same : maskedAt (List.replicate k 0xFF) b pos = maskedAt (List.replicate k 0xFF) b' pos) :
    memRead b pos k = memRead b' pos k := by
  rw [maskedAt_kept inside, maskedAt_kept (length ▸ inside)] at same
  rw [memRead, memRead, same]

theorem decodeLeaf_congr {it : LeafItem} (ok : it.ok c = true) (length : b.length = b'.length) {pos : Nat}
    (same : maskedAt (leafMask it) b pos = maskedAt (leafMask it) b' pos) (path : FieldPath) :
    decodeLeaf c b it pos path = decodeLeaf c b' it pos path := by
  rcases Nat.lt_or_ge b.length (pos + it.size) with short | inside
  · rw [decodeLeaf_of_short short, decodeLeaf_of_short (length ▸ short)]
  have inside' : pos + it.size ≤ b'.length := length ▸ inside
  cases it with
  | u k =>
    rw [decodeLeaf_u (k := k) inside, decodeLeaf_u (k := k) inside', memRead_of_maskedAt_eq (k := k) length inside same]
  | i k =>
    rw [decodeLeaf_i (k := k) inside, decodeLeaf_i (k := k) inside', memRead_of_maskedAt_eq (k := k) length inside same]
  | enum e k =>
    rw [decodeLeaf_enum (k := k) inside, decodeLeaf_enum (k := k) inside',
      memRead_of_maskedAt_eq (k := k) length inside same]
  | bits gs =>
    have size : (bitsToBytes (keptBits gs)).length = groupBits gs / 8 := leafMask_length ok
    rw [leafMask, ← maskedAt_slice size b, ← maskedAt_slice size b', ← bitsToBytes_maskedBits,
      ← bitsToBytes_maskedBits] at same
    rw [decodeLeaf_bits inside, decodeLeaf_bits inside', decodeBits_congr (bitsToBytes_inj (by simp) same)]

theorem Reencodes.cursor {α : Type} {mask : Bytes} {enc : α → Option Bytes} {pos : Nat} {r : Except Error (α × Nat)}
    (h : Reencodes mask enc b pos r) {x : α} {p : Nat} (decoded : r = .ok (x, p)) : p = pos + mask.length := by
  subst decoded
  exact h.1

theorem decodeArray_congr {α : Type} {mask : Bytes} {dec dec' : Nat → FieldPath → Except Error (α × Nat)}
    (moves : ∀ pos path x p, dec pos path = .ok (x, p) → p = pos + mask.length)
    (h : ∀ pos, maskedAt mask b pos = maskedAt mask b' pos → ∀ path, dec pos path = dec' pos path)
    (path : FieldPath) {n : Nat} (j : Nat) {pos : Nat}
    (same : maskedAt (List.replicate n mask).flatten b pos = maskedAt (List.replicate n mask).flatten b' pos) :
    decodeArray dec path n j pos = decodeArray dec' path n j pos := by
  induction n generalizing j pos with
  | zero => rfl
  | succ n ih =>
    obtain ⟨first, rest⟩ := maskedAt_append_inj.mp same
    rw [decodeArray_succ, decodeArray_succ, ← h pos first]
    cases decoded : dec pos (path ++ [.index j]) with
    | error e => rfl
    | ok r =>
      obtain ⟨x, p⟩ := r
      obtain rfl := moves _ _ _ _ decoded
      exact congrArg (Except.map _) (ih (j + 1) rest)

/-- A list of items is its first one, and then the others where it ends (R93). -/
theorem decodeItems_cons {ι α : Type} (dec : ι → Nat → FieldPath → Except Error (Option α × Nat)) (path : FieldPath)
    (n : FieldName) (it : ι) (items : List (FieldName × ι)) (pos : Nat) :
    decodeItems dec path ((n, it) :: items) pos =
      (dec it pos (path ++ [.name n])).bind fun v =>
        (decodeItems dec path items v.2).map fun vs => (v.1.toList ++ vs.1, vs.2) := by
  rw [decodeItems]
  cases dec it pos (path ++ [.name n]) with
  | error e => rfl
  | ok v =>
    simp only [bind, Except.bind]
    cases decodeItems dec path items v.2 <;> rfl

theorem decodeItems_congr {ι α : Type} {mask : ι → Bytes}
    {dec dec' : ι → Nat → FieldPath → Except Error (Option α × Nat)} {items : List (FieldName × ι)}
    (moves : ∀ it ∈ items, ∀ pos path v p, dec it.2 pos path = .ok (v, p) → p = pos + (mask it.2).length)
    (h : ∀ it ∈ items, ∀ pos, maskedAt (mask it.2) b pos = maskedAt (mask it.2) b' pos →
      ∀ path, dec it.2 pos path = dec' it.2 pos path)
    (path : FieldPath) {pos : Nat}
    (same : maskedAt (items.flatMap fun it => mask it.2) b pos =
      maskedAt (items.flatMap fun it => mask it.2) b' pos) :
    decodeItems dec path items pos = decodeItems dec' path items pos := by
  induction items generalizing pos with
  | nil => rfl
  | cons it items ih =>
    obtain ⟨n, it⟩ := it
    obtain ⟨first, rest⟩ := maskedAt_append_inj.mp same
    rw [decodeItems_cons, decodeItems_cons, ← h (n, it) List.mem_cons_self pos first]
    cases decoded : dec it pos (path ++ [.name n]) with
    | error e => rfl
    | ok r =>
      obtain ⟨v, p⟩ := r
      obtain rfl := moves (n, it) List.mem_cons_self _ _ _ _ decoded
      exact congrArg (Except.map _) (ih (fun x mem => moves x (List.mem_cons_of_mem _ mem))
        (fun x mem => h x (List.mem_cons_of_mem _ mem)) rest)

theorem decodePlain_congr {it : PlainItem} (ok : it.ok c = true) (length : b.length = b'.length) {pos : Nat}
    (same : maskedAt (plainMask it) b pos = maskedAt (plainMask it) b' pos) (path : FieldPath) :
    decodePlain c b it pos path = decodePlain c b' it pos path := by
  cases it with
  | leaf it => exact congrArg (Except.map _) (decodeLeaf_congr ok length same path)
  | rsv k => rw [decodePlain_rsv, decodePlain_rsv, length]
  | arr e n =>
    simp only [PlainItem.ok, Bool.and_eq_true] at ok
    exact congrArg (Except.map _) (decodeArray_congr (fun pos path _ _ => (leaf_reencodes ok.1 b pos path).cursor)
      (fun _ same => decodeLeaf_congr ok.1 length same) path 0 same)

theorem decodeFigure_congr (hc : c.legal = true) (length : b.length = b'.length) {pos : Nat}
    (same : maskedAt (figureMask c) b pos = maskedAt (figureMask c) b' pos) (path : FieldPath) :
    decodeFigure c b pos path = decodeFigure c b' pos path := by
  have legal := legal_figureOk hc
  simp only [Config.figureOk, itemsOk, Bool.and_eq_true, List.all_eq_true] at legal
  obtain ⟨⟨ok, -⟩, -⟩ := legal
  exact decodeItems_congr (fun it mem pos path _ _ => (plain_reencodes (ok it mem) b pos path).cursor)
    (fun it mem _ same => decodePlain_congr (ok it mem) length same) path same

theorem decodeItem_congr (hc : c.legal = true) {it : Item} (ok : it.ok c = true) (length : b.length = b'.length)
    {pos : Nat} (same : maskedAt (itemMask c it) b pos = maskedAt (itemMask c it) b' pos) (path : FieldPath) :
    decodeItem c b it pos path = decodeItem c b' it pos path := by
  cases it with
  | plain it => exact congrArg (Except.map _) (decodePlain_congr ok length same path)
  | figure => exact congrArg (Except.map _) (decodeFigure_congr hc length same path)
  | figures n =>
    exact congrArg (Except.map _) (decodeArray_congr (fun pos path _ _ => (figure_reencodes hc b pos path).cursor)
      (fun _ same => decodeFigure_congr hc length same) path 0 same)

theorem decodeBody_congr (hc : c.legal = true) {items : List (FieldName × Item)}
    (ok : ∀ it ∈ items, it.2.ok c = true) (length : b.length = b'.length)
    (same : maskedAt (items.flatMap fun it => itemMask c it.2) b 0 =
      maskedAt (items.flatMap fun it => itemMask c it.2) b' 0) :
    decodeBody c items b = decodeBody c items b' :=
  decodeItems_congr (fun it mem pos path _ _ => (item_reencodes hc (ok it mem) b pos path).cursor)
    (fun it mem _ same => decodeItem_congr hc (ok it mem) length same) [] same

/-! ## Whole payloads -/

/-- Two bodies of one length that are equal once cleared show the same under the layout's mask. -/
theorem maskedAt_of_clearReserved_eq {items : List (FieldName × Item)} (length : b.length = b'.length)
    (same : clearReserved c (.fixed items) b = clearReserved c (.fixed items) b') :
    maskedAt (items.flatMap fun it => itemMask c it.2) b 0 =
      maskedAt (items.flatMap fun it => itemMask c it.2) b' 0 := by
  refine List.ext_getElem (by simp) fun i hi _ => ?_
  rw [maskedAt_length] at hi
  rcases Nat.lt_or_ge i b.length with inside | past
  · have byte := List.getElem_of_eq same (i := i) (by simp only [clearReserved, List.length_zipWith]; omega)
    simpa [clearReserved, maskedAt, inside, length ▸ inside] using byte
  · simp [maskedAt, past, length ▸ past]

end

/-- Settles O24: the items of a fixed-size layout read through its mask, and RID has no reserved field. -/
theorem payDecodeIgnoresReservedContent : Obligations.PayDecodeIgnoresReservedContent := by
  intro s tag layout b b' declared known length same
  refine exec_congr (congrArg (Except.map Result.variant) ?_)
  cases layout with
  | rid => exact congrArg (payloadDecode _ tag · declared) same
  | fixed items =>
    have body := decodeBody_congr s.config.legal (layoutOf_fixed_ok s.config.legal known) length
      (maskedAt_of_clearReserved_eq length same)
    rw [payloadDecode_of_fixed known, payloadDecode_of_fixed known, decodeFixed, decodeFixed, body, length]

end Sys2Proof.Machine
end

section
/-! PAY_ENCODE: it answers exactly the well-formed variants, each item's bytes where those before it end
(`42_payload.md` rules R106 to R108), and what every configuration's variants are (`30_encoding.md` rules R62, R63). -/

namespace Sys2Proof.Machine

/-! ## The bytes of each item -/

theorem sizeOfItems_append_singleton {ι : Type} (size : ι → Nat) (items : List (FieldName × ι)) (it : FieldName × ι) :
    sizeOfItems size (items ++ [it]) = sizeOfItems size items + size it.2 := by
  induction items with
  | nil => simp [sizeOfItems]
  | cons x items ih => simp [sizeOfItems, ih, Nat.add_assoc]

/-- Where each part has its item's size, the parts of the first items have the size of these. -/
theorem flatten_take_length {ι : Type} {size : ι → Nat} {items : List (FieldName × ι)} {es : List Bytes}
    (parts : ∀ pre n it post, items = pre ++ (n, it) :: post → ∃ e, es[pre.length]? = some e ∧ e.length = size it)
    {pre post : List (FieldName × ι)} (split : items = pre ++ post) :
    (es.take pre.length).flatten.length = sizeOfItems size pre := by
  induction pre using List.reverseRecOn generalizing post with
  | nil => rfl
  | append_singleton pre x ih =>
    have split : items = pre ++ x :: post := by simpa using split
    obtain ⟨e, here, length⟩ := parts pre x.1 x.2 post split
    rw [List.length_append, List.length_singleton, List.take_add_one, here, List.flatten_append, List.length_append,
      ih split, sizeOfItems_append_singleton]
    simp [length]

section
variable {c : Config} {items : List (FieldName × Item)} {vs : List Value} {body : Bytes}

/-- In a body the encoding of each item stands at the sum of the sizes before it, in layout order (R108). -/
theorem encodeItem_eq_slice (hc : c.legal = true) (ok : ∀ it ∈ items, it.2.ok c = true)
    (fits : fitsItems itemReserved (fitsItem c) items vs = true)
    (enc : encodeItems itemReserved (encodeItem c) items vs = some body) {pre post : List (FieldName × Item)}
    {n : FieldName} {it : Item} (split : items = pre ++ (n, it) :: post) :
    encodeItem c it (valueAfter itemReserved pre it vs) =
      some (slice body (sizeOfItems Item.size pre) it.size) := by
  obtain ⟨es, rfl, -, -, parts⟩ := (encodeItems_eq_some_iff ..).mp enc
  have sizes : ∀ pre n it post, items = pre ++ (n, it) :: post →
      ∃ e, es[pre.length]? = some e ∧ e.length = it.size := by
    intro pre n it post split
    obtain ⟨e, written, length, -⟩ := item_codesBack hc (ok (n, it) (by simp [split]))
      (fits_valueAfter fits pre n it post split)
    exact ⟨e, by rw [← parts pre n it post split, written], length⟩
  obtain ⟨e, here, length⟩ := sizes pre n it post split
  have bytes := slice_flatten here
  rw [flatten_take_length sizes split, length] at bytes
  rw [parts pre n it post split, here, bytes]

theorem encodeItems_length (hc : c.legal = true) (ok : ∀ it ∈ items, it.2.ok c = true)
    (fits : fitsItems itemReserved (fitsItem c) items vs = true)
    (enc : encodeItems itemReserved (encodeItem c) items vs = some body) :
    body.length = sizeOfItems Item.size items := by
  obtain ⟨body', enc', length, -⟩ := body_codesBack hc ok fits
  rw [enc, Option.some.injEq] at enc'
  exact enc' ▸ length

end

/-! ## The bytes of RID -/

/-- The values of a well-formed RID are three words, and its data, which fit the header's length. -/
theorem exists_ridVariant_words {c : Config} (hc : c.legal = true) {v : Variant} (tag : v.tag = c.tagRid)
    (ok : variantOk c v = true) :
    ∃ (subtag sender receiver : U16) (data : Bytes), v = ridVariant c subtag sender.toNat receiver.toNat data ∧
      6 + data.length ≤ 0xFFFF := by
  obtain ⟨subtag, sender, receiver, data, rfl⟩ := exists_ridVariant tag ok
  obtain ⟨layout, known, fits⟩ := variantOk_iff.mp ok
  obtain rfl : layout = .rid := by simpa [layoutOf_rid.mpr rfl, ridVariant] using known.symm
  simp only [ridVariant, fitsLayout, ridItems, fitsItems, itemReserved, plainReserved, fitsItem, fitsPlain, fitsLeaf,
    Bool.false_eq_true, if_false, Bool.and_eq_true, decide_eq_true_eq, beq_self_eq_true, true_and, and_true] at fits
  obtain ⟨⟨-, senderLegal, receiverLegal⟩, small⟩ := fits
  have word := fun {raw} => enumLegal_lt (raw := raw) hc (endpointId_width hc)
  exact ⟨subtag, BitVec.ofNatLT sender (word senderLegal), BitVec.ofNatLT receiver (word receiverLegal), data, rfl,
    small⟩

theorem encodeBody_ridVariant (c : Config) (subtag sender receiver : U16) (data : Bytes) :
    encodeBody c .rid (ridVariant c subtag sender.toNat receiver.toNat data).values =
      some ([lo8 subtag, hi8 subtag, lo8 sender, hi8 sender, lo8 receiver, hi8 receiver] ++ data) := by
  simp [encodeBody, ridVariant, ridItems, encodeItems, itemReserved, plainReserved, encodeItem, encodePlain,
    encodeLeaf, memWrite_u16]

/-! ## PAY_ENCODE -/

theorem raises_payEncode (s : State) (v : Variant) (e : Error) :
    s.raises (.payEncode v) e ↔ payloadBytes s.config.config v = .error e := by
  rw [raises_outcome, outcome, map_eq_error_iff]

/-- Settles O25: the body is encoded as the layout of the variant's tag says, a list of items or RID. -/
theorem payEncodeAnswersExactlyWellFormed : Obligations.PayEncodeAnswersExactlyWellFormed := by
  refine fun s v => ⟨fun ok => ?_, fun bad => ?_⟩
  · have hc := s.config.legal
    obtain ⟨layout, body, known, enc⟩ := encodeBody_isSome hc ok
    have written := payloadBytes_of_encodeBody ok known enc
    rw [memWrite_u16, lo8_eq_extractLsb', hi8_eq_extractLsb'] at written
    refine ⟨body, (answers_payEncode ..).mpr written, written, ⟨layout, known, enc⟩, fun items fixed => ?_,
      fun rid => ?_⟩
    · obtain ⟨layout', known', fits⟩ := variantOk_iff.mp ok
      obtain rfl := Option.some.inj (known'.symm.trans fixed)
      obtain rfl := Option.some.inj (known.symm.trans fixed)
      have okItems := layoutOf_fixed_ok hc fixed
      exact ⟨encodeItems_length hc okItems fits enc, fun pre n it post => encodeItem_eq_slice hc okItems fits enc⟩
    · obtain ⟨subtag, sender, receiver, data, rfl, small⟩ := exists_ridVariant_words hc rid ok
      obtain rfl := Option.some.inj (known.symm.trans (layoutOf_rid.mpr rid))
      obtain rfl := Option.some.inj (enc.symm.trans (encodeBody_ridVariant ..))
      simp only [← lo8_eq_extractLsb', ← hi8_eq_extractLsb']
      have length : ∀ front : Bytes, front.length = 6 → (front ++ data).length = 6 + data.length :=
        fun front six => by rw [List.length_append, six]
      refine ⟨subtag, sender, receiver, data, rfl, rfl, length _ rfl, (length _ rfl).trans_le small⟩
  · have failed := payloadBytes_of_not_variantOk bad
    exact ⟨failed, (raises_payEncode ..).mpr failed⟩

/-! ## The variants of every configuration -/

theorem legal_oneLayoutPerTag {c : Config} (h : c.legal = true) : c.tags.Nodup := by
  simp only [Config.legal, Config.wellFormed, Config.oneLayoutPerTag, Bool.and_eq_true, decide_eq_true_eq] at h
  tauto

theorem legal_hasGameStatus {c : Config} (h : c.legal = true) : (c.layouts.lookup tagGameStatus).isSome = true := by
  simp only [Config.legal, Config.wellFormed, Config.hasGameStatus, Bool.and_eq_true] at h
  tauto

theorem legal_hasKnownVariants {c : Config} (h : c.legal = true) : c.hasKnownVariants = true := by
  simp only [Config.legal, Bool.and_eq_true] at h
  exact h.2

/-- A fixed-size layout is the one of its tag, which is not the tag of RID. -/
theorem layoutOf_of_mem_layouts {c : Config} (hc : c.legal = true) {tag : U16} {items : List (FieldName × Item)}
    (mem : (tag, items) ∈ c.layouts) : tag ≠ c.tagRid ∧ c.layoutOf tag = some (.fixed items) := by
  obtain ⟨notRid, once⟩ := List.nodup_cons.mp (legal_oneLayoutPerTag hc)
  have other : tag ≠ c.tagRid := by
    rintro rfl
    exact notRid (List.mem_map_of_mem mem)
  refine ⟨other, ?_⟩
  rw [Config.layoutOf, if_neg other, lookup_of_mem once mem, Option.map_some]

theorem exists_mem_layouts_of_lookup {c : Config} {tag : U16} (h : (c.layouts.lookup tag).isSome = true) :
    ∃ items, (tag, items) ∈ c.layouts := by
  obtain ⟨items, found⟩ := Option.isSome_iff_exists.mp h
  exact ⟨items, lookup_mem found⟩

/-- The six items of MapPathData have 5 + 49 + 49 + 2 bytes (R62). -/
theorem sizeOfItems_of_isMapPath {items : List (FieldName × Item)} (shape : isMapPath items = true) :
    sizeOfItems Item.size items = 105 := by
  unfold isMapPath at shape
  split at shape
  · simp [sizeOfItems, Item.size, PlainItem.size, LeafItem.size] at shape ⊢
    omega
  · simp [sizeOfItems, Item.size, PlainItem.size, LeafItem.size] at shape ⊢
    omega
  · cases shape

/-- An encoding under a fixed-size layout is the tag's two bytes and the layout's. -/
theorem payloadBytes_length_of_fixed {c : Config} (hc : c.legal = true) {v : Variant} {items : List (FieldName × Item)}
    (fixed : c.layoutOf v.tag = some (.fixed items)) {p : Bytes} (written : payloadBytes c v = .ok p) :
    p.length = 2 + sizeOfItems Item.size items := by
  cases ok : variantOk c v with
  | false => simp [payloadBytes_of_not_variantOk ok] at written
  | true =>
    obtain ⟨layout, known, fits⟩ := variantOk_iff.mp ok
    obtain rfl := Option.some.inj (known.symm.trans fixed)
    obtain ⟨layout', body, known', enc⟩ := encodeBody_isSome hc ok
    obtain rfl := Option.some.inj (known'.symm.trans fixed)
    rw [payloadBytes_of_encodeBody ok fixed enc] at written
    cases written
    rw [List.length_append, memWrite_length, encodeItems_length hc (layoutOf_fixed_ok hc fixed) fits enc]

/-- Settles O28: R62's four variants are read off the legality of the configuration, and `TAGS` off the look-up. -/
theorem everyConfigurationHasTheKnownVariants : Obligations.EveryConfigurationHasTheKnownVariants := by
  intro s
  have hc := s.config.legal
  have known := legal_hasKnownVariants hc
  simp only [Config.hasKnownVariants, Bool.and_eq_true, List.any_eq_true, decide_eq_true_eq] at known
  obtain ⟨hasCustom, ⟨mapTag, mapItems⟩, mapMem, isMap, ⟨simTag, simItems⟩, simMem, isSim, distinct⟩ := known
  obtain ⟨gameItems, gameMem⟩ := exists_mem_layouts_of_lookup (legal_hasGameStatus hc)
  obtain ⟨customItems, customMem⟩ := exists_mem_layouts_of_lookup hasCustom
  obtain ⟨gameOther, game⟩ := layoutOf_of_mem_layouts hc gameMem
  obtain ⟨customOther, custom⟩ := layoutOf_of_mem_layouts hc customMem
  obtain ⟨mapOther, map⟩ := layoutOf_of_mem_layouts hc mapMem
  obtain ⟨simOther, sim⟩ := layoutOf_of_mem_layouts hc simMem
  have size := sizeOfItems_of_isMapPath isMap
  simp only [isSimulateControl, List.any_eq_true] at isSim
  obtain ⟨gs, gsMem, shares⟩ := isSim
  obtain ⟨pre, n, v, m, w, post, split, widths, oneByte⟩ := sharesByte_split shares
  rw [Nat.zero_add] at oneByte
  refine ⟨mapTag, simTag, ?_, ⟨gameItems, game⟩, ⟨mapItems, map, isMap, size, fun vals p written => ?_⟩,
    ⟨simItems, gs, pre, n, v, m, w, post, sim, gsMem, split, widths, oneByte⟩, ⟨customItems, custom⟩, fun tag => ?_⟩
  · refine List.nodup_append.mpr ⟨distinct, List.nodup_singleton s.config.config.tagRid, ?_⟩
    simp [gameOther, customOther, mapOther, simOther]
  · rw [answers_payEncode] at written
    rw [payloadBytes_length_of_fixed hc map written, size]
  · rw [← layoutOf_isSome, Option.isSome_iff_exists]

end Sys2Proof.Machine
end

section
/-! FRAME_ENCODE of inconsistent frames, and the bytes after a frame (`43_frame.md` rules R114, R118). -/

namespace Sys2Proof.Machine

theorem raises_frameEncode (s : State) (f : Frame) (e : Error) :
    s.raises (.frameEncode f) e ↔ frameEncode s.config.config f = .error e := by
  rw [raises_outcome, outcome, map_eq_error_iff]

/-- FRAME_ENCODE has one error (R114). -/
theorem frameEncode_cases (c : Config) (f : Frame) :
    (∃ b, frameEncode c f = .ok b) ∨ frameEncode c f = .error .contractViolation := by
  cases encoded : frameEncode c f with
  | ok b => exact .inl ⟨b, rfl⟩
  | error e =>
    have status : e.status = .contractViolation := List.mem_singleton.mp (frameEncode_raisesOnly c f e encoded)
    cases e with
    | contractViolation => exact .inr rfl
    | _ => cases status

/-- Settles O32: the frames that are encoded are those of `frameEncode_eq_ok_iff`, and for the others there is only one
error. -/
theorem frameEncodeAnswersExactlyConsistent : Obligations.FrameEncodeAnswersExactlyConsistent := by
  rintro s f hdr rfl
  simp only [answers_frameEncode, raises_frameEncode, ← lo8_eq_extractLsb', ← hi8_eq_extractLsb']
  have five : [0xA5, lo8 f.header.payloadLength, hi8 f.header.payloadLength, f.header.sequence] ++ [f.header.crc8] =
      headerBytes f.header := (headerBytes_eq f.header).symm
  have crc : crc8 [0xA5, lo8 f.header.payloadLength, hi8 f.header.payloadLength, f.header.sequence] =
      headerCrc f.header.payloadLength f.header.sequence := rfl
  rw [five, crc]
  refine ⟨fun p written => ⟨fun ⟨length, consistent, tail⟩ => ?_, fun inconsistent => ?_⟩, fun bad => ?_⟩
  · refine ⟨_, frameEncode_eq_ok_iff.mpr ⟨p, written, length, consistent, tail, rfl⟩, rfl, ?_⟩
    obtain ⟨body, rfl, -⟩ := payloadBytes_eq_ok s.config.legal written
    simp only [length, List.length_append, headerBytes_length, List.length_cons, List.length_nil]
    omega
  · refine (frameEncode_cases s.config.config f).resolve_left fun ⟨b, encoded⟩ => inconsistent ?_
    obtain ⟨p', written', length, consistent, tail, -⟩ := frameEncode_eq_ok_iff.mp encoded
    obtain rfl := Except.ok.inj (written.symm.trans written')
    exact ⟨length, consistent, tail⟩
  · refine (frameEncode_cases s.config.config f).resolve_left fun ⟨b, encoded⟩ => ?_
    obtain ⟨p, written, -⟩ := frameEncode_eq_ok_iff.mp encoded
    simp [payloadBytes_of_not_variantOk bad] at written

/-- Settles O34: the buffer is a frame's bytes and more, and by `frameDecode_append` what is more has no part in the
outcome. -/
theorem frameDecodeIgnoresBytesAfterTheFrame : Obligations.FrameDecodeIgnoresBytesAfterTheFrame := by
  intro s bytes rest h valid long
  rw [answers_hdrDecode] at valid
  obtain ⟨consistent, behind, rfl⟩ := (headerDecode_eq_ok_iff bytes h).mp valid
  obtain ⟨tag0, tag1, body, tail0, tail1, more, rfl, size⟩ :=
    exists_body_of_length (b := behind) (n := h.payloadLength.toNat) (by
      rw [List.length_append, headerBytes_length] at long
      omega)
  have whole : headerBytes h ++ ([tag0, tag1] ++ body ++ [tail0, tail1] ++ more) =
      frameFront h tag0 tag1 body ++ [tail0, tail1] ++ more := by simp [frameFront]
  have frame : (frameFront h tag0 tag1 body ++ [tail0, tail1] ++ more).take (h.payloadLength.toNat + 9) =
      frameFront h tag0 tag1 body ++ [tail0, tail1] :=
    List.take_left' (by simp [frameFront_length, size])
  rw [whole, frame]
  refine exec_congr (congrArg (Except.map _) ?_)
  rw [frameDecode_append consistent size, frameDecode_append consistent size]

end Sys2Proof.Machine
end
